-- ==== Sys2Proof/Word.lean ====
section
/-! DEFINITION. The word types of the block. Every operand, result and length register and every MBUF entry is one
unsigned 32-bit value (00_scope.md R6, R7); a PRAM cell is 16 bits (10_state.md R32) and a CBUF cell 8 (10_state.md R34).
Arithmetic inside a command is exact, on naturals (00_scope.md R7, R13), so nothing is added here to what BitVec has. -/

namespace Sys2Proof

/-- A register, an operand, a code point, a bus data word: W = 32 bits (00_scope.md R6). -/
abbrev Word := BitVec 32

/-- One cell of the prime RAM (10_state.md R32). -/
abbrev Half := BitVec 16

/-- One ciphertext character (10_state.md R34). -/
abbrev Byte := BitVec 8

end Sys2Proof
end

