-- ==== Sys2Proof/Config.lean ====
section
/-! DEFINITION. What an implementation fixes: the block's constants (00_scope.md R6), its OPEN parameters as a structure
that State carries (00_scope.md R6, R9; log 3) but for latency (log 27), and the free values, constants with no body, so that nothing can be proved
about what they are (logs 4, 5, 6, 8). -/

namespace Sys2Proof

/-- BOUND_MAX, the largest bound SIEVE accepts (00_scope.md R6). -/
def boundMax : Nat := 65535

/-- PSET_DEPTH, the number of PRAM entries (00_scope.md R6). -/
def psetDepth : Nat := 6542

/-- The identification constant "RSA1" (10_state.md R21). -/
def idValue : Word := 0x52534131#32

/-- The size of the block's window in bytes: 18 offset bits (20_memory.md R60). -/
def windowBytes : Nat := 0x40000

/-- Three of the four OPEN parameters of one block (00_scope.md R6). `retryLimit = none` is INF (00_scope.md R9). The fourth,
latency (R6, R10, U1), is no field. DESIGN CHOICE (log 27): it is not an argument, but the turns of others that State's schedule
lets pass before the engine's. -/
structure Config where
  mbufDepth  : Nat
  retryLimit : Option Nat
  base       : Nat
deriving DecidableEq, Repr

/-- CBUF_DEPTH, derived (00_scope.md R6). -/
def Config.cbufDepth (c : Config) : Nat := 10 * c.mbufDepth

/-- The reference values of MBUF_DEPTH and RETRY_LIMIT (00_scope.md R6). The spec gives BASE no reference value.
DESIGN CHOICE (log 3): 0. Unsafe if a claim rests on these values; the claims are made for every Config. -/
def Config.reference : Config := { mbufDepth := 1024, retryLimit := none, base := 0 }

/-- A host read of the running command's output buffer returns an unspecified word, a fresh draw for each read
(40_command_lifecycle.md R117, U4): the n-th such read of a run returns `freeRead n`. -/
opaque Config.freeRead : Nat → Word

/-- What MBUF entry i holds when nothing has written it since reset number n (70_reset_and_hazards.md R253, U5). -/
opaque Config.freeMbuf : Nat → Nat → Word

/-- What CBUF entry i holds when nothing has written it since reset number n (70_reset_and_hazards.md R253, U5). -/
opaque Config.freeCbuf : Nat → Nat → Byte

/-- What PRAM cell i holds when no SIEVE has written it since reset number n (U8). No host read shows it. -/
opaque Config.freePram : Nat → Nat → Half

/-- An answer of the entropy source (44_keygen.md R171) when State lists none: any natural, reduced into the draw's range
where it is used. -/
opaque Config.freeDraw : Nat → Nat

end Sys2Proof
end

