-- ==== Sys2Proof/Syntax.lean ====
section
/-! DEFINITION. The commands of RSACORE-CMD v1, one constructor for each row of the opcode table (30_encoding.md R91). A
command word carries no register number and no immediate (30_encoding.md R90): every operand comes from a fixed register or
buffer (30_encoding.md R92), so no constructor has an argument. -/

namespace Sys2Proof

/-- The eight commands (30_encoding.md R91). -/
inductive Instr where
  /-- Trial-division primality test (41_primality.md R131). -/
  | isprime
  /-- Build the PrimeSet for a bound (42_sieve.md R140). -/
  | sieve
  /-- Modular exponentiation (43_modular_arithmetic.md R152). -/
  | modpow
  /-- Modular multiplicative inverse (43_modular_arithmetic.md R155). -/
  | modinv
  /-- Greatest common divisor (43_modular_arithmetic.md R158). -/
  | gcd
  /-- Generate a keypair from the current PrimeSet (44_keygen.md R170). -/
  | keygen
  /-- Encode a plaintext into ciphertext blocks (45_block_codec.md R193). -/
  | encrypt
  /-- Decode ciphertext blocks into code points (45_block_codec.md R195). -/
  | decrypt
deriving DecidableEq, Repr

end Sys2Proof
end

