-- ==== Sys2Proof/WellFormed.lean ====
section
/-! DEFINITION. The checks on what comes from outside: a command word (30_encoding.md R90, R91, R93), a command, and the OPEN
parameters of a block (00_scope.md R6). Each is a Bool that can be evaluated. -/

namespace Sys2Proof

/-- The reserved field RSVD, bits 31:8, is 0 (30_encoding.md R90). -/
def reservedBitsZero (w : Word) : Bool := w.toNat / 256 == 0

/-- OPCODE, bits 7:0, is one of 0x01 to 0x08 (30_encoding.md R91). -/
def opcodeAssigned (w : Word) : Bool := 1 ≤ w.toNat % 256 && w.toNat % 256 ≤ 8

/-- A legal command word: both checks (30_encoding.md R91, R93). -/
def legalWord (w : Word) : Bool := reservedBitsZero w && opcodeAssigned w

/-- A command as syntax is well formed: it has no operand that could be out of range (30_encoding.md R90, R92). -/
def Instr.wf : Instr → Bool
  | .isprime => true
  | .sieve => true
  | .modpow => true
  | .modinv => true
  | .gcd => true
  | .keygen => true
  | .encrypt => true
  | .decrypt => true

/-- 1 ≤ MBUF_DEPTH ≤ 1638 (00_scope.md R6, R8). -/
def Config.depthInRange (c : Config) : Bool := 1 ≤ c.mbufDepth && c.mbufDepth ≤ 1638

/-- RETRY_LIMIT is a positive integer or INF (00_scope.md R6). -/
def Config.retryPositive (c : Config) : Bool :=
  match c.retryLimit with
  | none => true
  | some l => 1 ≤ l

/-- A Config that the spec admits (00_scope.md R6). -/
def Config.wf (c : Config) : Bool := c.depthInRange && c.retryPositive

end Sys2Proof
end

