-- ==== Sys2Proof/Decode.lean ====
section
/-! DEFINITION. The decoder, total on every 32-bit word and rejecting by name (30_encoding.md R90, R91, R93, R94), and after it
the encoder (30_encoding.md R91, "As full words"). No mode bit changes decoding (R94). -/

namespace Sys2Proof

/-- Why a word is no command (30_encoding.md R93). -/
inductive IllegalWord where
  /-- RSVD ≠ 0. -/
  | reservedBits
  /-- RSVD = 0 and OPCODE is 0x00 or in 0x09 to 0xFF. -/
  | unassignedOpcode
deriving DecidableEq, Repr

/-- What the decoder answers: every word is either a legal command or illegal (30_encoding.md R94). -/
inductive Decoded where
  | legal (i : Instr)
  | illegal (why : IllegalWord)
deriving DecidableEq, Repr

/-- The field OPCODE, bits 7:0 (30_encoding.md R90). -/
def opcodeField (w : Word) : BitVec 8 := w.extractLsb' 0 8

/-- The field RSVD, bits 31:8 (30_encoding.md R90). -/
def rsvdField (w : Word) : BitVec 24 := w.extractLsb' 8 24

/-- The opcode map (30_encoding.md R91). -/
def instrOfOpcode (op : BitVec 8) : Option Instr :=
  match op.toNat with
  | 0x01 => some .isprime
  | 0x02 => some .sieve
  | 0x03 => some .modpow
  | 0x04 => some .modinv
  | 0x05 => some .gcd
  | 0x06 => some .keygen
  | 0x07 => some .encrypt
  | 0x08 => some .decrypt
  | _ => none

/-- The decoder (30_encoding.md R91, R93). -/
def decode (w : Word) : Decoded :=
  if rsvdField w = 0 then
    match instrOfOpcode (opcodeField w) with
    | some i => .legal i
    | none => .illegal .unassignedOpcode
  else .illegal .reservedBits

/-- The word of each command (30_encoding.md R91). -/
def encode : Instr → Word
  | .isprime => 0x00000001#32
  | .sieve => 0x00000002#32
  | .modpow => 0x00000003#32
  | .modinv => 0x00000004#32
  | .gcd => 0x00000005#32
  | .keygen => 0x00000006#32
  | .encrypt => 0x00000007#32
  | .decrypt => 0x00000008#32

/-- What the decoder reads from a command whose bits are w, numbered as the opcode table numbers them. A command is always
one 32-bit word (30_encoding.md R90), written to CMD whole; bits the table does not give are 0, and bits above 31 are no
command. -/
def decodeTableWord (nbits w : Nat) : Option Instr :=
  if w % 2 ^ nbits < 2 ^ 32 then
    match decode (BitVec.ofNat 32 (w % 2 ^ nbits)) with
    | .legal i => some i
    | .illegal _ => none
  else none

end Sys2Proof
end

