-- ==== Sys2Proof/Machine/State.lean ====
section
/-! DEFINITION. The state of the machine as plain data (10_state.md), what a step can answer, and the state right after reset
(70_reset_and_hazards.md R251). INVENTORY.md, under State, lists every field with its rule and its reset value. -/

namespace Sys2Proof.Machine

/-- The error codes of STATUS.ERRCODE (60_exceptions.md R221). Codes 12 to 15 are never written (U9), so they are no value of
this type (log 23). -/
inductive ErrCode where
  | none | illegalCommand | domainError | noModularInverse | insufficientPrimes | emptyExponentRange | retryExhausted
  | malformedCiphertext | rangeExceeded | bufferOverflow | lengthRange | boundTooLarge
deriving DecidableEq, Repr

/-- The fields of CTRL (10_state.md R23). Its reserved bits read 0 and are not stored. -/
structure Ctrl where
  ie   : Bool
  rchk : Bool
deriving DecidableEq, Repr

/-- The stored fields of STATUS (10_state.md R24). BUSY is 1 exactly when phase ≠ IDLE (10_state.md R35), so it is computed
from phase (log 9); the reserved bits read 0 and are not stored. -/
structure Status where
  done    : Bool
  err     : Bool
  ovr     : Bool
  pvalid  : Bool
  errcode : ErrCode
deriving DecidableEq, Repr

/-- The engine's phase (10_state.md R35, 40_command_lifecycle.md R110). -/
inductive Phase where
  | idle
  | busy (op : Instr)
deriving DecidableEq, Repr

/-- The stages of KEYGEN (10_state.md R35, 44_keygen.md R172 to R176). -/
inductive Stage where
  | pickP | pickQ | pickE | finish
deriving DecidableEq, Repr

/-- The KEYGEN micro-state (10_state.md R35): the naturals p, q, n, m, the exponent e of 44_keygen.md R175, and the retry
counters rq and re. -/
structure Kg where
  stage : Stage
  p     : Nat
  q     : Nat
  n     : Nat
  m     : Nat
  e     : Nat
  rq    : Nat
  re    : Nat
deriving DecidableEq, Repr

/-- A buffer: the entries that have been written since reset, as (entry index, contents), indices strictly rising. An entry
that is not listed holds an unspecified value (70_reset_and_hazards.md R253, U5, U8), which no listed contents equals, so
equal buffers are equal data (logs 4, 8, 16). -/
abbrev Memory (w : Nat) := List (Nat × BitVec w)

/-- The canonical form: entry indices strictly rising. -/
abbrev Memory.wf {w : Nat} (m : Memory w) : Prop := List.Pairwise (fun x y => x.1 < y.1) m

/-- The mapped registers (10_state.md R20). -/
inductive Reg where
  | id | cap | ctrl | status | cmd | opa | opb | opc | r0 | r1 | r2 | pbound | pcount | mlen | clen
deriving DecidableEq, Repr

/-- What a bus address can reach (20_memory.md R62). -/
inductive Target where
  | reg (r : Reg)
  | pram (i : Nat)
  | mbuf (i : Nat)
  | cbuf (i : Nat)
deriving DecidableEq, Repr

/-- The direction of a bus access, with the word a write carries (20_memory.md R60). -/
inductive Dir where
  | read
  | write (v : Word)
deriving DecidableEq, Repr

/-- One host bus access: the byte address, the width in bytes and the direction (20_memory.md R60, R61). -/
structure Access where
  addr  : Nat
  bytes : Nat
  dir   : Dir
deriving DecidableEq, Repr

/-- The two bus responses (20_memory.md R60). -/
inductive RespCode where
  | okay | slverr
deriving DecidableEq, Repr

/-- What the block drives on the bus for an access: the response and, for a read, the data word (20_memory.md R60). -/
structure BusResp where
  code : RespCode
  data : Option Word
deriving DecidableEq, Repr

/-- Where a line of host assembly points: a register name, a buffer entry, or a numeric offset (30_encoding.md R95). -/
inductive HostTarget where
  | reg (r : Reg)
  | pram (i : Nat)
  | mbuf (i : Nat)
  | cbuf (i : Nat)
  | offset (o : Nat)
deriving DecidableEq, Repr

/-- A value in host assembly: a number, the code of a character, or a host variable (30_encoding.md R95; the programs of
95_test_vectors.md write variables as values, log 15). Host variables are numbered. -/
inductive HostValue where
  | num (n : Nat)
  | char (c : Char)
  | var (x : Nat)
deriving DecidableEq, Repr

/-- A line of host assembly (30_encoding.md R95). Labels and host variables are numbered (log 15). -/
inductive HostLine where
  /-- `WR <target>, <value>` -/
  | wr (t : HostTarget) (v : HostValue)
  /-- `RD <target> -> <name>` -/
  | rd (t : HostTarget) (x : Nat)
  /-- `CMD <MNEMONIC>` -/
  | cmd (i : Instr)
  /-- `CMD <value>` -/
  | cmdWord (v : HostValue)
  /-- `<label>:` -/
  | label (l : Nat)
  /-- `BNZ <name>, <mask>, <label>` -/
  | bnz (x : Nat) (mask : Word) (l : Nat)
  /-- `HALT` -/
  | halt
  /-- `RUN` -/
  | run
  /-- `; text` -/
  | comment
deriving DecidableEq, Repr

/-- Whose step comes next (00_scope.md R11, R15): the host follows its program by one line, the host makes any access, the
engine takes a step, or the environment drives the reset input to a level (log 1). -/
inductive Turn where
  | host
  | access (a : Access)
  | engine
  | rst (level : Bool)
deriving DecidableEq, Repr

/-- The machine. -/
structure State where
  cfg       : Config
  ctrl      : Ctrl
  status    : Status
  opa       : Word
  opb       : Word
  opc       : Word
  r0        : Word
  r1        : Word
  r2        : Word
  pbound    : Word
  pcount    : Word
  mlen      : Word
  clen      : Word
  pram      : Memory 16
  mbuf      : Memory 32
  cbuf      : Memory 8
  phase     : Phase
  kg        : Kg
  rst       : Bool
  resp      : Option BusResp
  sched     : List Turn
  prog      : List HostLine
  progPos   : Nat
  vars      : List (Nat × Word)
  entropy   : List Nat
  freeCount : Nat
  epoch     : Nat
deriving DecidableEq, Repr

/-- Why a step stops the machine. No command and no bus access does (60_exceptions.md R220): both faults are the HOST
program's, which the spec gives no meaning to (log 15). -/
inductive Fault where
  /-- Raised by a host line that uses a host variable nothing has set. Safe: the model stops where the spec says nothing. -/
  | hostNameUndefined (x : Nat)
  /-- Raised by a taken `BNZ` whose label the host program does not hold. Safe: the model stops where the spec says nothing. -/
  | hostLabelUndefined (l : Nat)
deriving DecidableEq, Repr

/-- Why a step gives no meaning. -/
inductive Refusal where
  /-- An instruction that has no meaning yet, by its mnemonic. Raised by no arm of exec: every command has its meaning. Safe. -/
  | notModelled (mnemonic : String)
deriving DecidableEq, Repr

/-- What a step answers. -/
abbrev Outcome := Host.Outcome State Fault Refusal

/-- The micro-state of KEYGEN at reset. The spec leaves it unspecified and never reads it (10_state.md R35, U7).
DESIGN CHOICE (log 7): PICK_P and zeros. -/
def Kg.initial : Kg := { stage := .pickP, p := 0, q := 0, n := 0, m := 0, e := 0, rq := 0, re := 0 }

/-- The reset state of a block with the parameters c (70_reset_and_hazards.md R251, R253). The model's own fields (resp, sched,
prog, progPos, vars, entropy, freeCount, epoch) are DESIGN CHOICES (logs 18, 19). -/
def State.resetWith (c : Config) : State where
  cfg := c
  ctrl := { ie := false, rchk := false }
  status := { done := false, err := false, ovr := false, pvalid := false, errcode := .none }
  opa := 0
  opb := 0
  opc := 0
  r0 := 0
  r1 := 0
  r2 := 0
  pbound := 0
  pcount := 0
  mlen := 0
  clen := 0
  pram := []
  mbuf := []
  cbuf := []
  phase := .idle
  kg := .initial
  rst := false
  resp := none
  sched := []
  prog := []
  progPos := 0
  vars := []
  entropy := []
  freeCount := 0
  epoch := 0

/-- The machine right after reset, with the reference parameters (00_scope.md R6, log 3). -/
def State.reset : State := State.resetWith Config.reference

end Sys2Proof.Machine
end

