-- ==== Sys2Proof/Machine/Flags.lean ====
section
/-! DEFINITION. CTRL and STATUS as words (10_state.md R23, R24), the irq line (R36), and the W1C write of STATUS. There are no
other flags (10_state.md R37). -/

namespace Sys2Proof.Machine

/-- The numbers of the codes (60_exceptions.md R221). -/
def ErrCode.code : ErrCode → BitVec 4
  | .none => 0
  | .illegalCommand => 1
  | .domainError => 2
  | .noModularInverse => 3
  | .insufficientPrimes => 4
  | .emptyExponentRange => 5
  | .retryExhausted => 6
  | .malformedCiphertext => 7
  | .rangeExceeded => 8
  | .bufferOverflow => 9
  | .lengthRange => 10
  | .boundTooLarge => 11

/-- One bit as a number. -/
def bit (b : Bool) : Nat := if b then 1 else 0

/-- CTRL as it reads: IE in bit 0, RCHK in bit 1, the rest 0 (10_state.md R23). -/
def Ctrl.word (c : Ctrl) : Word := BitVec.ofNat 32 (bit c.ie + 2 * bit c.rchk)

/-- What a write of v leaves in CTRL: reserved bits are ignored (10_state.md R23). -/
def Ctrl.ofWord (v : Word) : Ctrl := { ie := v.getLsbD 0, rchk := v.getLsbD 1 }

/-- STATUS.BUSY = 1 exactly when phase ≠ IDLE (10_state.md R35). -/
def State.busy (s : State) : Bool :=
  match s.phase with
  | .idle => false
  | .busy _ => true

/-- STATUS as it reads: BUSY 0, DONE 1, ERR 2, OVR 3, PVALID 4, ERRCODE 11:8, the rest 0 (10_state.md R24). -/
def State.statusWord (s : State) : Word :=
  BitVec.ofNat 32 (bit s.busy + 2 * bit s.status.done + 4 * bit s.status.err + 8 * bit s.status.ovr
    + 16 * bit s.status.pvalid + 256 * s.status.errcode.code.toNat)

/-- CAP as it reads: MDEPTH in 15:0, the rest 0 (10_state.md R22). -/
def State.capWord (s : State) : Word := (BitVec.ofNat 16 s.cfg.mbufDepth).setWidth 32

/-- `irq = CTRL.IE ∧ STATUS.DONE` at all times (10_state.md R36, 60_exceptions.md R237). -/
def State.irq (s : State) : Bool := s.ctrl.ie && s.status.done

/-- A write of v to STATUS acts only through its bits 1, 2 and 3, which are W1C; bit 2 also sets ERRCODE to 0
(10_state.md R24). -/
def Status.w1c (t : Status) (v : Word) : Status :=
  { t with
    done := t.done && !v.getLsbD 1
    err := t.err && !v.getLsbD 2
    ovr := t.ovr && !v.getLsbD 3
    errcode := if v.getLsbD 2 then .none else t.errcode }

end Sys2Proof.Machine
end

