-- ==== Sys2Proof/Machine/Operands.lean ====
section
/-! DEFINITION. The operands of the commands. Every one comes from a fixed register or buffer and is read as an unsigned value
with no extension, scaling or shift (30_encoding.md R92). They are read at the engine step, which sees the state at
acceptance (40_command_lifecycle.md R118; log 13). -/

namespace Sys2Proof.Machine

/-- The contents listed for entry i, if any. -/
def Memory.get {w : Nat} : Memory w → Nat → Option (BitVec w)
  | [], _ => none
  | (a, v) :: m, i => if a = i then some v else Memory.get m i

/-- PRAM[i], the cell (10_state.md R32). A cell no SIEVE has written holds a free value (U8, log 8). -/
def State.pramAt (s : State) (i : Nat) : Half := (Memory.get s.pram i).getD (Config.freePram s.epoch i)

/-- MBUF[i] (20_memory.md R65). An entry not written since reset holds a free value (20_memory.md R72, log 4). -/
def State.mbufAt (s : State) (i : Nat) : Word := (Memory.get s.mbuf i).getD (Config.freeMbuf s.epoch i)

/-- CBUF[i] (20_memory.md R67). An entry not written since reset holds a free value (20_memory.md R72, log 4). -/
def State.cbufAt (s : State) (i : Nat) : Byte := (Memory.get s.cbuf i).getD (Config.freeCbuf s.epoch i)

/-- The PrimeSet PRAM[0, PCOUNT) as numbers (10_state.md R32, 44_keygen.md R170). -/
def State.primeSet (s : State) : List Nat := (List.range s.pcount.toNat).map fun i => (s.pramAt i).toNat

/-- The code points MBUF[0, k) (45_block_codec.md R193). -/
def State.codePoints (s : State) (k : Nat) : List Nat := (List.range k).map fun i => (s.mbufAt i).toNat

/-- The characters CBUF[0, l) (45_block_codec.md R195). -/
def State.characters (s : State) (l : Nat) : List Byte := (List.range l).map s.cbufAt

/-- OPA as a number (30_encoding.md R92). -/
def State.operandA (s : State) : Nat := s.opa.toNat

/-- OPB as a number (30_encoding.md R92). -/
def State.operandB (s : State) : Nat := s.opb.toNat

/-- OPC as a number (30_encoding.md R92). -/
def State.operandC (s : State) : Nat := s.opc.toNat

/-- The answer the entropy source gives to the next draw, before it is brought into the draw's range: the head of the list in
State, or a free value where the list is empty (44_keygen.md R171, log 6). -/
def State.answer (s : State) : Nat :=
  match s.entropy with
  | d :: _ => d
  | [] => Config.freeDraw s.freeCount

/-- `draw_index(k)`, a natural in [0, k) (00_scope.md R14, 44_keygen.md R171). -/
def State.drawIndex (s : State) (k : Nat) : Nat := s.answer % k

/-- `draw_range(lo, hi)`, a natural in [lo, hi] (00_scope.md R14, 44_keygen.md R171). -/
def State.drawRange (s : State) (lo hi : Nat) : Nat := lo + s.answer % (hi + 1 - lo)

end Sys2Proof.Machine
end

