-- ==== Sys2Proof/Machine/Ops.lean ====
section
/-! DEFINITION. The shared operations: writing a buffer, the life of a command (40_command_lifecycle.md R111 to R116), reset
(70_reset_and_hazards.md R250 to R253), and taking a draw (44_keygen.md R171). -/

namespace Sys2Proof.Machine

/-- Entry i becomes v; the rest is unchanged. -/
def Memory.set {w : Nat} : Memory w → Nat → BitVec w → Memory w
  | [], i, v => [(i, v)]
  | (a, x) :: m, i, v =>
    if i < a then (i, v) :: (a, x) :: m
    else if i = a then (i, v) :: m
    else (a, x) :: Memory.set m i v

/-- The values vs as entries i, i + 1, and so on. -/
def cellsFrom {w : Nat} : Nat → List (BitVec w) → Memory w
  | _, [] => []
  | i, v :: vs => (i, v) :: cellsFrom (i + 1) vs

/-- Entries [0, len vs) become vs; the rest is unchanged. A command's write to its output buffer
(42_sieve.md R140, 45_block_codec.md R193, R195). -/
def Memory.fill {w : Nat} (m : Memory w) (vs : List (BitVec w)) : Memory w :=
  cellsFrom 0 vs ++ m.filter fun c => vs.length ≤ c.1

/-- Acceptance of command i (40_command_lifecycle.md R111). -/
def State.accept (s : State) (i : Instr) : State :=
  { s with
    phase := .busy i
    status := { s.status with done := false, err := false, errcode := .none }
    kg := if i = .keygen then { s.kg with stage := .pickP, rq := 0, re := 0 } else s.kg }

/-- The end of every successful completion, `complete()` (40_command_lifecycle.md R113). The command's own writes are made
in the same step. -/
def State.complete (s : State) : State :=
  { s with
    phase := .idle
    status := { s.status with done := true, err := false, errcode := .none } }

/-- `raise Error(code)`: an error completion (40_command_lifecycle.md R114). Nothing else is written: this is all there is to
error entry (60_exceptions.md R220, R234). -/
def State.raise (s : State) (code : ErrCode) : State :=
  { s with
    phase := .idle
    status := { s.status with done := true, err := true, errcode := code } }

/-- Rejection of an illegal word while IDLE (40_command_lifecycle.md R115, 60_exceptions.md R222): phase stays IDLE. -/
def State.reject (s : State) : State :=
  { s with status := { s.status with done := true, err := true, errcode := .illegalCommand } }

/-- Acknowledging an error, which is all there is to error return: a STATUS write (60_exceptions.md R235, 10_state.md R24). -/
def State.acknowledge (s : State) (v : Word) : State := { s with status := s.status.w1c v }

/-- A write dropped because BUSY = 1 (40_command_lifecycle.md R116). -/
def State.drop (s : State) : State := { s with status := { s.status with ovr := true } }

/-- A command request: a write of w to CMD (10_state.md R25, 40_command_lifecycle.md R111, R115, R116). -/
def State.request (s : State) (w : Word) : State :=
  match s.phase with
  | .busy _ => s.drop
  | .idle =>
    match decode w with
    | .legal i => s.accept i
    | .illegal _ => s.reject

/-- A draw has been made: its answer is used up (44_keygen.md R171, log 6). -/
def State.drawn (s : State) : State :=
  match s.entropy with
  | _ :: ds => { s with entropy := ds }
  | [] => { s with freeCount := s.freeCount + 1 }

/-- An edge of the reset input: every register takes its reset value, a running command is abandoned, and MBUF and CBUF hold
unspecified values afresh (70_reset_and_hazards.md R250 to R253). The block's parameters and what lies outside the block stay
(logs 4, 10). The bus answer the host already has is no register and stays. -/
def State.resetEdge (s : State) (level : Bool) : State :=
  { State.resetWith s.cfg with
    rst := level
    resp := s.resp
    sched := s.sched
    prog := s.prog
    progPos := s.progPos
    vars := s.vars
    entropy := s.entropy
    freeCount := s.freeCount
    epoch := s.epoch + 1 }

end Sys2Proof.Machine
end

