-- ==== Sys2Proof/Machine/Bus.lean ====
section
/-! DEFINITION. The host bus: the address map and what a read or a write does at each place (20_memory.md R60 to R72,
10_state.md R20 to R34, 40_command_lifecycle.md R116, R117). -/

namespace Sys2Proof.Machine

/-- The register at a mapped offset (10_state.md R20). -/
def regAt (o : Nat) : Option Reg :=
  match o with
  | 0x00 => some .id
  | 0x04 => some .cap
  | 0x08 => some .ctrl
  | 0x0C => some .status
  | 0x10 => some .cmd
  | 0x14 => some .opa
  | 0x18 => some .opb
  | 0x1C => some .opc
  | 0x20 => some .r0
  | 0x24 => some .r1
  | 0x28 => some .r2
  | 0x2C => some .pbound
  | 0x30 => some .pcount
  | 0x34 => some .mlen
  | 0x38 => some .clen
  | _ => none

/-- What an aligned offset reaches, or none where the access answers SLVERR: offsets not mapped and window entries beyond the
depth (20_memory.md R62 to R67). -/
def targetAt (c : Config) (o : Nat) : Option Target :=
  if o < 0x10000 then (regAt o).map .reg
  else if o < 0x20000 then
    if (o - 0x10000) / 4 < psetDepth then some (.pram ((o - 0x10000) / 4)) else none
  else if o < 0x30000 then
    if (o - 0x20000) / 4 < c.mbufDepth then some (.mbuf ((o - 0x20000) / 4)) else none
  else if o < windowBytes then
    if (o - 0x30000) / 4 < c.cbufDepth then some (.cbuf ((o - 0x30000) / 4)) else none
  else none

/-- The byte offset from BASE, or none where the address lies outside the block's window (20_memory.md R60). -/
def offsetOf (c : Config) (addr : Nat) : Option Nat :=
  if c.base ≤ addr ∧ addr < c.base + windowBytes then some (addr - c.base) else none

/-- What a register reads as (10_state.md R20 to R31). -/
def State.readReg (s : State) : Reg → Word
  | .id => idValue
  | .cap => s.capWord
  | .ctrl => s.ctrl.word
  | .status => s.statusWord
  | .cmd => 0
  | .opa => s.opa
  | .opb => s.opb
  | .opc => s.opc
  | .r0 => s.r0
  | .r1 => s.r1
  | .r2 => s.r2
  | .pbound => s.pbound
  | .pcount => s.pcount
  | .mlen => s.mlen
  | .clen => s.clen

/-- The contents of a target, as a read returns them outside the case of 40_command_lifecycle.md R117 (20_memory.md R64, R65,
R67; 10_state.md R32). -/
def State.contents (s : State) : Target → Word
  | .reg r => s.readReg r
  | .pram i => if i < s.pcount.toNat then (s.pramAt i).setWidth 32 else 0
  | .mbuf i => s.mbufAt i
  | .cbuf i => (s.cbufAt i).setWidth 32

/-- A read of the output buffer of the running command (40_command_lifecycle.md R117). -/
def readUnspecified (p : Phase) (t : Target) : Bool :=
  match p, t with
  | .busy .sieve, .pram _ => true
  | .busy .encrypt, .cbuf _ => true
  | .busy .decrypt, .mbuf _ => true
  | _, _ => false

/-- A read of a target that exists: OKAY, its contents or an unspecified word, and no side effect on the block
(20_memory.md R69, 40_command_lifecycle.md R117, log 5). -/
def State.readTarget (s : State) (t : Target) : State :=
  if readUnspecified s.phase t then
    { s with resp := some ⟨.okay, some (Config.freeRead s.freeCount)⟩, freeCount := s.freeCount + 1 }
  else { s with resp := some ⟨.okay, some (s.contents t)⟩ }

/-- The state after `store` of a write that BUSY = 1 drops (40_command_lifecycle.md R116). -/
def State.unlessBusy (s : State) (store : State) : State := if s.busy then s.drop else store

/-- A write of v to a register (10_state.md R20 to R31, 40_command_lifecycle.md R116, 20_memory.md R63). -/
def State.writeReg (s : State) (r : Reg) (v : Word) : State :=
  match r with
  | .id => s
  | .cap => s
  | .ctrl => s.unlessBusy { s with ctrl := Ctrl.ofWord v }
  | .status => s.acknowledge v
  | .cmd => s.request v
  | .opa => s.unlessBusy { s with opa := v }
  | .opb => s.unlessBusy { s with opb := v }
  | .opc => s.unlessBusy { s with opc := v }
  | .r0 => s
  | .r1 => s
  | .r2 => s
  | .pbound => s
  | .pcount => s
  | .mlen => s.unlessBusy { s with mlen := v }
  | .clen => s.unlessBusy { s with clen := v }

/-- A write of v to a target that exists (20_memory.md R63 to R67). -/
def State.writeTarget (s : State) (t : Target) (v : Word) : State :=
  match t with
  | .reg r => s.writeReg r v
  | .pram _ => s
  | .mbuf i => s.unlessBusy { s with mbuf := s.mbuf.set i v }
  | .cbuf i => s.unlessBusy { s with cbuf := s.cbuf.set i (v.setWidth 8) }

/-- The response SLVERR: no effect, and read data 0 (20_memory.md R61). A write's response has no data word (R60). -/
def slverr : Dir → BusResp
  | .read => ⟨.slverr, some 0⟩
  | .write _ => ⟨.slverr, none⟩

/-- An access at an offset of the block's window: SLVERR while `rst` is asserted (70_reset_and_hazards.md R250), for a
misaligned offset, for a width other than 32 bits (20_memory.md R61), and where nothing is mapped (R62 to R67). -/
def State.accessAt (s : State) (o bytes : Nat) (d : Dir) : State :=
  if s.rst || bytes != 4 || o % 4 != 0 then { s with resp := some (slverr d) }
  else
    match targetAt s.cfg o with
    | none => { s with resp := some (slverr d) }
    | some t =>
      match d with
      | .read => s.readTarget t
      | .write v => { s.writeTarget t v with resp := some ⟨.okay, none⟩ }

/-- A host bus access (20_memory.md R60). An address outside the window is not the block's: it answers nothing (log 11). -/
def State.access (s : State) (a : Access) : State :=
  match offsetOf s.cfg a.addr with
  | none => { s with resp := none }
  | some o => s.accessAt o a.bytes a.dir

end Sys2Proof.Machine
end

