-- ==== Sys2Proof/Machine/Arith.lean ====
section
/-! DEFINITION. The functions on naturals that the commands compute: trial division and the sieve (41_primality.md R130,
42_sieve.md R141), modular power, inverse and gcd (43_modular_arithmetic.md R151, R154, R157), and the block format
(45_block_codec.md R190 to R192). Every loop of the spec is a structural recursion on a first argument, its fuel, started at a
value the loop cannot outrun (Laws/Arith.lean). -/

namespace Sys2Proof.Machine

/-- The loop of isqrt, two bits of n a turn. -/
def isqrtLoop : Nat → Nat → Nat
  | 0, _ => 0
  | fuel + 1, n =>
    if n = 0 then 0
    else
      let r := 2 * isqrtLoop fuel (n / 4)
      if (r + 1) * (r + 1) ≤ n then r + 1 else r

/-- `isqrt(n)`, the greatest s with s·s ≤ n (00_scope.md R13). -/
def isqrt (n : Nat) : Nat := isqrtLoop n n

/-- The loop "for x in 3, 5, 7, ... while x < isqrt(n) + 1", with r = isqrt(n) (41_primality.md R130). -/
def trialLoop (n r : Nat) : Nat → Nat → Bool
  | 0, _ => true
  | fuel + 1, x =>
    if x < r + 1 then
      if n % x = 0 then false else trialLoop n r fuel (x + 2)
    else true

/-- `IsPrimeTD` (41_primality.md R130). -/
def isPrimeTD (n : Nat) : Bool :=
  if n < 2 then false
  else if n = 2 then true
  else if n % 2 = 0 then false
  else trialLoop n (isqrt n) (isqrt n) 3

/-- `Sieve(b)`: the x in 2, 3, ..., b with IsPrimeTD(x), ascending (42_sieve.md R141). -/
def sieve (b : Nat) : List Nat := (List.range' 2 (b - 1)).filter isPrimeTD

/-- The loop of ModPow (43_modular_arithmetic.md R151). -/
def modPowLoop (m : Nat) : Nat → Nat → Nat → Nat → Nat
  | 0, acc, _, _ => acc
  | fuel + 1, acc, base, e =>
    if 0 < e then
      modPowLoop m fuel (if e % 2 = 1 then acc * base % m else acc) (base * base % m) (e / 2)
    else acc

/-- `ModPow(a, k, m)`, for m ≥ 1 (43_modular_arithmetic.md R151). -/
def modPow (a k m : Nat) : Nat := modPowLoop m k (1 % m) (a % m) k

/-- The loop of ModInv: the final (r0, s0) (43_modular_arithmetic.md R154). -/
def euclidLoop : Nat → Nat → Nat → Int → Int → Nat × Int
  | 0, r0, _, s0, _ => (r0, s0)
  | fuel + 1, r0, r1, s0, s1 =>
    if r1 = 0 then (r0, s0)
    else euclidLoop fuel r1 (r0 - r0 / r1 * r1) s1 (s0 - (r0 / r1 : Nat) * s1)

/-- `ModInv(a, m)`, for m ≥ 1; `none` is NONE (43_modular_arithmetic.md R154). -/
def modInv (a m : Nat) : Option Nat :=
  if m = 1 then some 0
  else
    let final := euclidLoop m a m 1 0
    if modPow final.1 1 m ≠ 1 then none else some (final.2 % (m : Int)).toNat

/-- The loop of Gcd (43_modular_arithmetic.md R157). -/
def gcdLoop : Nat → Nat → Nat → Nat
  | 0, a, _ => a
  | fuel + 1, a, b => if b = 0 then a else gcdLoop fuel b (a % b)

/-- `Gcd(a, b)` (43_modular_arithmetic.md R157). -/
def gcdNat (a b : Nat) : Nat := gcdLoop b a b

/-- The character of a decimal digit (45_block_codec.md R190). -/
def digitChar (d : Nat) : Byte := BitVec.ofNat 8 (0x30 + d)

/-- A character is a decimal digit when 0x30 ≤ c ≤ 0x39 (45_block_codec.md R190). -/
def isDigit (c : Byte) : Bool := 0x30 ≤ c.toNat && c.toNat ≤ 0x39

/-- The value of a digit character (45_block_codec.md R190). -/
def digitValue (c : Byte) : Nat := c.toNat - 0x30

/-- The loop of `decimal`: the digits of v, most significant first, before the characters already made. -/
def decimalLoop : Nat → Nat → List Byte → List Byte
  | 0, v, acc => digitChar v :: acc
  | fuel + 1, v, acc =>
    if v < 10 then digitChar v :: acc else decimalLoop fuel (v / 10) (digitChar (v % 10) :: acc)

/-- `decimal(v)`, with decimal(0) = "0" (45_block_codec.md R191). -/
def decimal (v : Nat) : List Byte := decimalLoop v v []

/-- `Fmt(v)`: the decimal digits left-padded with '0' to at least 5 (45_block_codec.md R191). -/
def fmt (v : Nat) : List Byte := List.replicate (5 - (decimal v).length) 0x30#8 ++ decimal v

/-- `Parse5`, for five digit characters (45_block_codec.md R192). -/
def parse5 (c0 c1 c2 c3 c4 : Byte) : Nat :=
  digitValue c0 * 10000 + digitValue c1 * 1000 + digitValue c2 * 100 + digitValue c3 * 10 + digitValue c4

end Sys2Proof.Machine
end

