-- ==== Sys2Proof/Machine/Codec.lean ====
section
/-! DEFINITION. ENCRYPT and DECRYPT (45_block_codec.md). Every check comes before every write. -/

namespace Sys2Proof.Machine

/-- Whether `RangeCheck(n, k)` raises RANGE_EXCEEDED for these code points (45_block_codec.md R194). -/
def rangeExceeded (n : Nat) (codes : List Nat) : Bool := 100000 ≤ n || codes.any fun c => n ≤ c

/-- The ciphertext of a message: one block for each code point, in order (45_block_codec.md R193). -/
def cipher (codes : List Nat) (e n : Nat) : List Byte := codes.flatMap fun c => fmt (modPow c e n)

/-- ENCRYPT (45_block_codec.md R193, R194, R197). -/
def execEncrypt (s : State) : Outcome :=
  let k := s.mlen.toNat
  if s.cfg.mbufDepth < k then .next (s.raise .lengthRange)
  else if k = 0 then .next { s with clen := 0 }.complete
  else if s.operandB = 0 then .next (s.raise .domainError)
  else if s.ctrl.rchk && rangeExceeded s.operandB (s.codePoints k) then .next (s.raise .rangeExceeded)
  else
    let out := cipher (s.codePoints k) s.operandA s.operandB
    if s.cfg.cbufDepth < out.length then .next (s.raise .bufferOverflow)
    else .next { s with cbuf := s.cbuf.fill out, clen := BitVec.ofNat 32 out.length }.complete

/-- The block value of window t, CBUF[5t] to CBUF[5t + 4] (45_block_codec.md R192, R195). -/
def State.blockValue (s : State) (t : Nat) : Nat :=
  parse5 (s.cbufAt (5 * t)) (s.cbufAt (5 * t + 1)) (s.cbufAt (5 * t + 2)) (s.cbufAt (5 * t + 3)) (s.cbufAt (5 * t + 4))

/-- DECRYPT (45_block_codec.md R195, R197). -/
def execDecrypt (s : State) : Outcome :=
  let l := s.clen.toNat
  if s.cfg.cbufDepth < l then .next (s.raise .lengthRange)
  else if l = 0 then .next { s with mlen := 0 }.complete
  else if l % 5 ≠ 0 then .next (s.raise .malformedCiphertext)
  else if !(s.characters l).all isDigit then .next (s.raise .malformedCiphertext)
  else if s.operandB = 0 then .next (s.raise .domainError)
  else if s.cfg.mbufDepth < l / 5 then .next (s.raise .bufferOverflow)
  else
    let out := (List.range (l / 5)).map fun t => BitVec.ofNat 32 (modPow (s.blockValue t) s.operandA s.operandB)
    .next { s with mbuf := s.mbuf.fill out, mlen := BitVec.ofNat 32 (l / 5) }.complete

end Sys2Proof.Machine
end

