-- ==== Sys2Proof/Machine/Keygen.lean ====
section
/-! DEFINITION. KEYGEN (44_keygen.md): one engine step a draw. A step that raises an error writes nothing of the micro-state
(00_scope.md R14), but the draw it made is used up (log 14). -/

namespace Sys2Proof.Machine

/-- RETRY_LIMIT ≠ INF and the counter has reached it (44_keygen.md R173, R175). -/
def State.retriesUsed (s : State) (counter : Nat) : Bool :=
  match s.cfg.retryLimit with
  | none => false
  | some l => counter == l

/-- Stage PICK_P (44_keygen.md R172). -/
def keygenPickP (s : State) : Outcome :=
  if s.pcount.toNat < 2 then .next (s.raise .insufficientPrimes)
  else
    let p := (s.pramAt (s.drawIndex s.pcount.toNat)).toNat
    .next { s.drawn with kg := { s.kg with p := p, stage := .pickQ } }

/-- Stage PICK_Q (44_keygen.md R173, R174). -/
def keygenPickQ (s : State) : Outcome :=
  let q := (s.pramAt (s.drawIndex s.pcount.toNat)).toNat
  if q = s.kg.p then
    if s.retriesUsed s.kg.rq then .next (s.drawn.raise .retryExhausted)
    else .next { s.drawn with kg := { s.kg with rq := s.kg.rq + 1 } }
  else
    let m := (s.kg.p - 1) * (q - 1)
    if m < 3 then .next (s.drawn.raise .emptyExponentRange)
    else .next { s.drawn with kg := { s.kg with q := q, n := s.kg.p * q, m := m, stage := .pickE } }

/-- Stage PICK_E (44_keygen.md R175). -/
def keygenPickE (s : State) : Outcome :=
  let c := s.drawRange 2 (s.kg.m - 1)
  if gcdNat c s.kg.m ≠ 1 then
    if s.retriesUsed s.kg.re then .next (s.drawn.raise .retryExhausted)
    else .next { s.drawn with kg := { s.kg with re := s.kg.re + 1 } }
  else .next { s.drawn with kg := { s.kg with e := c, stage := .finish } }

/-- Stage FINISH (44_keygen.md R176). -/
def keygenFinish (s : State) : Outcome :=
  match modInv s.kg.e s.kg.m with
  | none => .next (s.raise .noModularInverse)
  | some x =>
    .next
      { s with
        r0 := BitVec.ofNat 32 s.kg.e
        r1 := BitVec.ofNat 32 x
        r2 := BitVec.ofNat 32 s.kg.n }.complete

/-- KEYGEN: the step of the current stage (44_keygen.md R170, 40_command_lifecycle.md R112). -/
def execKeygen (s : State) : Outcome :=
  match s.kg.stage with
  | .pickP => keygenPickP s
  | .pickQ => keygenPickQ s
  | .pickE => keygenPickE s
  | .finish => keygenFinish s

end Sys2Proof.Machine
end

