-- ==== Sys2Proof/Machine/ModArith.lean ====
section
/-! DEFINITION. MODPOW, MODINV and GCD (43_modular_arithmetic.md). -/

namespace Sys2Proof.Machine

/-- MODPOW: R0 becomes OPA to the power OPB modulo OPC (43_modular_arithmetic.md R152). -/
def execModpow (s : State) : Outcome :=
  if s.operandC = 0 then .next (s.raise .domainError)
  else .next { s with r0 := BitVec.ofNat 32 (modPow s.operandA s.operandB s.operandC) }.complete

/-- MODINV: R0 becomes the inverse of OPA modulo OPB (43_modular_arithmetic.md R155). -/
def execModinv (s : State) : Outcome :=
  if s.operandB = 0 then .next (s.raise .domainError)
  else
    match modInv s.operandA s.operandB with
    | none => .next (s.raise .noModularInverse)
    | some x => .next { s with r0 := BitVec.ofNat 32 x }.complete

/-- GCD: R0 becomes the greatest common divisor of OPA and OPB (43_modular_arithmetic.md R158). -/
def execGcd (s : State) : Outcome :=
  .next { s with r0 := BitVec.ofNat 32 (gcdNat s.operandA s.operandB) }.complete

end Sys2Proof.Machine
end

