-- ==== Sys2Proof/Machine/Primality.lean ====
section
/-! DEFINITION. ISPRIME (41_primality.md). -/

namespace Sys2Proof.Machine

/-- ISPRIME: R0 becomes 1 if OPA is prime, else 0 (41_primality.md R131). -/
def execIsprime (s : State) : Outcome :=
  .next { s with r0 := if isPrimeTD s.operandA then 1 else 0 }.complete

end Sys2Proof.Machine
end

