-- ==== Sys2Proof/Machine/Sieve.lean ====
section
/-! DEFINITION. SIEVE (42_sieve.md). -/

namespace Sys2Proof.Machine

/-- SIEVE: build the PrimeSet for the bound in OPA (42_sieve.md R140). -/
def execSieve (s : State) : Outcome :=
  if boundMax < s.operandA then .next (s.raise .boundTooLarge)
  else
    let l := sieve s.operandA
    .next
      { s with
        pram := s.pram.fill (l.map (BitVec.ofNat 16))
        pcount := BitVec.ofNat 32 l.length
        pbound := s.opa
        status := { s.status with pvalid := true } }.complete

end Sys2Proof.Machine
end

