-- ==== Sys2Proof/Machine/HostProgram.lean ====
section
/-! DEFINITION. The engine's turn (40_command_lifecycle.md R110, R112) and the host agent that follows a program in the host
assembly of 30_encoding.md R95, with the pseudo-instructions of R96. -/

namespace Sys2Proof.Machine

/-- The engine's turn: in BUSY(op) the step of op, in IDLE none; none while `rst` is asserted (40_command_lifecycle.md R110,
R112; 70_reset_and_hazards.md R250). The step of every op but KEYGEN is its completion, as R112 says. The latency that
00_scope.md R6 and R10 leave OPEN is not counted here. DESIGN CHOICE (log 27): it is only the turns the schedule gives to others
before this one. -/
def engineTurn (s : State) : Outcome :=
  match s.rst, s.phase with
  | false, .busy i => exec i s
  | false, .idle => .next s
  | true, _ => .next s

/-- The offset of a register (10_state.md R20). -/
def Reg.offset : Reg → Nat
  | .id => 0x00
  | .cap => 0x04
  | .ctrl => 0x08
  | .status => 0x0C
  | .cmd => 0x10
  | .opa => 0x14
  | .opb => 0x18
  | .opc => 0x1C
  | .r0 => 0x20
  | .r1 => 0x24
  | .r2 => 0x28
  | .pbound => 0x2C
  | .pcount => 0x30
  | .mlen => 0x34
  | .clen => 0x38

/-- `offset(target)` (30_encoding.md R95). -/
def HostTarget.toOffset : HostTarget → Nat
  | .reg r => r.offset
  | .pram i => 0x10000 + 4 * i
  | .mbuf i => 0x20000 + 4 * i
  | .cbuf i => 0x30000 + 4 * i
  | .offset o => o

/-- The host variable x, if anything has set it. -/
def hostVar : List (Nat × Word) → Nat → Option Word
  | [], _ => none
  | (y, v) :: vs, x => if y = x then some v else hostVar vs x

/-- `x <- v`: the variables in rising order of their numbers. -/
def setHostVar : List (Nat × Word) → Nat → Word → List (Nat × Word)
  | [], x, v => [(x, v)]
  | (y, u) :: vs, x, v =>
    if x < y then (x, v) :: (y, u) :: vs
    else if x = y then (x, v) :: vs
    else (y, u) :: setHostVar vs x v

/-- A value in host assembly as a word (30_encoding.md R95), or the number of the host variable nothing has set (log 15).
R95 gives the code of a printable ASCII character only. DESIGN CHOICE (log 25): any other character stands for its Unicode code
point, here and in `LOADCIPH`, and a number of more than 32 bits for its low 32. -/
def State.hostValue (s : State) : HostValue → Except Nat Word
  | .num n => .ok (BitVec.ofNat 32 n)
  | .char c => .ok (BitVec.ofNat 32 c.toNat)
  | .var x =>
    match hostVar s.vars x with
    | some v => .ok v
    | none => .error x

/-- The position just after the line `l:`, if the program holds it. The spec gives no target for a label that a program holds
twice, as two `WAIT`s with the literal label of 30_encoding.md R96 would. DESIGN CHOICE (log 24): the first one counts. -/
def labelPos (l : Nat) : Nat → List HostLine → Option Nat
  | _, [] => none
  | i, line :: rest => if line = .label l then some (i + 1) else labelPos l (i + 1) rest

/-- The host goes on to its next line. -/
def State.nextLine (s : State) : State := { s with progPos := s.progPos + 1 }

/-- `MemWrite(o, 4, v)` (00_scope.md R14). -/
def State.memWrite (s : State) (o : Nat) (v : Word) : State := s.access ⟨s.cfg.base + o, 4, .write v⟩

/-- `MemRead(o, 4)` (00_scope.md R14): the answer is the bus response. -/
def State.memRead (s : State) (o : Nat) : State := s.access ⟨s.cfg.base + o, 4, .read⟩

/-- The data word of the last bus response: what `name <- MemRead(...)` stores. A read outside the window has none, and then
the variable keeps its value (log 11). -/
def State.storeRead (s : State) (x : Nat) : State :=
  match s.resp with
  | some ⟨_, some v⟩ => { s with vars := setHostVar s.vars x v }
  | some ⟨_, none⟩ => s
  | none => s

/-- A write of a host value to an offset, and on to the next line (30_encoding.md R95). -/
def hostWrite (s : State) (o : Nat) (v : HostValue) : Outcome :=
  match s.hostValue v with
  | .ok w => .next (s.memWrite o w).nextLine
  | .error x => .fault (.hostNameUndefined x)

/-- One line of host assembly (30_encoding.md R95). `RUN` is the schedule marker: the engine takes a step while a command
runs, and the host goes on when none does (log 15). -/
def hostLine (line : HostLine) (s : State) : Outcome :=
  match line with
  | .wr t v => hostWrite s t.toOffset v
  | .rd t x => .next ((s.memRead t.toOffset).storeRead x).nextLine
  | .cmd i => .next (s.memWrite Reg.cmd.offset (encode i)).nextLine
  | .cmdWord v => hostWrite s Reg.cmd.offset v
  | .label _ => .next s.nextLine
  | .bnz x mask l =>
    match hostVar s.vars x with
    | none => .fault (.hostNameUndefined x)
    | some v =>
      if v &&& mask ≠ 0 then
        match labelPos l 0 s.prog with
        | some pos => .next { s with progPos := pos }
        | none => .fault (.hostLabelUndefined l)
      else .next s.nextLine
  | .halt => .next { s with progPos := s.prog.length }
  | .run =>
    match s.phase with
    | .busy _ => engineTurn s
    | .idle => .next s.nextLine
  | .comment => .next s.nextLine

/-- The host's turn: the next line of its program, or nothing when the program has no further line. -/
def hostTurn (s : State) : Outcome :=
  match s.prog[s.progPos]? with
  | some line => hostLine line s
  | none => .next s

/-- Where the host goes in IDLE from the line at `pos`, if that line makes no bus access (30_encoding.md R95: `BNZ`, `HALT`,
`RUN`, labels and comments make none). A `BNZ` that would stop the host has no such place (log 26). -/
def quietNext (prog : List HostLine) (vars : List (Nat × Word)) (pos : Nat) (line : HostLine) : Option Nat :=
  match line with
  | .wr _ _ => none
  | .rd _ _ => none
  | .cmd _ => none
  | .cmdWord _ => none
  | .label _ => some (pos + 1)
  | .bnz x mask l =>
    match hostVar vars x with
    | none => none
    | some v => if v &&& mask ≠ 0 then labelPos l 0 prog else some (pos + 1)
  | .halt => some prog.length
  | .run => some (pos + 1)
  | .comment => some (pos + 1)

/-- None of the next n lines the host follows in IDLE makes a bus access (40_command_lifecycle.md R121; log 26). -/
def quietAhead (prog : List HostLine) (vars : List (Nat × Word)) : Nat → Nat → Bool
  | 0, _ => true
  | n + 1, pos =>
    match prog[pos]? with
    | none => true
    | some line =>
      match quietNext prog vars pos line with
      | none => false
      | some pos' => quietAhead prog vars n pos'

/-- A turn that the schedule has fixed to a bus access, still to come. -/
def Turn.isAccess : Turn → Bool
  | .access _ => true
  | .host => false
  | .engine => false
  | .rst _ => false

/-- `WAIT`, with its label and its variable (30_encoding.md R96). -/
def pseudoWait (l x : Nat) : List HostLine := [.label l, .rd (.reg .status) x, .bnz x 1 l]

/-- `CLRST` (30_encoding.md R96). -/
def pseudoClrst : List HostLine := [.wr (.reg .status) (.num 0x0E)]

/-- `ISPRIME x` (30_encoding.md R96). -/
def pseudoIsprime (a : HostValue) (l x : Nat) : List HostLine :=
  [.wr (.reg .opa) a, .cmd .isprime] ++ pseudoWait l x

/-- `SIEVE b` (30_encoding.md R96). -/
def pseudoSieve (b : HostValue) (l x : Nat) : List HostLine :=
  [.wr (.reg .opa) b, .cmd .sieve] ++ pseudoWait l x

/-- `MODPOW a, k, m` (30_encoding.md R96). -/
def pseudoModpow (a k m : HostValue) (l x : Nat) : List HostLine :=
  [.wr (.reg .opa) a, .wr (.reg .opb) k, .wr (.reg .opc) m, .cmd .modpow] ++ pseudoWait l x

/-- `MODINV a, m` (30_encoding.md R96). -/
def pseudoModinv (a m : HostValue) (l x : Nat) : List HostLine :=
  [.wr (.reg .opa) a, .wr (.reg .opb) m, .cmd .modinv] ++ pseudoWait l x

/-- `GCD a, b` (30_encoding.md R96). -/
def pseudoGcd (a b : HostValue) (l x : Nat) : List HostLine :=
  [.wr (.reg .opa) a, .wr (.reg .opb) b, .cmd .gcd] ++ pseudoWait l x

/-- `KEYGEN` (30_encoding.md R96). -/
def pseudoKeygen (l x : Nat) : List HostLine := [.cmd .keygen] ++ pseudoWait l x

/-- The lines `WR MBUF[i], c` for the code points from entry i on. -/
def loadMbufFrom : Nat → List HostValue → List HostLine
  | _, [] => []
  | i, c :: cs => .wr (.mbuf i) c :: loadMbufFrom (i + 1) cs

/-- The lines `WR CBUF[i], code` for the characters from entry i on. -/
def loadCbufFrom : Nat → List Char → List HostLine
  | _, [] => []
  | i, c :: cs => .wr (.cbuf i) (.char c) :: loadCbufFrom (i + 1) cs

/-- `LOADMSG c0, ..., c(k-1)` (30_encoding.md R96). -/
def pseudoLoadmsg (cs : List HostValue) : List HostLine := loadMbufFrom 0 cs ++ [.wr (.reg .mlen) (.num cs.length)]

/-- `LOADCIPH "s"` (30_encoding.md R96). -/
def pseudoLoadciph (cs : List Char) : List HostLine := loadCbufFrom 0 cs ++ [.wr (.reg .clen) (.num cs.length)]

/-- `ENCRYPT e, n` (30_encoding.md R96). -/
def pseudoEncrypt (e n : HostValue) (l x : Nat) : List HostLine :=
  [.wr (.reg .opa) e, .wr (.reg .opb) n, .cmd .encrypt] ++ pseudoWait l x

/-- `DECRYPT d, n` (30_encoding.md R96). -/
def pseudoDecrypt (d n : HostValue) (l x : Nat) : List HostLine :=
  [.wr (.reg .opa) d, .wr (.reg .opb) n, .cmd .decrypt] ++ pseudoWait l x

end Sys2Proof.Machine
end

