-- ==== Sys2Proof/Machine/Step.lean ====
section
/-! DEFINITION. One step of the machine: the turn that State's schedule names next (00_scope.md R11, R15; log 1). -/

namespace Sys2Proof.Machine

/-- One turn of one agent. A turn `.rst` drives the reset input to a level and resets the block. DESIGN CHOICE (log 10): it
does so too where `rst` has that level already, so that `.rst false` with `rst` low is a whole reset pulse in one atomic step,
which 70_reset_and_hazards.md R250 permits. -/
def takeTurn (t : Turn) (s : State) : Outcome :=
  match t with
  | .host => hostTurn s
  | .access a => .next (s.access a)
  | .engine => engineTurn s
  | .rst level => .next (s.resetEdge level)

/-- The turn taken when the schedule lists none: the engine's while a command runs, the host's otherwise. It is the schedule of
95_test_vectors.md, section 3, and gives the weak fairness of 40_command_lifecycle.md R112 (log 1). -/
def defaultTurn (s : State) : Turn :=
  match s.rst, s.phase with
  | false, .busy _ => .engine
  | false, .idle => .host
  | true, _ => .host

/-- One step. -/
def step (s : State) : Host.Outcome State Fault Refusal :=
  match s.sched with
  | t :: ts => takeTurn t { s with sched := ts }
  | [] => takeTurn (defaultTurn s) s

/-- The state in which the very next step runs the command whose word is w: the command stands accepted
(40_command_lifecycle.md R111) and the engine has the next turn. A word that is no command stands as the next CMD write, which
the next step rejects (log 2). -/
def State.withFetchWord (s : State) (nbits w : Nat) : State :=
  match decodeTableWord nbits w with
  | some i => { s.accept i with rst := false, sched := .engine :: s.sched }
  | none =>
    { s with
      rst := false
      phase := .idle
      sched := .access ⟨s.cfg.base + Reg.cmd.offset, 4, .write (BitVec.ofNat 32 w)⟩ :: s.sched }

end Sys2Proof.Machine
end

