-- ==== Sys2Proof/Safety.lean ====
section
/-! DEFINITION. What the claims are stated in: the machine invariant, what a command's outcome is, and when a run has ended
(40_command_lifecycle.md R121). -/

namespace Sys2Proof.Machine

/-- The counter is within RETRY_LIMIT (44_keygen.md R173, R175). -/
def State.withinLimit (s : State) (counter : Nat) : Prop := ∀ l, s.cfg.retryLimit = some l → counter ≤ l

/-- p and q are two distinct members of the PrimeSet, n their product and m its totient, with an exponent range that is not
empty (44_keygen.md R173, R174). -/
def State.pickedPair (s : State) : Prop :=
  s.kg.p ∈ s.primeSet ∧ s.kg.q ∈ s.primeSet ∧ s.kg.p ≠ s.kg.q ∧ s.kg.n = s.kg.p * s.kg.q ∧
    s.kg.m = (s.kg.p - 1) * (s.kg.q - 1) ∧ 3 ≤ s.kg.m

/-- What the KEYGEN micro-state means at each stage (44_keygen.md R172 to R176). -/
def State.keygenInv (s : State) : Prop :=
  match s.kg.stage with
  | .pickP => s.kg.rq = 0 ∧ s.kg.re = 0
  | .pickQ => s.kg.p ∈ s.primeSet ∧ s.withinLimit s.kg.rq ∧ s.kg.re = 0
  | .pickE => s.pickedPair ∧ s.withinLimit s.kg.rq ∧ s.withinLimit s.kg.re
  | .finish =>
    s.pickedPair ∧ s.withinLimit s.kg.rq ∧ s.withinLimit s.kg.re ∧ 2 ≤ s.kg.e ∧ s.kg.e ≤ s.kg.m - 1 ∧
      Nat.gcd s.kg.e s.kg.m = 1

/-- The machine invariant. -/
structure State.Inv (s : State) : Prop where
  /-- The parameters are ones the spec admits (00_scope.md R6). -/
  config : s.cfg.wf = true
  /-- The buffers keep their canonical form. -/
  pramWf : Memory.wf s.pram
  mbufWf : Memory.wf s.mbuf
  cbufWf : Memory.wf s.cbuf
  /-- No buffer entry beyond its depth is ever written (20_memory.md R65, R67). -/
  mbufDepth : ∀ c ∈ s.mbuf, c.1 < s.cfg.mbufDepth
  cbufDepth : ∀ c ∈ s.cbuf, c.1 < s.cfg.cbufDepth
  /-- While BUSY = 1, DONE = 0, ERR = 0 and ERRCODE = 0 (10_state.md R24). -/
  busyClean : s.phase ≠ .idle → s.status.done = false ∧ s.status.err = false ∧ s.status.errcode = .none
  /-- ERR = 0 exactly when ERRCODE = 0 (10_state.md R24). -/
  errHasCode : s.status.err = false ↔ s.status.errcode = .none
  /-- The PrimeSet is exactly the sieve of PBOUND (42_sieve.md R140, R141, R143). -/
  primeSet : s.primeSet = sieve s.pbound.toNat
  boundInRange : s.pbound.toNat ≤ boundMax
  /-- Without a successful SIEVE there is no PrimeSet (10_state.md R24, R28, R29). -/
  unsieved : s.status.pvalid = false → s.pbound = 0 ∧ s.pcount = 0
  /-- The KEYGEN micro-state, while a KEYGEN runs. -/
  keygen : s.phase = .busy .keygen → s.keygenInv
  /-- No command runs while `rst` is asserted (70_reset_and_hazards.md R250, R252). -/
  resetIdle : s.rst = true → s.phase = .idle

/-- (e, d, n) is a keypair over the primes ps (00_scope.md R16, 44_keygen.md R177 items 1 to 3). -/
def IsKeypair (ps : List Nat) (e d n : Nat) : Prop :=
  ∃ p q, p ∈ ps ∧ q ∈ ps ∧ p ≠ q ∧ n = p * q ∧ 3 ≤ (p - 1) * (q - 1) ∧
    2 ≤ e ∧ e ≤ (p - 1) * (q - 1) - 1 ∧ Nat.gcd e ((p - 1) * (q - 1)) = 1 ∧
    1 ≤ d ∧ d ≤ (p - 1) * (q - 1) - 1 ∧ e * d % ((p - 1) * (q - 1)) = 1

/-- The state after a successful completion shows success (40_command_lifecycle.md R113). -/
def State.succeeded (s : State) : Prop :=
  s.phase = .idle ∧ s.status.done = true ∧ s.status.err = false ∧ s.status.errcode = .none

/-- The state after an error completion with this code (40_command_lifecycle.md R114). -/
def State.failedWith (s : State) (code : ErrCode) : Prop :=
  s.phase = .idle ∧ s.status.done = true ∧ s.status.err = true ∧ s.status.errcode = code

/-- The codes each command can report, in the order of its checks (60_exceptions.md R233). BUFFER_OVERFLOW of ENCRYPT is
unreachable (60_exceptions.md R230) and not listed. -/
def possibleErrors : Instr → List ErrCode
  | .isprime => []
  | .sieve => [.boundTooLarge]
  | .modpow => [.domainError]
  | .modinv => [.domainError, .noModularInverse]
  | .gcd => []
  | .keygen => [.insufficientPrimes, .retryExhausted, .emptyExponentRange, .noModularInverse]
  | .encrypt => [.lengthRange, .domainError, .rangeExceeded]
  | .decrypt => [.lengthRange, .malformedCiphertext, .domainError, .bufferOverflow]

/-- The host's 32-bit access at a byte offset of the window (00_scope.md R14, 20_memory.md R60). -/
def State.wordAt (s : State) (o : Nat) (d : Dir) : Access := { addr := s.cfg.base + o, bytes := 4, dir := d }

/-- The offsets at which something is mapped (20_memory.md R62 to R67). -/
def Mapped (c : Config) (o : Nat) : Prop :=
  o ≤ 0x38 ∨ (0x10000 ≤ o ∧ o < 0x10000 + 4 * psetDepth) ∨ (0x20000 ≤ o ∧ o < 0x20000 + 4 * c.mbufDepth) ∨
    (0x30000 ≤ o ∧ o < 0x30000 + 4 * c.cbufDepth)

/-- The entropy source answers d, and the answer is used up (44_keygen.md R171): the head of the list in State, or the next
free value where the list is empty (log 6). -/
def State.Draws (s : State) (d : Nat) (s' : State) : Prop :=
  (∃ rest, s.entropy = d :: rest ∧ s' = { s with entropy := rest }) ∨
    (s.entropy = [] ∧ d = Config.freeDraw s.freeCount ∧ s' = { s with freeCount := s.freeCount + 1 })

/-- The ASCII decimal digits of v, most significant first, padded with '0' on the left to at least 5 (45_block_codec.md R191).
-/
def asciiBlock (v : Nat) : List Byte :=
  List.replicate (5 - (Nat.digits 10 v).length) 0x30#8 ++
    (Nat.digits 10 v).reverse.map fun d => BitVec.ofNat 8 (0x30 + d)

/-- The value of the five characters from CBUF[5t] on, as a decimal number (45_block_codec.md R192). -/
def State.windowValue (s : State) (t : Nat) : Nat :=
  ((List.range 5).map fun i => ((s.cbufAt (5 * t + i)).toNat - 0x30) * 10 ^ (4 - i)).sum

/-- A character code of a decimal digit (45_block_codec.md R190). -/
def IsDigitCode (c : Byte) : Prop := 0x30 ≤ c.toNat ∧ c.toNat ≤ 0x39

/-- The host has performed these bus accesses, in order (20_memory.md R60). -/
def State.accesses (s : State) (l : List Access) : State := l.foldl State.access s

/-- u is the state in which the host takes its turn in the step from s: a turn that the schedule lists, or the default one, in
IDLE or while `rst` is high (log 1). -/
def State.HostMoves (s u : State) : Prop :=
  (∃ ts, s.sched = .host :: ts ∧ u = { s with sched := ts }) ∨ (s.sched = [] ∧ (s.phase = .idle ∨ s.rst = true) ∧ u = s)

/-- The value v of host assembly is the word w: a number that fits, the code of an ASCII character, or a host variable that has
been set (30_encoding.md R95, log 15). R95 gives the codes of printable characters only, 0x20 to 0x7E; that the other ASCII
characters have their codes too is the model's choice (log 25, DESIGN CHOICE). -/
def State.HostValueIs (s : State) (v : HostValue) (w : Word) : Prop :=
  v = .num w.toNat ∨ (∃ c : Char, v = .char c ∧ c.toNat < 128 ∧ w.toNat = c.toNat) ∨
    ∃ x, v = .var x ∧ hostVar s.vars x = some w

/-- The step from s to t ends the command op: phase returns to IDLE, by a success or by an error (40_command_lifecycle.md R113,
R114, R121). -/
def CommandEnds (op : Instr) (s t : State) : Prop :=
  s.phase = .busy op ∧ (t.succeeded ∨ ∃ c, c ≠ .none ∧ t.failedWith c)

/-- The host's last bus access has been performed (40_command_lifecycle.md R121): none is left in the schedule, and none is
ahead in its program, however many of its lines are followed from here in IDLE (logs 2, 26). -/
def State.hostDone (s : State) : Prop :=
  (∀ t ∈ s.sched, t.isAccess = false) ∧ ∀ n, quietAhead s.prog s.vars n s.progPos = true

/-- A host program has ended when its last bus access has been performed and phase = IDLE (40_command_lifecycle.md R121). A
run in which phase stays BUSY never ends. -/
def State.runEnded (s : State) : Prop := s.hostDone ∧ s.phase = .idle

end Sys2Proof.Machine
end

