-- ==== Sys2Proof/Certificates/Slice0/Obligations.lean ====
section
/-! DEFINITION. The statements for the provers. OBLIGATIONS.json gives each its tier, its title and the rules it rests on.
Where a statement has a hypothesis, Tests/Slice0.lean has a witness that meets it. -/

open Sys2Proof Sys2Proof.Machine

/-! ### Encoding -/

/-- 30_encoding.md R91: the full words, and a word is legal exactly when RSVD = 0 and OPCODE is one of 0x01 to 0x08. -/
def Obligations.LegalWordsAreTheEightOfTheMap : Prop :=
  (encode .isprime = 0x00000001#32 ∧ encode .sieve = 0x00000002#32 ∧ encode .modpow = 0x00000003#32 ∧
    encode .modinv = 0x00000004#32 ∧ encode .gcd = 0x00000005#32 ∧ encode .keygen = 0x00000006#32 ∧
    encode .encrypt = 0x00000007#32 ∧ encode .decrypt = 0x00000008#32) ∧
  ∀ w : Word,
    ((∃ i, decode w = .legal i) ↔ (w.toNat / 256 = 0 ∧ 1 ≤ w.toNat % 256 ∧ w.toNat % 256 ≤ 8)) ∧
    ∀ i, decode w = .legal i ↔ w = encode i

/-- 30_encoding.md R94: every word is legal or illegal, and which illegal word is rejected for which reason. -/
def Obligations.EveryOtherWordIsIllegal : Prop :=
  ∀ w : Word,
    ((∃ i, w = encode i ∧ decode w = .legal i) ∨ (∃ why, decode w = .illegal why)) ∧
    (decode w = .illegal .reservedBits ↔ w.toNat / 256 ≠ 0) ∧
    (decode w = .illegal .unassignedOpcode ↔ w.toNat / 256 = 0 ∧ (w.toNat % 256 = 0 ∨ 9 ≤ w.toNat % 256))

/-- Decoding an encoded command gives it back, in the table's numbering too. -/
def Obligations.EncodedCommandDecodesToItself : Prop :=
  ∀ i : Instr, i.wf = true ∧ decode (encode i) = .legal i ∧ decodeTableWord 32 (encode i).toNat = some i

/-- A few words written out from 30_encoding.md R90 and R91. -/
def Obligations.WrittenOutWordsDecode : Prop :=
  decode 0b00000000000000000000000000000001#32 = .legal .isprime ∧
  decode 0b00000000000000000000000000000110#32 = .legal .keygen ∧
  decode 0b00000000000000000000000000001000#32 = .legal .decrypt ∧
  decode 0b00000000000000000000000000001001#32 = .illegal .unassignedOpcode ∧
  decode 0b00000000000000000000000100000001#32 = .illegal .reservedBits

/-! ### The functions on naturals -/

/-- 41_primality.md R132: IsPrimeTD is IsPrimeNat, and SIEVE membership is exactly primality. -/
def Obligations.TrialDivisionDecidesPrimality : Prop :=
  (∀ n : Nat, isPrimeTD n = true ↔ (2 ≤ n ∧ ∀ d, 1 < d → d < n → ¬ d ∣ n)) ∧
  ∀ b x : Nat, x ∈ sieve b ↔ (x ≤ b ∧ 2 ≤ x ∧ ∀ d, 1 < d → d < x → ¬ d ∣ x)

/-- 43_modular_arithmetic.md R153, with 0^0 = 1. -/
def Obligations.ModPowIsThePowerModulo : Prop :=
  ∀ a k m : Nat, 1 ≤ m → modPow a k m = a ^ k % m ∧ modPow a k m < m

/-- 43_modular_arithmetic.md R156. -/
def Obligations.ModInvIsTheUniqueInverse : Prop :=
  (∀ a m : Nat, 2 ≤ m → (modInv a m = none ↔ Nat.gcd a m ≠ 1)) ∧
  (∀ a m : Nat, 2 ≤ m → Nat.gcd a m = 1 →
    ∃ x, modInv a m = some x ∧ 1 ≤ x ∧ x ≤ m - 1 ∧ a * x % m = 1 ∧
      ∀ y, 1 ≤ y → y ≤ m - 1 → a * y % m = 1 → y = x) ∧
  (∀ m r : Nat, 2 ≤ m → 1 ≤ r → r ≤ m → (modPow r 1 m = 1 ↔ r = 1) ∧ modPow r 1 m = r % m) ∧
  (∀ a : Nat, modInv a 1 = some 0 ∧ a * 0 % 1 = 1 % 1)

/-- 43_modular_arithmetic.md R159, and the zero cases of R157. -/
def Obligations.GcdIsTheGreatestCommonDivisor : Prop :=
  ∀ a b : Nat,
    gcdNat a b ∣ a ∧ gcdNat a b ∣ b ∧ (∀ c, c ∣ a → c ∣ b → c ∣ gcdNat a b) ∧ gcdNat a b = gcdNat b a ∧
    (¬ (a = 0 ∧ b = 0) → ∀ c, c ∣ a → c ∣ b → c ≤ gcdNat a b) ∧ gcdNat a 0 = a ∧ gcdNat 0 b = b

/-- 45_block_codec.md R191: the digits most significant first, left-padded to at least 5; exactly 5 below 100000. -/
def Obligations.FmtIsThePaddedDecimal : Prop :=
  ∀ v : Nat,
    fmt v = asciiBlock v ∧
    (v < 100000 → (fmt v).length = 5) ∧ (100000 ≤ v → (fmt v).length = (Nat.digits 10 v).length ∧ 6 ≤ (fmt v).length) ∧
    (v < 2 ^ 32 → (fmt v).length ≤ 10)

/-- 45_block_codec.md R192, and that parsing a block of five characters gives its value back. -/
def Obligations.Parse5ReadsTheWindow : Prop :=
  (∀ c0 c1 c2 c3 c4 : Byte, IsDigitCode c0 → IsDigitCode c1 → IsDigitCode c2 → IsDigitCode c3 → IsDigitCode c4 →
    parse5 c0 c1 c2 c3 c4 =
      (c0.toNat - 0x30) * 10 ^ 4 + (c1.toNat - 0x30) * 10 ^ 3 + (c2.toNat - 0x30) * 10 ^ 2 + (c3.toNat - 0x30) * 10 ^ 1 +
        (c4.toNat - 0x30) * 10 ^ 0 ∧
    parse5 c0 c1 c2 c3 c4 ≤ 99999) ∧
  (∀ v : Nat, v < 100000 →
    ∃ c0 c1 c2 c3 c4, fmt v = [c0, c1, c2, c3, c4] ∧ IsDigitCode c0 ∧ IsDigitCode c1 ∧ IsDigitCode c2 ∧
      IsDigitCode c3 ∧ IsDigitCode c4 ∧ parse5 c0 c1 c2 c3 c4 = v)

/-! ### The bus -/

/-- 40_command_lifecycle.md R111: a legal word written to CMD in IDLE accepts the command in the same step. -/
def Obligations.CmdWriteAcceptsTheCommand : Prop :=
  ∀ (s : State) (w : Word) (i : Instr), s.rst = false → s.phase = .idle → decode w = .legal i →
    let t := s.access (s.wordAt 0x10 (.write w))
    t = { s with
      phase := .busy i
      status := { s.status with done := false, err := false, errcode := .none }
      kg := if i = .keygen then { s.kg with stage := .pickP, rq := 0, re := 0 } else s.kg
      resp := some ⟨.okay, none⟩ } ∧
    t.busy = true ∧ t.irq = false

/-- 40_command_lifecycle.md R115: an illegal word written to CMD in IDLE. -/
def Obligations.IllegalCmdWriteIsRejected : Prop :=
  ∀ (s : State) (w : Word), s.rst = false → s.phase = .idle →
    (w.toNat / 256 ≠ 0 ∨ w.toNat % 256 = 0 ∨ 9 ≤ w.toNat % 256) →
    let t := s.access (s.wordAt 0x10 (.write w))
    t = { s with
      status := { s.status with done := true, err := true, errcode := .illegalCommand }
      resp := some ⟨.okay, none⟩ } ∧
    t.phase = .idle ∧ t.busy = false ∧ t.status.errcode.code = 1 ∧ engineTurn t = .next t

/-- 40_command_lifecycle.md R116: what a write does while BUSY. -/
def Obligations.BusyWritesAreDropped : Prop :=
  ∀ (s : State) (o : Nat) (v : Word), s.rst = false → s.cfg.wf = true → s.phase ≠ .idle →
    let t := s.access (s.wordAt o (.write v))
    ((o ∈ [0x08, 0x10, 0x14, 0x18, 0x1C, 0x34, 0x38] ∨ (∃ i, i < s.cfg.mbufDepth ∧ o = 0x20000 + 4 * i) ∨
        (∃ i, i < s.cfg.cbufDepth ∧ o = 0x30000 + 4 * i)) →
      t = { s with status := { s.status with ovr := true }, resp := some ⟨.okay, none⟩ }) ∧
    (o = 0x0C →
      t = { s with
        status :=
          { done := s.status.done && !v.getLsbD 1
            err := s.status.err && !v.getLsbD 2
            ovr := s.status.ovr && !v.getLsbD 3
            pvalid := s.status.pvalid
            errcode := if v.getLsbD 2 then .none else s.status.errcode }
        resp := some ⟨.okay, none⟩ }) ∧
    ((o ∈ [0x00, 0x04, 0x20, 0x24, 0x28, 0x2C, 0x30] ∨ (∃ i, i < psetDepth ∧ o = 0x10000 + 4 * i)) →
      t = { s with resp := some ⟨.okay, none⟩ }) ∧
    (o < windowBytes → (o % 4 ≠ 0 ∨ ¬ Mapped s.cfg o) → ∃ d, t = { s with resp := some ⟨.slverr, d⟩ })

/-- 20_memory.md R61: a misaligned access, or one of another width, answers SLVERR, has no effect, and reads 0. -/
def Obligations.MisalignedOrNarrowAccessIsRefused : Prop :=
  ∀ (s : State) (o bytes : Nat) (d : Dir), o < windowBytes → (o % 4 ≠ 0 ∨ bytes ≠ 4) →
    ∃ r : BusResp, s.access ⟨s.cfg.base + o, bytes, d⟩ = { s with resp := some r } ∧ r.code = .slverr ∧
      (d = .read → r.data = some 0)

/-- 20_memory.md R63: the register window. -/
def Obligations.RegisterWindowHoldsFifteenRegisters : Prop :=
  ∀ (s : State), s.rst = false →
    (∀ o d, o % 4 = 0 → 0x3C ≤ o → o < 0x10000 →
      ∃ r : BusResp, s.access (s.wordAt o d) = { s with resp := some r } ∧ r.code = .slverr ∧
        (d = .read → r.data = some 0)) ∧
    (∀ o v, o ∈ [0x00, 0x04, 0x20, 0x24, 0x28, 0x2C, 0x30] →
      s.access (s.wordAt o (.write v)) = { s with resp := some ⟨.okay, none⟩ }) ∧
    s.access (s.wordAt 0x10 .read) = { s with resp := some ⟨.okay, some 0⟩ } ∧
    (∀ o, o % 4 = 0 → o ≤ 0x38 →
      ∃ v, s.access (s.wordAt o .read) = { s with resp := some ⟨.okay, some v⟩ })

/-- 10_state.md R21, R22: ID and CAP in every state. -/
def Obligations.IdAndCapAreConstant : Prop :=
  ∀ (s : State), s.rst = false → s.cfg.wf = true →
    s.access (s.wordAt 0x00 .read) = { s with resp := some ⟨.okay, some 0x52534131#32⟩ } ∧
    (∃ v : Word, s.access (s.wordAt 0x04 .read) = { s with resp := some ⟨.okay, some v⟩ } ∧ v.toNat = s.cfg.mbufDepth ∧
      s.cfg.cbufDepth = 10 * v.toNat) ∧
    (∀ v, s.access (s.wordAt 0x00 (.write v)) = { s with resp := some ⟨.okay, none⟩ }) ∧
    (∀ v, s.access (s.wordAt 0x04 (.write v)) = { s with resp := some ⟨.okay, none⟩ })

/-- 10_state.md R23: the bits of CTRL. -/
def Obligations.ControlKeepsTwoBits : Prop :=
  ∀ (s : State) (v : Word), s.rst = false →
    (s.phase = .idle →
      s.access (s.wordAt 0x08 (.write v)) =
        { s with ctrl := { ie := v.getLsbD 0, rchk := v.getLsbD 1 }, resp := some ⟨.okay, none⟩ }) ∧
    (s.phase ≠ .idle →
      s.access (s.wordAt 0x08 (.write v)) =
        { s with status := { s.status with ovr := true }, resp := some ⟨.okay, none⟩ }) ∧
    ∃ w : Word, s.access (s.wordAt 0x08 .read) = { s with resp := some ⟨.okay, some w⟩ } ∧
      w.getLsbD 0 = s.ctrl.ie ∧ w.getLsbD 1 = s.ctrl.rchk ∧ ∀ k, 2 ≤ k → w.getLsbD k = false

/-- 10_state.md R24: the bits STATUS reads as, and the W1C write, in every phase. -/
def Obligations.StatusReadsItsFieldsAndClears : Prop :=
  ∀ (s : State) (v : Word), s.rst = false →
    (∃ w : Word, s.access (s.wordAt 0x0C .read) = { s with resp := some ⟨.okay, some w⟩ } ∧
      w.getLsbD 0 = decide (s.phase ≠ .idle) ∧ w.getLsbD 1 = s.status.done ∧ w.getLsbD 2 = s.status.err ∧
      w.getLsbD 3 = s.status.ovr ∧ w.getLsbD 4 = s.status.pvalid ∧ w.extractLsb' 8 4 = s.status.errcode.code ∧
      (∀ k, 5 ≤ k → k < 8 → w.getLsbD k = false) ∧ ∀ k, 12 ≤ k → w.getLsbD k = false) ∧
    s.access (s.wordAt 0x0C (.write v)) =
      { s with
        status :=
          { done := s.status.done && !v.getLsbD 1
            err := s.status.err && !v.getLsbD 2
            ovr := s.status.ovr && !v.getLsbD 3
            pvalid := s.status.pvalid
            errcode := if v.getLsbD 2 then .none else s.status.errcode }
        resp := some ⟨.okay, none⟩ }

/-- 10_state.md R26 to R31, 40_command_lifecycle.md R117: the operand and length registers hold what the host writes in IDLE,
and every operand, result, PrimeSet and length register reads its current value at any time. -/
def Obligations.RegistersReadTheirCurrentValue : Prop :=
  ∀ (s : State) (v : Word), s.rst = false →
    (s.phase = .idle →
      s.access (s.wordAt 0x14 (.write v)) = { s with opa := v, resp := some ⟨.okay, none⟩ } ∧
      s.access (s.wordAt 0x18 (.write v)) = { s with opb := v, resp := some ⟨.okay, none⟩ } ∧
      s.access (s.wordAt 0x1C (.write v)) = { s with opc := v, resp := some ⟨.okay, none⟩ } ∧
      s.access (s.wordAt 0x34 (.write v)) = { s with mlen := v, resp := some ⟨.okay, none⟩ } ∧
      s.access (s.wordAt 0x38 (.write v)) = { s with clen := v, resp := some ⟨.okay, none⟩ }) ∧
    s.access (s.wordAt 0x14 .read) = { s with resp := some ⟨.okay, some s.opa⟩ } ∧
    s.access (s.wordAt 0x18 .read) = { s with resp := some ⟨.okay, some s.opb⟩ } ∧
    s.access (s.wordAt 0x1C .read) = { s with resp := some ⟨.okay, some s.opc⟩ } ∧
    s.access (s.wordAt 0x34 .read) = { s with resp := some ⟨.okay, some s.mlen⟩ } ∧
    s.access (s.wordAt 0x38 .read) = { s with resp := some ⟨.okay, some s.clen⟩ } ∧
    s.access (s.wordAt 0x20 .read) = { s with resp := some ⟨.okay, some s.r0⟩ } ∧
    s.access (s.wordAt 0x24 .read) = { s with resp := some ⟨.okay, some s.r1⟩ } ∧
    s.access (s.wordAt 0x28 .read) = { s with resp := some ⟨.okay, some s.r2⟩ } ∧
    s.access (s.wordAt 0x2C .read) = { s with resp := some ⟨.okay, some s.pbound⟩ } ∧
    s.access (s.wordAt 0x30 .read) = { s with resp := some ⟨.okay, some s.pcount⟩ }

/-- 20_memory.md R64: the PRAM window. While a SIEVE is BUSY the data is some word. -/
def Obligations.PramWindowIsReadOnly : Prop :=
  ∀ (s : State) (i : Nat), s.rst = false →
    (i < psetDepth → s.phase ≠ .busy .sieve →
      s.access (s.wordAt (0x10000 + 4 * i) .read) =
        { s with
          resp := some ⟨.okay, some (if i < s.pcount.toNat then (s.pramAt i).setWidth 32 else 0)⟩ }) ∧
    (i < psetDepth → s.phase = .busy .sieve →
      ∃ v n, s.access (s.wordAt (0x10000 + 4 * i) .read) =
        { s with resp := some ⟨.okay, some v⟩, freeCount := n }) ∧
    (i < psetDepth → ∀ v,
      s.access (s.wordAt (0x10000 + 4 * i) (.write v)) = { s with resp := some ⟨.okay, none⟩ }) ∧
    (psetDepth ≤ i → i < 16384 → ∀ d,
      ∃ r : BusResp, s.access (s.wordAt (0x10000 + 4 * i) d) = { s with resp := some r } ∧ r.code = .slverr ∧
        (d = .read → r.data = some 0))

/-- 20_memory.md R65: the MBUF window. While a DECRYPT is BUSY the data is some word. -/
def Obligations.MbufWindowHoldsWholeWords : Prop :=
  ∀ (s : State) (i : Nat) (v : Word), s.rst = false → s.cfg.wf = true →
    (i < s.cfg.mbufDepth → s.phase ≠ .busy .decrypt →
      s.access (s.wordAt (0x20000 + 4 * i) .read) = { s with resp := some ⟨.okay, some (s.mbufAt i)⟩ }) ∧
    (i < s.cfg.mbufDepth → s.phase = .busy .decrypt →
      ∃ u n, s.access (s.wordAt (0x20000 + 4 * i) .read) = { s with resp := some ⟨.okay, some u⟩, freeCount := n }) ∧
    (i < s.cfg.mbufDepth → s.phase = .idle →
      ∃ b, let t := s.access (s.wordAt (0x20000 + 4 * i) (.write v))
        t = { s with mbuf := b, resp := some ⟨.okay, none⟩ } ∧ t.mbufAt i = v ∧ ∀ j, j ≠ i → t.mbufAt j = s.mbufAt j) ∧
    (i < s.cfg.mbufDepth → s.phase ≠ .idle →
      s.access (s.wordAt (0x20000 + 4 * i) (.write v)) =
        { s with status := { s.status with ovr := true }, resp := some ⟨.okay, none⟩ }) ∧
    (s.cfg.mbufDepth ≤ i → i < 16384 → ∀ d,
      ∃ r : BusResp, s.access (s.wordAt (0x20000 + 4 * i) d) = { s with resp := some r } ∧ r.code = .slverr ∧
        (d = .read → r.data = some 0))

/-- 20_memory.md R67: the CBUF window. While an ENCRYPT is BUSY the data is some word. -/
def Obligations.CbufWindowHoldsCharacters : Prop :=
  ∀ (s : State) (i : Nat) (v : Word), s.rst = false → s.cfg.wf = true →
    (i < s.cfg.cbufDepth → s.phase ≠ .busy .encrypt →
      s.access (s.wordAt (0x30000 + 4 * i) .read) =
        { s with resp := some ⟨.okay, some ((s.cbufAt i).setWidth 32)⟩ }) ∧
    (i < s.cfg.cbufDepth → s.phase = .busy .encrypt →
      ∃ u n, s.access (s.wordAt (0x30000 + 4 * i) .read) = { s with resp := some ⟨.okay, some u⟩, freeCount := n }) ∧
    (i < s.cfg.cbufDepth → s.phase = .idle →
      ∃ b, let t := s.access (s.wordAt (0x30000 + 4 * i) (.write v))
        t = { s with cbuf := b, resp := some ⟨.okay, none⟩ } ∧ t.cbufAt i = v.extractLsb' 0 8 ∧
          ∀ j, j ≠ i → t.cbufAt j = s.cbufAt j) ∧
    (i < s.cfg.cbufDepth → s.phase ≠ .idle →
      s.access (s.wordAt (0x30000 + 4 * i) (.write v)) =
        { s with status := { s.status with ovr := true }, resp := some ⟨.okay, none⟩ }) ∧
    (s.cfg.cbufDepth ≤ i → i < 16384 → ∀ d,
      ∃ r : BusResp, s.access (s.wordAt (0x30000 + 4 * i) d) = { s with resp := some r } ∧ r.code = .slverr ∧
        (d = .read → r.data = some 0))

/-- 20_memory.md R69: "A read has no side effect at any address, including STATUS." Only the bus answer changes, and the
model's own count of free values (log 5). -/
def Obligations.ReadsHaveNoSideEffect : Prop :=
  ∀ (s : State) (addr bytes : Nat), ∃ r n, s.access ⟨addr, bytes, .read⟩ = { s with resp := r, freeCount := n }

/-! ### Reset -/

/-- The reset values of 70_reset_and_hazards.md R251, for every block. The last clause is the model's choice (log 4, DESIGN
CHOICE), no rule of the spec: the contents of MBUF and CBUF, which R251 and R253 leave unspecified, are free values, whatever
they are. The `kg` micro-state, unspecified too, is not mentioned. -/
def Obligations.ResetStateHasTheSpecsValues : Prop :=
  ∀ c : Config, c.wf = true →
    let s := State.resetWith c
    s.readReg .id = 0x52534131#32 ∧ (s.readReg .cap).toNat = c.mbufDepth ∧
    s.ctrl = { ie := false, rchk := false } ∧ s.readReg .ctrl = 0 ∧
    s.status = { done := false, err := false, ovr := false, pvalid := false, errcode := .none } ∧ s.readReg .status = 0 ∧
    s.opa = 0 ∧ s.opb = 0 ∧ s.opc = 0 ∧ s.r0 = 0 ∧ s.r1 = 0 ∧ s.r2 = 0 ∧ s.pbound = 0 ∧ s.pcount = 0 ∧ s.mlen = 0 ∧
    s.clen = 0 ∧ s.phase = .idle ∧ s.irq = false ∧ (∀ i, s.contents (.pram i) = 0) ∧
    ∀ i, s.mbufAt i = Config.freeMbuf s.epoch i ∧ s.cbufAt i = Config.freeCbuf s.epoch i

/-- 70_reset_and_hazards.md R252: a reset abandons the running command, at any point of it. R250 promises the reset values at
the deassertion of `rst`; that they stand from the assertion on (b = true) is the model's choice (log 10, DESIGN CHOICE), and
so is that a turn `.rst false` with `rst` low already is a reset pulse in one step, which R250 permits (log 10). MBUF
and CBUF, unspecified after a reset (R253, log 4), are not mentioned. -/
def Obligations.ResetAbandonsTheCommand : Prop :=
  ∀ (s : State) (op : Instr) (b : Bool) (ts : List Turn), s.phase = .busy op → s.sched = .rst b :: ts →
    ∃ t, step s = .next t ∧ t.sched = ts ∧ t.rst = b ∧ t.cfg = s.cfg ∧ t.phase = .idle ∧
      t.status = { done := false, err := false, ovr := false, pvalid := false, errcode := .none } ∧
      t.ctrl = { ie := false, rchk := false } ∧
      t.opa = 0 ∧ t.opb = 0 ∧ t.opc = 0 ∧ t.r0 = 0 ∧ t.r1 = 0 ∧ t.r2 = 0 ∧ t.pbound = 0 ∧ t.pcount = 0 ∧ t.mlen = 0 ∧
      t.clen = 0

/-- 70_reset_and_hazards.md R250: while `rst` is asserted every access answers SLVERR with no effect and the engine takes no
step; deasserting it leaves the reset state. What stays of the model's own fields, the `kg` micro-state and that no PRAM cell is
listed are the model's choice (logs 4, 7, 8, 10), as is the `rst` turn that finds the level it drives (an atomic pulse, log 10).
-/
def Obligations.NothingMovesWhileResetIsAsserted : Prop :=
  (∀ (s : State) (o bytes : Nat) (d : Dir), s.rst = true → o < windowBytes →
    ∃ r : BusResp, s.access ⟨s.cfg.base + o, bytes, d⟩ = { s with resp := some r } ∧ r.code = .slverr ∧
      (d = .read → r.data = some 0)) ∧
  (∀ (s : State) (ts : List Turn), s.rst = true → s.sched = .engine :: ts → step s = .next { s with sched := ts }) ∧
  (∀ (s : State) (ts : List Turn), s.sched = .rst false :: ts →
    step s = .next { State.resetWith s.cfg with
      resp := s.resp, sched := ts, prog := s.prog, progPos := s.progPos, vars := s.vars, entropy := s.entropy,
      freeCount := s.freeCount, epoch := s.epoch + 1 })

/-! ### The engine -/

/-- A step does what its turn names. The engine's turn, scheduled or by default, is exec of the running command in the state it
finds; a CMD write of the command's word accepts it first. An access is State.access of it. The host's turn, scheduled or by
default, is the line it stands at (30_encoding.md R95), one clause for each kind of line: WR, RD and CMD are the 32-bit access at
the target's offset, BNZ tests its variable, labels and comments do nothing, HALT leaves the program, RUN lets the engine step.
The model's choices: whose turn it is (log 1), the placing of a word (log 2), a read outside the window (log 11), a host that
takes one line a turn, a variable as a value, RUN as a line that stays while a command runs, the stop on an undefined name or
label (log 15), a host with no line left (log 17), the first of two equal labels (log 24), and the code of an ASCII character
that is not printable (log 25, in HostValueIs). -/
def Obligations.StepRunsTheDecodedCommand : Prop :=
  (∀ (s : State) (i : Instr), s.rst = false →
    (∀ ts, s.phase = .busy i → s.sched = .engine :: ts → step s = exec i { s with sched := ts }) ∧
    (s.phase = .busy i → s.sched = [] → step s = exec i s) ∧
    (∀ w ts, s.phase = .idle → decode w = .legal i →
      s.sched = .access (s.wordAt 0x10 (.write w)) :: .engine :: ts →
      ∃ t, step s = .next t ∧ t.phase = .busy i ∧ t.sched = .engine :: ts ∧ step t = exec i { t with sched := ts }) ∧
    step (s.withFetchWord 32 (encode i).toNat) = exec i (s.accept i)) ∧
  (∀ (s : State) (a : Access) (ts : List Turn), s.sched = .access a :: ts →
    step s = .next (State.access { s with sched := ts } a)) ∧
  ([Reg.id, .cap, .ctrl, .status, .cmd, .opa, .opb, .opc, .r0, .r1, .r2, .pbound, .pcount, .mlen, .clen].map
      (fun r => (HostTarget.reg r).toOffset) =
    [0x00, 0x04, 0x08, 0x0C, 0x10, 0x14, 0x18, 0x1C, 0x20, 0x24, 0x28, 0x2C, 0x30, 0x34, 0x38]) ∧
  (∀ i, (HostTarget.pram i).toOffset = 0x10000 + 4 * i ∧ (HostTarget.mbuf i).toOffset = 0x20000 + 4 * i ∧
    (HostTarget.cbuf i).toOffset = 0x30000 + 4 * i ∧ (HostTarget.offset i).toOffset = i) ∧
  ∀ s u : State, s.HostMoves u →
    (∀ g v w, s.prog[s.progPos]? = some (.wr g v) → s.HostValueIs v w →
      step s = .next { u.access (u.wordAt g.toOffset (.write w)) with progPos := s.progPos + 1 }) ∧
    (∀ i, s.prog[s.progPos]? = some (.cmd i) →
      step s = .next { u.access (u.wordAt 0x10 (.write (encode i))) with progPos := s.progPos + 1 }) ∧
    (∀ v w, s.prog[s.progPos]? = some (.cmdWord v) → s.HostValueIs v w →
      step s = .next { u.access (u.wordAt 0x10 (.write w)) with progPos := s.progPos + 1 }) ∧
    (∀ g x, s.prog[s.progPos]? = some (.rd g x) →
      let a := u.access (u.wordAt g.toOffset .read)
      (∀ c w, a.resp = some ⟨c, some w⟩ →
        ∃ t, step s = .next t ∧ hostVar t.vars x = some w ∧ t = { a with vars := t.vars, progPos := s.progPos + 1 }) ∧
      (a.resp = none → step s = .next { a with progPos := s.progPos + 1 })) ∧
    (∀ x mask l v, s.prog[s.progPos]? = some (.bnz x mask l) → hostVar s.vars x = some v →
      (v &&& mask = 0 → step s = .next { u with progPos := s.progPos + 1 }) ∧
      (v &&& mask ≠ 0 → ∀ k, s.prog[k]? = some (.label l) → (∀ j, j < k → s.prog[j]? ≠ some (.label l)) →
        step s = .next { u with progPos := k + 1 }) ∧
      (v &&& mask ≠ 0 → .label l ∉ s.prog → step s = .fault (.hostLabelUndefined l))) ∧
    (∀ l, s.prog[s.progPos]? = some l → ((∃ n, l = .label n) ∨ l = .comment) →
      step s = .next { u with progPos := s.progPos + 1 }) ∧
    (s.prog[s.progPos]? = some .halt → ∃ k, s.prog[k]? = none ∧ step s = .next { u with progPos := k }) ∧
    (s.prog[s.progPos]? = some .run →
      (s.phase = .idle → step s = .next { u with progPos := s.progPos + 1 }) ∧
      (∀ i, s.phase = .busy i → (s.rst = false → step s = exec i u) ∧ (s.rst = true → step s = .next u))) ∧
    (s.prog[s.progPos]? = none → step s = .next u) ∧
    ∀ l x, s.prog[s.progPos]? = some l → hostVar s.vars x = none →
      ((∃ g, l = .wr g (.var x)) ∨ l = .cmdWord (.var x) ∨ ∃ mask n, l = .bnz x mask n) →
      step s = .fault (.hostNameUndefined x)

/-- 40_command_lifecycle.md R110: no engine step in IDLE, and one command at a time until it completes. -/
def Obligations.EngineStepsOnlyWhileBusy : Prop :=
  (∀ (s : State) (ts : List Turn), s.phase = .idle → s.sched = .engine :: ts → step s = .next { s with sched := ts }) ∧
  (∀ (s t : State) (i : Instr), s.phase = .busy i → step s = .next t → t.phase = .idle ∨ t.phase = .busy i)

/-- 40_command_lifecycle.md R112 to R114: the engine's step of a command always answers a next state, a success, an error,
or, for KEYGEN only, another stage. -/
def Obligations.EveryEngineStepAnswersAState : Prop :=
  ∀ (s : State) (i : Instr), s.phase = .busy i →
    ∃ t, exec i s = .next t ∧
      (t.succeeded ∨ (∃ c, c ≠ .none ∧ t.failedWith c) ∨ (i = .keygen ∧ t.phase = .busy .keygen ∧ t.status = s.status))

/-- 40_command_lifecycle.md R114, 60_exceptions.md R234: an error completion leaves everything as it was, except phase, STATUS
and the draw KEYGEN used up, which is the model's own account of the entropy source (logs 6, 14). -/
def Obligations.ErrorsArePrecise : Prop :=
  ∀ (s t : State) (i : Instr), s.phase = .busy i → exec i s = .next t → t.phase = .idle → t.status.err = true →
    t.status.errcode ≠ .none ∧
    t = { s with
      phase := .idle
      status := { s.status with done := true, err := true, errcode := t.status.errcode }
      entropy := t.entropy
      freeCount := t.freeCount }

/-- 60_exceptions.md R221, R233: which codes each command can report, and their numbers. -/
def Obligations.EachCommandReportsItsOwnErrors : Prop :=
  (ErrCode.none.code = 0 ∧ ErrCode.illegalCommand.code = 1 ∧ ErrCode.domainError.code = 2 ∧
    ErrCode.noModularInverse.code = 3 ∧ ErrCode.insufficientPrimes.code = 4 ∧ ErrCode.emptyExponentRange.code = 5 ∧
    ErrCode.retryExhausted.code = 6 ∧ ErrCode.malformedCiphertext.code = 7 ∧ ErrCode.rangeExceeded.code = 8 ∧
    ErrCode.bufferOverflow.code = 9 ∧ ErrCode.lengthRange.code = 10 ∧ ErrCode.boundTooLarge.code = 11) ∧
  ∀ (s t : State) (i : Instr), s.phase = .busy i → exec i s = .next t → t.phase = .idle → t.status.err = true →
    t.status.errcode ∈ possibleErrors i

/-! ### The commands -/

/-- 41_primality.md R131. -/
def Obligations.IsprimeTestsPrimality : Prop :=
  encode .isprime = 0x00000001#32 ∧
  ∀ s : State,
    exec .isprime s = .next { s with
      r0 := if 2 ≤ s.opa.toNat ∧ ∀ d < s.opa.toNat, 1 < d → ¬ d ∣ s.opa.toNat then 1 else 0
      phase := .idle
      status := { s.status with done := true, err := false, errcode := .none } }

/-- 42_sieve.md R140, with the list of R141 written as the primes up to the bound. That cells at or above the new PCOUNT keep
their contents is the model's choice (log 8, DESIGN CHOICE; 93_implementation_defined.md U8 leaves them any value); that they
read 0 is R140's. -/
def Obligations.SieveBuildsThePrimeSet : Prop :=
  encode .sieve = 0x00000002#32 ∧
  ∀ s : State,
    (65535 < s.opa.toNat →
      exec .sieve s = .next { s with
        phase := .idle
        status := { s.status with done := true, err := true, errcode := .boundTooLarge } }) ∧
    (s.opa.toNat ≤ 65535 →
      let l := (List.range (s.opa.toNat + 1)).filter fun x => decide (Nat.Prime x)
      ∃ cells, let t : State := { s with
          pram := cells
          pcount := BitVec.ofNat 32 l.length
          pbound := s.opa
          phase := .idle
          status := { s.status with done := true, err := false, pvalid := true, errcode := .none } }
        exec .sieve s = .next t ∧ t.pcount.toNat = l.length ∧ t.primeSet = l ∧
        (∀ i, l.length ≤ i → t.pramAt i = s.pramAt i ∧ t.contents (.pram i) = 0))

/-- 42_sieve.md R143 items 1 to 3: the PrimeSet after a successful SIEVE with bound b. -/
def Obligations.PrimeSetIsTheFirstPrimes : Prop :=
  ∀ s t : State, s.opa.toNat ≤ 65535 → exec .sieve s = .next t →
    t.pcount.toNat = Nat.primeCounting s.opa.toNat ∧
    (∀ i, i < t.pcount.toNat → (t.pramAt i).toNat = Nat.nth Nat.Prime i) ∧
    List.Pairwise (fun x y => x < y) t.primeSet ∧
    (∀ x, x ∈ t.primeSet ↔ isPrimeTD x = true ∧ 2 ≤ x ∧ x ≤ s.opa.toNat) ∧
    ∀ s' t' : State, s'.opa = s.opa → exec .sieve s' = .next t' →
      t'.primeSet = t.primeSet ∧ t'.pcount = t.pcount ∧ t'.pbound = t.pbound

/-- 42_sieve.md R143 item 4, 10_state.md R29: the PrimeSet fits the PRAM, which the largest bound fills to the last entry. -/
def Obligations.PrimeSetFitsThePram : Prop :=
  (∀ s t : State, s.opa.toNat ≤ 65535 → exec .sieve s = .next t → t.pcount.toNat ≤ 6542) ∧
  ∀ s : State, s.opa = 65535#32 → ∃ t, exec .sieve s = .next t ∧ t.pcount = 6542#32 ∧ t.pramAt 6541 = 65521#16

/-- 43_modular_arithmetic.md R152. -/
def Obligations.ModpowRaisesModulo : Prop :=
  encode .modpow = 0x00000003#32 ∧
  ∀ s : State,
    (s.opc = 0 →
      exec .modpow s = .next { s with
        phase := .idle
        status := { s.status with done := true, err := true, errcode := .domainError } }) ∧
    (s.opc ≠ 0 →
      ∃ x : Word, x.toNat = s.opa.toNat ^ s.opb.toNat % s.opc.toNat ∧
        exec .modpow s = .next { s with
          r0 := x
          phase := .idle
          status := { s.status with done := true, err := false, errcode := .none } })

/-- 43_modular_arithmetic.md R155. -/
def Obligations.ModinvInvertsOrReports : Prop :=
  encode .modinv = 0x00000004#32 ∧
  ∀ s : State,
    (s.opb = 0 →
      exec .modinv s = .next { s with
        phase := .idle
        status := { s.status with done := true, err := true, errcode := .domainError } }) ∧
    (2 ≤ s.opb.toNat → Nat.gcd s.opa.toNat s.opb.toNat ≠ 1 →
      exec .modinv s = .next { s with
        phase := .idle
        status := { s.status with done := true, err := true, errcode := .noModularInverse } }) ∧
    (s.opb = 1 →
      exec .modinv s = .next { s with
        r0 := 0
        phase := .idle
        status := { s.status with done := true, err := false, errcode := .none } }) ∧
    (2 ≤ s.opb.toNat → Nat.gcd s.opa.toNat s.opb.toNat = 1 →
      ∃ x : Word, 1 ≤ x.toNat ∧ x.toNat < s.opb.toNat ∧ s.opa.toNat * x.toNat % s.opb.toNat = 1 ∧
        exec .modinv s = .next { s with
          r0 := x
          phase := .idle
          status := { s.status with done := true, err := false, errcode := .none } })

/-- 43_modular_arithmetic.md R158. -/
def Obligations.GcdOfTheOperands : Prop :=
  encode .gcd = 0x00000005#32 ∧
  ∀ s : State,
    ∃ x : Word, x.toNat = Nat.gcd s.opa.toNat s.opb.toNat ∧
      exec .gcd s = .next { s with
        r0 := x
        phase := .idle
        status := { s.status with done := true, err := false, errcode := .none } }

/-- 44_keygen.md R172: stage PICK_P, for every answer d of the entropy source. That an answer is any natural, brought into the
draw's range by its remainder, is the model's choice (log 6); every value in the range is some answer's. -/
def Obligations.KeygenPicksP : Prop :=
  ∀ s : State, s.kg.stage = .pickP →
    (s.pcount.toNat < 2 →
      exec .keygen s = .next { s with
        phase := .idle
        status := { s.status with done := true, err := true, errcode := .insufficientPrimes } }) ∧
    (2 ≤ s.pcount.toNat → ∀ d s', s.Draws d s' →
      exec .keygen s = .next { s' with
        kg := { s.kg with p := (s.pramAt (d % s.pcount.toNat)).toNat, stage := .pickQ } })

/-- 44_keygen.md R173, R174: stage PICK_Q, for every answer d of the entropy source (log 6). R173's pseudocode writes kg.q, kg.n
and kg.m before it raises EMPTY_EXPONENT_RANGE; that kg stays as it was there is the model's reading (log 14, DEDUCED from
00_scope.md R14 and 40_command_lifecycle.md R114). -/
def Obligations.KeygenPicksQ : Prop :=
  ∀ (s : State) (d : Nat) (s' : State), s.kg.stage = .pickQ → s.Draws d s' →
    let q := (s.pramAt (d % s.pcount.toNat)).toNat
    let m := (s.kg.p - 1) * (q - 1)
    (q = s.kg.p → s.cfg.retryLimit = some s.kg.rq →
      exec .keygen s = .next { s' with
        phase := .idle
        status := { s.status with done := true, err := true, errcode := .retryExhausted } }) ∧
    (q = s.kg.p → s.cfg.retryLimit ≠ some s.kg.rq →
      exec .keygen s = .next { s' with kg := { s.kg with rq := s.kg.rq + 1 } }) ∧
    (q ≠ s.kg.p → m < 3 →
      exec .keygen s = .next { s' with
        phase := .idle
        status := { s.status with done := true, err := true, errcode := .emptyExponentRange } }) ∧
    (q ≠ s.kg.p → 3 ≤ m →
      exec .keygen s = .next { s' with kg := { s.kg with q := q, n := s.kg.p * q, m := m, stage := .pickE } })

/-- 44_keygen.md R175: stage PICK_E, for every answer d of the entropy source (log 6). The range [2, m - 1] is not empty there
(R174), which is the hypothesis 3 ≤ m; EveryStepKeepsTheInvariant keeps it (State.keygenInv). -/
def Obligations.KeygenPicksE : Prop :=
  ∀ (s : State) (d : Nat) (s' : State), s.kg.stage = .pickE → 3 ≤ s.kg.m → s.Draws d s' →
    ∃ c, c = 2 + d % (s.kg.m - 2) ∧ 2 ≤ c ∧ c ≤ s.kg.m - 1 ∧
    (Nat.gcd c s.kg.m ≠ 1 → s.cfg.retryLimit = some s.kg.re →
      exec .keygen s = .next { s' with
        phase := .idle
        status := { s.status with done := true, err := true, errcode := .retryExhausted } }) ∧
    (Nat.gcd c s.kg.m ≠ 1 → s.cfg.retryLimit ≠ some s.kg.re →
      exec .keygen s = .next { s' with kg := { s.kg with re := s.kg.re + 1 } }) ∧
    (Nat.gcd c s.kg.m = 1 →
      exec .keygen s = .next { s' with kg := { s.kg with e := c, stage := .finish } })

/-- 44_keygen.md R176: stage FINISH. The totient is at least 2 there (R174; State.keygenInv). -/
def Obligations.KeygenFinishes : Prop :=
  ∀ s : State, s.kg.stage = .finish → 2 ≤ s.kg.m →
    (Nat.gcd s.kg.e s.kg.m ≠ 1 →
      exec .keygen s = .next { s with
        phase := .idle
        status := { s.status with done := true, err := true, errcode := .noModularInverse } }) ∧
    (Nat.gcd s.kg.e s.kg.m = 1 →
      ∃ x, 1 ≤ x ∧ x ≤ s.kg.m - 1 ∧ s.kg.e * x % s.kg.m = 1 ∧
        exec .keygen s = .next { s with
          r0 := BitVec.ofNat 32 s.kg.e
          r1 := BitVec.ofNat 32 x
          r2 := BitVec.ofNat 32 s.kg.n
          phase := .idle
          status := { s.status with done := true, err := false, errcode := .none } })

/-- 44_keygen.md R172 to R176: an accepted KEYGEN whose three draws are accepted completes at its fourth engine step with
R0 = e, R1 = d, R2 = n. The draws are the head of the entropy list and the engine has every turn, both the model's choice of
inputs (logs 1, 6). -/
def Obligations.KeygenCompletesInFourSteps : Prop :=
  ∀ (s : State) (i j c : Nat) (rest : List Nat), s.Inv → s.phase = .busy .keygen → s.kg.stage = .pickP → s.sched = [] →
    i < s.pcount.toNat → j < s.pcount.toNat → s.pramAt i ≠ s.pramAt j →
    let p := (s.pramAt i).toNat
    let q := (s.pramAt j).toNat
    let m := (p - 1) * (q - 1)
    3 ≤ m → c + 2 ≤ m - 1 → Nat.gcd (c + 2) m = 1 → s.entropy = i :: j :: c :: rest →
    ∃ x k, 1 ≤ x ∧ x ≤ m - 1 ∧ (c + 2) * x % m = 1 ∧
      Host.Core.run core 4 s = .next { s with
        r0 := BitVec.ofNat 32 (c + 2)
        r1 := BitVec.ofNat 32 x
        r2 := BitVec.ofNat 32 (p * q)
        kg := k
        entropy := rest
        phase := .idle
        status := { s.status with done := true, err := false, errcode := .none } }

/-- 45_block_codec.md R193, R194, R197: ENCRYPT, with its checks in order, its output and what it leaves alone. -/
def Obligations.EncryptWritesTheBlocks : Prop :=
  encode .encrypt = 0x00000007#32 ∧
  ∀ s : State,
    let k := s.mlen.toNat
    let n := s.opb.toNat
    let refused := n ≥ 100000 ∨ ∃ i, i < k ∧ n ≤ (s.mbufAt i).toNat
    (s.cfg.mbufDepth < k →
      exec .encrypt s = .next { s with
        phase := .idle
        status := { s.status with done := true, err := true, errcode := .lengthRange } }) ∧
    (k ≤ s.cfg.mbufDepth → k = 0 →
      exec .encrypt s = .next { s with
        clen := 0
        phase := .idle
        status := { s.status with done := true, err := false, errcode := .none } }) ∧
    (k ≤ s.cfg.mbufDepth → 1 ≤ k → n = 0 →
      exec .encrypt s = .next { s with
        phase := .idle
        status := { s.status with done := true, err := true, errcode := .domainError } }) ∧
    (k ≤ s.cfg.mbufDepth → 1 ≤ k → 1 ≤ n → s.ctrl.rchk = true → refused →
      exec .encrypt s = .next { s with
        phase := .idle
        status := { s.status with done := true, err := true, errcode := .rangeExceeded } }) ∧
    (k ≤ s.cfg.mbufDepth → 1 ≤ k → 1 ≤ n → ¬ (s.ctrl.rchk = true ∧ refused) →
      ∃ out cells, out = ((List.range k).map fun i => asciiBlock ((s.mbufAt i).toNat ^ s.opa.toNat % n)).flatten ∧
        out.length ≤ s.cfg.cbufDepth ∧
        let t : State := { s with
          cbuf := cells
          clen := BitVec.ofNat 32 out.length
          phase := .idle
          status := { s.status with done := true, err := false, errcode := .none } }
        exec .encrypt s = .next t ∧ (∀ j (h : j < out.length), t.cbufAt j = out[j]) ∧
        ∀ j, out.length ≤ j → t.cbufAt j = s.cbufAt j)

/-- 45_block_codec.md R195, R197: DECRYPT, with its checks in order, its output and what it leaves alone. -/
def Obligations.DecryptWritesTheCodePoints : Prop :=
  encode .decrypt = 0x00000008#32 ∧
  ∀ s : State,
    let l := s.clen.toNat
    let n := s.opb.toNat
    let wellFormed := l % 5 = 0 ∧ ∀ j, j < l → IsDigitCode (s.cbufAt j)
    (s.cfg.cbufDepth < l →
      exec .decrypt s = .next { s with
        phase := .idle
        status := { s.status with done := true, err := true, errcode := .lengthRange } }) ∧
    (l ≤ s.cfg.cbufDepth → l = 0 →
      exec .decrypt s = .next { s with
        mlen := 0
        phase := .idle
        status := { s.status with done := true, err := false, errcode := .none } }) ∧
    (l ≤ s.cfg.cbufDepth → 1 ≤ l → ¬ wellFormed →
      exec .decrypt s = .next { s with
        phase := .idle
        status := { s.status with done := true, err := true, errcode := .malformedCiphertext } }) ∧
    (l ≤ s.cfg.cbufDepth → 1 ≤ l → wellFormed → n = 0 →
      exec .decrypt s = .next { s with
        phase := .idle
        status := { s.status with done := true, err := true, errcode := .domainError } }) ∧
    (l ≤ s.cfg.cbufDepth → 1 ≤ l → wellFormed → 1 ≤ n → s.cfg.mbufDepth < l / 5 →
      exec .decrypt s = .next { s with
        phase := .idle
        status := { s.status with done := true, err := true, errcode := .bufferOverflow } }) ∧
    (l ≤ s.cfg.cbufDepth → 1 ≤ l → wellFormed → 1 ≤ n → l / 5 ≤ s.cfg.mbufDepth →
      ∃ cells, let t : State := { s with
          mbuf := cells
          mlen := BitVec.ofNat 32 (l / 5)
          phase := .idle
          status := { s.status with done := true, err := false, errcode := .none } }
        exec .decrypt s = .next t ∧
        (∀ i, i < l / 5 → (t.mbufAt i).toNat = s.windowValue i ^ s.opa.toNat % n) ∧
        ∀ i, l / 5 ≤ i → t.mbufAt i = s.mbufAt i)

/-! ### Whole-machine rules -/

/-- 45_block_codec.md R194: with RCHK = 1 and a successful ENCRYPT, every block is exactly 5 characters. -/
def Obligations.RangeCheckedBlocksAreFiveWide : Prop :=
  ∀ s t : State, s.Inv → s.phase = .busy .encrypt → s.ctrl.rchk = true → exec .encrypt s = .next t → t.succeeded →
    t.clen.toNat = 5 * s.mlen.toNat ∧ ∀ j, j < t.clen.toNat → IsDigitCode (t.cbufAt j)

/-- 45_block_codec.md R198 item 1: with RCHK = 0 a message of code points beyond n encrypts exactly as the message of their
remainders does. -/
def Obligations.CodePointsBeyondTheModulusAreReduced : Prop :=
  ∀ (s : State) (m : Memory 32), s.ctrl.rchk = false → s.mlen.toNat ≤ s.cfg.mbufDepth → s.opb ≠ 0 →
    (∀ i, i < s.mlen.toNat →
      (State.mbufAt { s with mbuf := m } i).toNat = (s.mbufAt i).toNat % s.opb.toNat) →
    ∃ t, exec .encrypt s = .next t ∧ t.succeeded ∧ exec .encrypt { s with mbuf := m } = .next { t with mbuf := m }

/-- 45_block_codec.md R196: what ENCRYPT encodes with the public key of a keypair, DECRYPT with its private key restores, whatever MBUF and
MLEN hold in between. R196 has no write in between, which is b = MBUF and k = MLEN as ENCRYPT leaves them. -/
def Obligations.DecryptUndoesEncrypt : Prop :=
  ∀ (s : State) (ps : List Nat) (e d n : Nat), s.cfg.wf = true → (∀ x ∈ ps, Nat.Prime x) →
    IsKeypair ps e d n → n ≤ 100000 →
    s.opa = BitVec.ofNat 32 e → s.opb = BitVec.ofNat 32 n → 1 ≤ s.mlen.toNat → s.mlen.toNat ≤ s.cfg.mbufDepth →
    (∀ i, i < s.mlen.toNat → (s.mbufAt i).toNat < n) →
    ∃ t, exec .encrypt s = .next t ∧ t.succeeded ∧ ∀ (b : Memory 32) (k : Word),
      ∃ u, exec .decrypt { t with opa := BitVec.ofNat 32 d, mbuf := b, mlen := k } = .next u ∧
        u.succeeded ∧ u.mlen = s.mlen ∧ ∀ i, i < s.mlen.toNat → u.mbufAt i = s.mbufAt i

/-- 44_keygen.md R177: every successful KEYGEN leaves a keypair over the PrimeSet, n is the square of no prime, and
NO_MODULAR_INVERSE is never raised. -/
def Obligations.KeygenLeavesAKeypair : Prop :=
  ∀ s t : State, s.Inv → s.phase = .busy .keygen → exec .keygen s = .next t →
    t.status.errcode ≠ .noModularInverse ∧
    (t.succeeded →
      IsKeypair t.primeSet t.r0.toNat t.r1.toNat t.r2.toNat ∧ ∀ x, Nat.Prime x → t.r2.toNat ≠ x * x)

/-- 44_keygen.md R179: with RETRY_LIMIT finite every KEYGEN completes after at most 2 · RETRY_LIMIT + 4 engine steps, here with
the engine taking every turn (log 1). -/
def Obligations.KeygenEndsWithinTheRetryBound : Prop :=
  ∀ (s : State) (l : Nat), s.cfg.retryLimit = some l → s.rst = false → s.sched = [] → s.phase = .busy .keygen →
    s.kg.stage = .pickP → s.kg.rq = 0 → s.kg.re = 0 →
    ∃ k t, k ≤ 2 * l + 4 ∧ Host.Core.run core k s = .next t ∧ t.phase = .idle ∧ t.status.done = true

/-- 44_keygen.md R179: with RETRY_LIMIT = INF a KEYGEN whose draws reject is still BUSY after any number of engine steps, here with the engine taking every turn (log 1) and the rejecting draws listed (log 6). -/
def Obligations.KeygenMayHangUnderInf : Prop :=
  ∀ (s : State) (k : Nat), s.cfg.retryLimit = none → s.rst = false → s.sched = [] → s.phase = .busy .keygen →
    k ≤ s.entropy.length →
    ((s.kg.stage = .pickQ ∧ ∀ d ∈ s.entropy.take k, (s.pramAt (d % s.pcount.toNat)).toNat = s.kg.p) ∨
      (s.kg.stage = .pickE ∧ 3 ≤ s.kg.m ∧ ∀ d ∈ s.entropy.take k, Nat.gcd (2 + d % (s.kg.m - 2)) s.kg.m ≠ 1)) →
    ∃ t, Host.Core.run core k s = .next t ∧ t.phase = .busy .keygen ∧ t.kg.stage = s.kg.stage ∧
      t.status = s.status ∧ t.entropy = s.entropy.drop k

/-- The invariant holds right after reset, for every block the spec admits. -/
def Obligations.InvariantHoldsAtReset : Prop :=
  State.reset.Inv ∧ ∀ c : Config, c.wf = true → (State.resetWith c).Inv

/-- Every step of any agent keeps the invariant: canonical buffers within their depths, the PrimeSet exactly the sieve of
PBOUND, a clean STATUS while BUSY, the meaning of the KEYGEN micro-state. -/
def Obligations.EveryStepKeepsTheInvariant : Prop :=
  ∀ s t : State, s.Inv → step s = .next t → t.Inv

/-- 42_sieve.md R142: nothing but a SIEVE (and reset) writes PRAM, PCOUNT, PBOUND or PVALID. -/
def Obligations.OnlySieveWritesThePrimeSet : Prop :=
  ∀ s t : State, step s = .next t → s.phase ≠ .busy .sieve → (∀ b ts, s.sched ≠ .rst b :: ts) →
    t.pram = s.pram ∧ t.pcount = s.pcount ∧ t.pbound = s.pbound ∧ t.status.pvalid = s.status.pvalid

/-- 10_state.md R27: R0, R1 and R2 change only at the successful completion of a command that names them, or at reset. -/
def Obligations.ResultsChangeOnlyAtSuccess : Prop :=
  ∀ s t : State, step s = .next t → (∀ b ts, s.sched ≠ .rst b :: ts) →
    (t.r0 ≠ s.r0 → t.succeeded ∧ ∃ i, s.phase = .busy i ∧ i ∈ [.isprime, .modpow, .modinv, .gcd, .keygen]) ∧
    (t.r1 ≠ s.r1 ∨ t.r2 ≠ s.r2 → t.succeeded ∧ s.phase = .busy .keygen)

/-- 10_state.md R26, R30, R31: no command writes OPA, OPB, OPC or CTRL, only DECRYPT writes MLEN and MBUF, and only ENCRYPT
writes CLEN and CBUF. -/
def Obligations.CommandsKeepOperandsAndForeignBuffers : Prop :=
  ∀ (s t : State) (i : Instr), exec i s = .next t →
    t.cfg = s.cfg ∧ t.opa = s.opa ∧ t.opb = s.opb ∧ t.opc = s.opc ∧ t.ctrl = s.ctrl ∧ t.status.ovr = s.status.ovr ∧
    t.rst = s.rst ∧ t.resp = s.resp ∧ t.epoch = s.epoch ∧
    (i ≠ .decrypt → t.mlen = s.mlen ∧ t.mbuf = s.mbuf) ∧ (i ≠ .encrypt → t.clen = s.clen ∧ t.cbuf = s.cbuf) ∧
    (i ≠ .keygen → t.kg = s.kg ∧ t.entropy = s.entropy ∧ t.freeCount = s.freeCount)

/-- 40_command_lifecycle.md R118: while a command runs, no step of any agent changes an input of it. -/
def Obligations.InputsStayAsAtAcceptance : Prop :=
  ∀ (s t : State) (i : Instr), s.phase = .busy i → step s = .next t → t.phase ≠ .idle →
    t.phase = .busy i ∧ t.opa = s.opa ∧ t.opb = s.opb ∧ t.opc = s.opc ∧ t.mlen = s.mlen ∧ t.clen = s.clen ∧
    t.ctrl = s.ctrl ∧ t.pcount = s.pcount ∧ (∀ j, t.pramAt j = s.pramAt j) ∧ (∀ j, t.mbufAt j = s.mbufAt j) ∧
    ∀ j, t.cbufAt j = s.cbufAt j

/-- 20_memory.md R73, 40_command_lifecycle.md R118: host accesses while a command runs do not change its result. Whatever
accesses come first, the engine's step leaves the same state, up to STATUS.OVR, the bus answer and the model's count of free
values. -/
def Obligations.HostAccessesDoNotChangeTheResult : Prop :=
  ∀ (s t : State) (i : Instr) (l : List Access), s.Inv → s.phase = .busy i → exec i s = .next t →
    ∃ o r n, exec i (s.accesses l) = .next { t with status := { t.status with ovr := o }, resp := r, freeCount := n }

/-- 60_exceptions.md R237, 10_state.md R36: DONE rises only at a completion or at the rejection of an illegal word; every
completion and every rejection leaves `irq` equal to CTRL.IE; and `irq` is high exactly when CTRL bit 0 and STATUS bit 1 read 1,
so a step raises it only together with DONE, or by setting IE with DONE set already: a CTRL write in IDLE, which leaves STATUS as it
was. -/
def Obligations.DoneRisesOnlyAtACompletion : Prop :=
  (∀ s t : State, step s = .next t → s.status.done = false → t.status.done = true →
    t.irq = s.ctrl.ie ∧
    ((∃ i, s.phase = .busy i ∧ t.phase = .idle) ∨
      (s.phase = .idle ∧ t.phase = .idle ∧ t.status.err = true ∧ t.status.errcode = .illegalCommand))) ∧
  (∀ (s t : State) (i : Instr), s.phase = .busy i → exec i s = .next t → t.phase = .idle → t.irq = s.ctrl.ie) ∧
  (∀ (s : State) (w : Word) (why : IllegalWord), s.rst = false → s.phase = .idle → decode w = .illegal why →
    (s.access (s.wordAt 0x10 (.write w))).irq = s.ctrl.ie) ∧
  (∀ s t : State, step s = .next t → s.irq = false → t.irq = true →
    (s.status.done = false ∧ t.status.done = true) ∨
      (s.ctrl.ie = false ∧ t.ctrl.ie = true ∧ s.phase = .idle ∧ t.phase = .idle ∧ t.status = s.status)) ∧
  ∀ s : State, s.rst = false →
    ∃ c w : Word, s.access (s.wordAt 0x08 .read) = { s with resp := some ⟨.okay, some c⟩ } ∧
      s.access (s.wordAt 0x0C .read) = { s with resp := some ⟨.okay, some w⟩ } ∧
      s.irq = (c.getLsbD 0 && w.getLsbD 1)

/-- 60_exceptions.md R220: no command, no bus access, no reset stops the machine, whatever host program is loaded; and without
a host program no step does. -/
def Obligations.TheBlockNeverStops : Prop :=
  (∀ (s : State) (ts : List Turn), s.sched = .engine :: ts → ∃ t, step s = .next t) ∧
  (∀ (s : State) (a : Access) (ts : List Turn), s.sched = .access a :: ts → ∃ t, step s = .next t) ∧
  (∀ (s : State) (b : Bool) (ts : List Turn), s.sched = .rst b :: ts → ∃ t, step s = .next t) ∧
  (∀ (s : State) (i : Instr), s.sched = [] → s.rst = false → s.phase = .busy i → ∃ t, step s = .next t) ∧
  ∀ s : State, s.prog = [] → ∃ t, step s = .next t
end

