-- ==== Sys2Proof/Laws/Arith.lean ====
section
/-! SUPPORT. What each loop of Machine/Arith.lean computes once its fuel suffices. -/

namespace Sys2Proof.Machine

theorem isqrtLoop_spec {fuel n : Nat} (h : n ≤ fuel) :
    isqrtLoop fuel n * isqrtLoop fuel n ≤ n ∧ n < (isqrtLoop fuel n + 1) * (isqrtLoop fuel n + 1) := by
  induction fuel generalizing n with
  | zero =>
    obtain rfl : n = 0 := by omega
    simp [isqrtLoop]
  | succ fuel ih =>
    by_cases hn : n = 0
    · subst hn; simp [isqrtLoop]
    · have h4 := ih (n := n / 4) (by omega)
      simp only [isqrtLoop, if_neg hn]
      generalize isqrtLoop fuel (n / 4) = r at h4
      obtain ⟨h1, h2⟩ := h4
      have h3 : 4 * (r * r) ≤ n := by omega
      have h5 : n < 4 * ((r + 1) * (r + 1)) := by omega
      split
      · refine ⟨by assumption, ?_⟩
        calc n < 4 * ((r + 1) * (r + 1)) := h5
          _ = (2 * r + 1 + 1) * (2 * r + 1 + 1) := by ring
      · refine ⟨?_, by omega⟩
        calc 2 * r * (2 * r) = 4 * (r * r) := by ring
          _ ≤ n := h3

/-- The trial loop answers true when no odd x from its start up to r divides n. -/
theorem trialLoop_iff (n r : Nat) {fuel x : Nat} (h : r < x + 2 * fuel) :
    trialLoop n r fuel x = true ↔ ∀ k, x + 2 * k ≤ r → n % (x + 2 * k) ≠ 0 := by
  induction fuel generalizing x with
  | zero => simp only [trialLoop, true_iff]; intro k hk; omega
  | succ fuel ih =>
    simp only [trialLoop]
    by_cases hx : x < r + 1
    · rw [if_pos hx]
      by_cases hd : n % x = 0
      · rw [if_pos hd]
        simp only [Bool.false_eq_true, false_iff, not_forall]
        exact ⟨0, by omega, by simpa using hd⟩
      · rw [if_neg hd, ih (by omega)]
        constructor
        · intro hk k hle
          cases k with
          | zero => simpa using hd
          | succ k =>
            have := hk k (by omega)
            rwa [show x + 2 * (k + 1) = x + 2 + 2 * k by omega]
        · intro hk k hle
          have := hk (k + 1) (by omega)
          rwa [show x + 2 * (k + 1) = x + 2 + 2 * k by omega] at this
    · rw [if_neg hx]
      simp only [true_iff]
      intro k hk
      omega

/-- The invariant of square-and-multiply (43_modular_arithmetic.md R153). -/
theorem modPowLoop_mod (m : Nat) {fuel e : Nat} (acc base : Nat) (h : e ≤ fuel) :
    modPowLoop m fuel acc base e % m = acc * base ^ e % m := by
  induction fuel generalizing acc base e with
  | zero =>
    obtain rfl : e = 0 := by omega
    simp [modPowLoop]
  | succ fuel ih =>
    by_cases he : 0 < e
    · simp only [modPowLoop, if_pos he]
      rw [ih _ _ (by omega)]
      have key : (base * base % m) ^ (e / 2) ≡ (base * base) ^ (e / 2) [MOD m] := (Nat.mod_modEq _ _).pow _
      by_cases ho : e % 2 = 1
      · rw [if_pos ho]
        have h1 : acc * base % m * (base * base % m) ^ (e / 2) ≡ acc * base * (base * base) ^ (e / 2) [MOD m] :=
          (Nat.mod_modEq _ _).mul key
        rw [show acc * base ^ e = acc * base * (base * base) ^ (e / 2) from by
          conv_lhs => rw [show e = 2 * (e / 2) + 1 by omega]
          rw [pow_succ, pow_mul, pow_two]; ring]
        exact h1
      · rw [if_neg ho]
        have h1 : acc * (base * base % m) ^ (e / 2) ≡ acc * (base * base) ^ (e / 2) [MOD m] := key.mul_left acc
        rw [show acc * base ^ e = acc * (base * base) ^ (e / 2) from by
          conv_lhs => rw [show e = 2 * (e / 2) by omega]
          rw [pow_mul, pow_two]]
        exact h1
    · obtain rfl : e = 0 := by omega
      simp [modPowLoop]

theorem modPowLoop_lt {m : Nat} (fuel e : Nat) {acc : Nat} (base : Nat) (h : acc < m) :
    modPowLoop m fuel acc base e < m := by
  induction fuel generalizing acc base e with
  | zero => simpa [modPowLoop] using h
  | succ fuel ih =>
    simp only [modPowLoop]
    split
    · apply ih
      split
      · exact Nat.mod_lt _ (by omega)
      · exact h
    · exact h

/-- The remainders of the extended Euclidean loop end in the gcd (43_modular_arithmetic.md R154). -/
theorem euclidLoop_fst {fuel r1 : Nat} (r0 : Nat) (s0 s1 : Int) (h : r1 ≤ fuel) :
    (euclidLoop fuel r0 r1 s0 s1).1 = Nat.gcd r0 r1 := by
  induction fuel generalizing r0 r1 s0 s1 with
  | zero =>
    obtain rfl : r1 = 0 := by omega
    simp [euclidLoop]
  | succ fuel ih =>
    by_cases hr : r1 = 0
    · subst hr; simp [euclidLoop]
    · have hm : r0 - r0 / r1 * r1 = r0 % r1 := by
        have := Nat.div_add_mod r0 r1
        rw [Nat.mul_comm] at this
        omega
      have hlt := Nat.mod_lt r0 (Nat.pos_of_ne_zero hr)
      simp only [euclidLoop, if_neg hr, hm]
      rw [ih _ _ _ (by omega), Nat.gcd_comm r0 r1, Nat.gcd_rec r1 r0, Nat.gcd_comm]

/-- The invariant r_i ≡ a·s_i (mod m) of the extended Euclidean loop (43_modular_arithmetic.md R156). -/
theorem euclidLoop_bezout (a m : Int) (fuel r0 r1 : Nat) (s0 s1 : Int) (h0 : a * s0 ≡ (r0 : Int) [ZMOD m])
    (h1 : a * s1 ≡ (r1 : Int) [ZMOD m]) :
    a * (euclidLoop fuel r0 r1 s0 s1).2 ≡ ((euclidLoop fuel r0 r1 s0 s1).1 : Int) [ZMOD m] := by
  induction fuel generalizing r0 r1 s0 s1 with
  | zero => simpa [euclidLoop] using h0
  | succ fuel ih =>
    by_cases hr : r1 = 0
    · subst hr; simpa [euclidLoop] using h0
    · simp only [euclidLoop, if_neg hr]
      refine ih _ _ _ _ h1 ?_
      have hle : r0 / r1 * r1 ≤ r0 := Nat.div_mul_le_self r0 r1
      rw [Nat.cast_sub hle, mul_sub]
      refine h0.sub ?_
      have := h1.mul_left ((r0 / r1 : Nat) : Int)
      push_cast at this ⊢
      calc a * (((r0 : Int) / r1) * s1) = ((r0 : Int) / r1) * (a * s1) := by ring
        _ ≡ ((r0 : Int) / r1) * r1 [ZMOD m] := this

theorem gcdLoop_eq {fuel b : Nat} (a : Nat) (h : b ≤ fuel) : gcdLoop fuel a b = Nat.gcd a b := by
  induction fuel generalizing a b with
  | zero =>
    obtain rfl : b = 0 := by omega
    simp [gcdLoop]
  | succ fuel ih =>
    by_cases hb : b = 0
    · subst hb; simp [gcdLoop]
    · have hlt := Nat.mod_lt a (Nat.pos_of_ne_zero hb)
      simp only [gcdLoop, if_neg hb]
      rw [ih _ (by omega), Nat.gcd_comm a b, Nat.gcd_rec b a, Nat.gcd_comm]

/-- The digit loop puts the decimal digits, most significant first, before what is already made. -/
theorem decimalLoop_eq {fuel v : Nat} (acc : List Byte) (hv : 0 < v) (h : v ≤ fuel) :
    decimalLoop fuel v acc = (Nat.digits 10 v).reverse.map digitChar ++ acc := by
  induction fuel generalizing v acc with
  | zero => omega
  | succ fuel ih =>
    rw [decimalLoop]
    split
    · rename_i hlt
      rw [Nat.digits_of_lt 10 v (by omega) hlt]
      simp
    · rename_i hge
      rw [ih _ (by omega) (by omega), Nat.digits_def' (by omega) hv]
      simp

theorem decimal_zero : decimal 0 = [0x30#8] := by decide

theorem decimal_pos {v : Nat} (h : 0 < v) : decimal v = (Nat.digits 10 v).reverse.map digitChar := by
  rw [decimal, decimalLoop_eq [] h le_rfl, List.append_nil]

end Sys2Proof.Machine
end

