-- ==== Sys2Proof/Laws/Memory.lean ====
section
/-! SUPPORT. The buffers: read after write, what a write leaves alone, and that every operation keeps the canonical form. -/

namespace Sys2Proof.Machine

section
variable {w : Nat}

@[simp] theorem Memory.get_nil (i : Nat) : Memory.get ([] : Memory w) i = none := rfl

theorem Memory.get_cons (a : Nat) (v : BitVec w) (m : Memory w) (i : Nat) :
    Memory.get ((a, v) :: m) i = if a = i then some v else Memory.get m i := rfl

/-- A read after a write to the same entry gives the value written. -/
@[simp] theorem Memory.get_set_same (m : Memory w) (i : Nat) (v : BitVec w) :
    Memory.get (Memory.set m i v) i = some v := by
  induction m with
  | nil => simp [Memory.set, Memory.get_cons]
  | cons c m ih =>
    obtain ⟨a, x⟩ := c
    simp only [Memory.set]
    split
    · simp [Memory.get_cons]
    · split
      · simp [Memory.get_cons]
      · rename_i h
        rw [Memory.get_cons, if_neg (fun e => h e.symm), ih]

/-- A write leaves every other entry alone. -/
theorem Memory.get_set_ne (m : Memory w) {i j : Nat} (v : BitVec w) (h : j ≠ i) :
    Memory.get (Memory.set m i v) j = Memory.get m j := by
  induction m with
  | nil => simp [Memory.set, Memory.get_cons, Ne.symm h]
  | cons c m ih =>
    obtain ⟨a, x⟩ := c
    simp only [Memory.set]
    split
    · simp [Memory.get_cons, Ne.symm h]
    · split
      · rename_i h2
        subst h2
        simp [Memory.get_cons, Ne.symm h]
      · simp only [Memory.get_cons, ih]

theorem Memory.mem_set {m : Memory w} {i : Nat} {v : BitVec w} {c : Nat × BitVec w} (h : c ∈ Memory.set m i v) :
    c = (i, v) ∨ c ∈ m := by
  induction m with
  | nil => simpa [Memory.set] using h
  | cons d m ih =>
    obtain ⟨a, x⟩ := d
    simp only [Memory.set] at h
    split at h
    · simpa using h
    · split at h
      · rcases List.mem_cons.1 h with h | h
        · exact .inl h
        · exact .inr (List.mem_cons_of_mem _ h)
      · rcases List.mem_cons.1 h with h | h
        · exact .inr (h ▸ List.mem_cons_self)
        · exact (ih h).imp_right (List.mem_cons_of_mem _)

/-- A write to one entry keeps the canonical form. -/
theorem Memory.set_wf {m : Memory w} (h : Memory.wf m) (i : Nat) (v : BitVec w) : Memory.wf (Memory.set m i v) := by
  induction m with
  | nil => simp [Memory.set, Memory.wf]
  | cons d m ih =>
    obtain ⟨a, x⟩ := d
    have h1 := List.pairwise_cons.1 h
    simp only [Memory.set]
    split
    · rename_i hlt
      refine List.pairwise_cons.2 ⟨fun c hc => ?_, h⟩
      rcases List.mem_cons.1 hc with hc | hc
      · rw [hc]; exact hlt
      · exact Nat.lt_trans hlt (h1.1 c hc)
    · split
      · rename_i he
        subst he
        exact List.pairwise_cons.2 ⟨h1.1, h1.2⟩
      · refine List.pairwise_cons.2 ⟨fun c hc => ?_, ih h1.2⟩
        rcases Memory.mem_set hc with hc | hc
        · rw [hc]; simp only; omega
        · exact h1.1 c hc

theorem mem_cellsFrom {vs : List (BitVec w)} {i : Nat} {c : Nat × BitVec w} (h : c ∈ cellsFrom i vs) :
    i ≤ c.1 ∧ c.1 < i + vs.length := by
  induction vs generalizing i with
  | nil => simp [cellsFrom] at h
  | cons v vs ih =>
    simp only [cellsFrom, List.mem_cons] at h
    rcases h with h | h
    · rw [h]; simp
    · have := ih h
      simp only [List.length_cons]
      omega

theorem cellsFrom_wf (vs : List (BitVec w)) (i : Nat) : Memory.wf (cellsFrom i vs) := by
  induction vs generalizing i with
  | nil => simp [cellsFrom, Memory.wf]
  | cons v vs ih =>
    refine List.pairwise_cons.2 ⟨fun c hc => ?_, ih (i + 1)⟩
    have := mem_cellsFrom hc
    simp only
    omega

theorem get_cellsFrom (vs : List (BitVec w)) (i j : Nat) :
    Memory.get (cellsFrom i vs) j = if i ≤ j then vs[j - i]? else none := by
  induction vs generalizing i with
  | nil => simp [cellsFrom]
  | cons v vs ih =>
    rw [cellsFrom, Memory.get_cons, ih]
    by_cases h : i = j
    · subst h; simp
    · rw [if_neg h]
      by_cases h2 : i ≤ j
      · rw [if_pos h2, if_pos (by omega)]
        obtain ⟨k, rfl⟩ : ∃ k, j = i + 1 + k := ⟨j - (i + 1), by omega⟩
        simp [show i + 1 + k - i = k + 1 by omega]
      · rw [if_neg h2, if_neg (by omega)]

theorem Memory.get_append (m m' : Memory w) (i : Nat) :
    Memory.get (m ++ m') i = (Memory.get m i).or (Memory.get m' i) := by
  induction m with
  | nil => simp
  | cons d m ih =>
    obtain ⟨a, x⟩ := d
    rw [List.cons_append, Memory.get_cons, Memory.get_cons, ih]
    split <;> simp

theorem Memory.get_filter_ge (m : Memory w) (k i : Nat) :
    Memory.get (m.filter fun c => k ≤ c.1) i = if k ≤ i then Memory.get m i else none := by
  induction m with
  | nil => simp
  | cons d m ih =>
    obtain ⟨a, x⟩ := d
    by_cases ha : k ≤ a
    · rw [List.filter_cons_of_pos (by simpa using ha), Memory.get_cons, Memory.get_cons, ih]
      by_cases hi : a = i
      · subst hi; simp [ha]
      · simp [hi]
    · rw [List.filter_cons_of_neg (by simpa using ha), ih, Memory.get_cons]
      by_cases hi : a = i
      · subst hi; simp [ha]
      · simp [hi]

/-- A command's output: entries [0, len) are what it wrote. -/
theorem Memory.get_fill_lt (m : Memory w) (vs : List (BitVec w)) {i : Nat} (h : i < vs.length) :
    Memory.get (Memory.fill m vs) i = some vs[i] := by
  rw [Memory.fill, Memory.get_append, get_cellsFrom]
  simp [h]

/-- Entries at or above the length written are unchanged. -/
theorem Memory.get_fill_ge (m : Memory w) (vs : List (BitVec w)) {i : Nat} (h : vs.length ≤ i) :
    Memory.get (Memory.fill m vs) i = Memory.get m i := by
  rw [Memory.fill, Memory.get_append, get_cellsFrom, Memory.get_filter_ge]
  simp [h]

theorem Memory.mem_fill {m : Memory w} {vs : List (BitVec w)} {c : Nat × BitVec w} (h : c ∈ Memory.fill m vs) :
    c.1 < vs.length ∨ c ∈ m := by
  rcases List.mem_append.1 h with h | h
  · exact .inl (by simpa using (mem_cellsFrom h).2)
  · exact .inr (List.mem_filter.1 h).1

/-- A command's output keeps the canonical form. -/
theorem Memory.fill_wf {m : Memory w} (h : Memory.wf m) (vs : List (BitVec w)) : Memory.wf (Memory.fill m vs) := by
  refine List.pairwise_append.2 ⟨cellsFrom_wf vs 0, List.Pairwise.filter _ h, fun x hx y hy => ?_⟩
  have h1 := (mem_cellsFrom hx).2
  have h2 := (List.mem_filter.1 hy).2
  simp only [decide_eq_true_eq] at h2
  omega

end

/-- CBUF is a list of the host's cells (Host/Core.lean). -/
theorem Memory.eight_is_cells : Memory 8 = List Host.Cell := rfl

end Sys2Proof.Machine
end

