-- ==== Sys2Proof/Laws/State.lean ====
section
/-! SUPPORT. What each shared update of State leaves in each field, so that no proof unfolds a record update. -/

namespace Sys2Proof.Machine

section
variable (s : State)

@[simp] theorem State.accept_cfg (i : Instr) : (s.accept i).cfg = s.cfg := rfl
@[simp] theorem State.accept_ctrl (i : Instr) : (s.accept i).ctrl = s.ctrl := rfl
@[simp] theorem State.accept_status (i : Instr) : (s.accept i).status = { s.status with done := false, err := false, errcode := .none } := rfl
@[simp] theorem State.accept_opa (i : Instr) : (s.accept i).opa = s.opa := rfl
@[simp] theorem State.accept_opb (i : Instr) : (s.accept i).opb = s.opb := rfl
@[simp] theorem State.accept_opc (i : Instr) : (s.accept i).opc = s.opc := rfl
@[simp] theorem State.accept_r0 (i : Instr) : (s.accept i).r0 = s.r0 := rfl
@[simp] theorem State.accept_r1 (i : Instr) : (s.accept i).r1 = s.r1 := rfl
@[simp] theorem State.accept_r2 (i : Instr) : (s.accept i).r2 = s.r2 := rfl
@[simp] theorem State.accept_pbound (i : Instr) : (s.accept i).pbound = s.pbound := rfl
@[simp] theorem State.accept_pcount (i : Instr) : (s.accept i).pcount = s.pcount := rfl
@[simp] theorem State.accept_mlen (i : Instr) : (s.accept i).mlen = s.mlen := rfl
@[simp] theorem State.accept_clen (i : Instr) : (s.accept i).clen = s.clen := rfl
@[simp] theorem State.accept_pram (i : Instr) : (s.accept i).pram = s.pram := rfl
@[simp] theorem State.accept_mbuf (i : Instr) : (s.accept i).mbuf = s.mbuf := rfl
@[simp] theorem State.accept_cbuf (i : Instr) : (s.accept i).cbuf = s.cbuf := rfl
@[simp] theorem State.accept_phase (i : Instr) : (s.accept i).phase = .busy i := rfl
@[simp] theorem State.accept_kg (i : Instr) : (s.accept i).kg = if i = .keygen then { s.kg with stage := .pickP, rq := 0, re := 0 } else s.kg := rfl
@[simp] theorem State.accept_rst (i : Instr) : (s.accept i).rst = s.rst := rfl
@[simp] theorem State.accept_resp (i : Instr) : (s.accept i).resp = s.resp := rfl
@[simp] theorem State.accept_sched (i : Instr) : (s.accept i).sched = s.sched := rfl
@[simp] theorem State.accept_prog (i : Instr) : (s.accept i).prog = s.prog := rfl
@[simp] theorem State.accept_progPos (i : Instr) : (s.accept i).progPos = s.progPos := rfl
@[simp] theorem State.accept_vars (i : Instr) : (s.accept i).vars = s.vars := rfl
@[simp] theorem State.accept_entropy (i : Instr) : (s.accept i).entropy = s.entropy := rfl
@[simp] theorem State.accept_freeCount (i : Instr) : (s.accept i).freeCount = s.freeCount := rfl
@[simp] theorem State.accept_epoch (i : Instr) : (s.accept i).epoch = s.epoch := rfl

@[simp] theorem State.complete_cfg : (s.complete).cfg = s.cfg := rfl
@[simp] theorem State.complete_ctrl : (s.complete).ctrl = s.ctrl := rfl
@[simp] theorem State.complete_status : (s.complete).status = { s.status with done := true, err := false, errcode := .none } := rfl
@[simp] theorem State.complete_opa : (s.complete).opa = s.opa := rfl
@[simp] theorem State.complete_opb : (s.complete).opb = s.opb := rfl
@[simp] theorem State.complete_opc : (s.complete).opc = s.opc := rfl
@[simp] theorem State.complete_r0 : (s.complete).r0 = s.r0 := rfl
@[simp] theorem State.complete_r1 : (s.complete).r1 = s.r1 := rfl
@[simp] theorem State.complete_r2 : (s.complete).r2 = s.r2 := rfl
@[simp] theorem State.complete_pbound : (s.complete).pbound = s.pbound := rfl
@[simp] theorem State.complete_pcount : (s.complete).pcount = s.pcount := rfl
@[simp] theorem State.complete_mlen : (s.complete).mlen = s.mlen := rfl
@[simp] theorem State.complete_clen : (s.complete).clen = s.clen := rfl
@[simp] theorem State.complete_pram : (s.complete).pram = s.pram := rfl
@[simp] theorem State.complete_mbuf : (s.complete).mbuf = s.mbuf := rfl
@[simp] theorem State.complete_cbuf : (s.complete).cbuf = s.cbuf := rfl
@[simp] theorem State.complete_phase : (s.complete).phase = .idle := rfl
@[simp] theorem State.complete_kg : (s.complete).kg = s.kg := rfl
@[simp] theorem State.complete_rst : (s.complete).rst = s.rst := rfl
@[simp] theorem State.complete_resp : (s.complete).resp = s.resp := rfl
@[simp] theorem State.complete_sched : (s.complete).sched = s.sched := rfl
@[simp] theorem State.complete_prog : (s.complete).prog = s.prog := rfl
@[simp] theorem State.complete_progPos : (s.complete).progPos = s.progPos := rfl
@[simp] theorem State.complete_vars : (s.complete).vars = s.vars := rfl
@[simp] theorem State.complete_entropy : (s.complete).entropy = s.entropy := rfl
@[simp] theorem State.complete_freeCount : (s.complete).freeCount = s.freeCount := rfl
@[simp] theorem State.complete_epoch : (s.complete).epoch = s.epoch := rfl

@[simp] theorem State.raise_cfg (c : ErrCode) : (s.raise c).cfg = s.cfg := rfl
@[simp] theorem State.raise_ctrl (c : ErrCode) : (s.raise c).ctrl = s.ctrl := rfl
@[simp] theorem State.raise_status (c : ErrCode) : (s.raise c).status = { s.status with done := true, err := true, errcode := c } := rfl
@[simp] theorem State.raise_opa (c : ErrCode) : (s.raise c).opa = s.opa := rfl
@[simp] theorem State.raise_opb (c : ErrCode) : (s.raise c).opb = s.opb := rfl
@[simp] theorem State.raise_opc (c : ErrCode) : (s.raise c).opc = s.opc := rfl
@[simp] theorem State.raise_r0 (c : ErrCode) : (s.raise c).r0 = s.r0 := rfl
@[simp] theorem State.raise_r1 (c : ErrCode) : (s.raise c).r1 = s.r1 := rfl
@[simp] theorem State.raise_r2 (c : ErrCode) : (s.raise c).r2 = s.r2 := rfl
@[simp] theorem State.raise_pbound (c : ErrCode) : (s.raise c).pbound = s.pbound := rfl
@[simp] theorem State.raise_pcount (c : ErrCode) : (s.raise c).pcount = s.pcount := rfl
@[simp] theorem State.raise_mlen (c : ErrCode) : (s.raise c).mlen = s.mlen := rfl
@[simp] theorem State.raise_clen (c : ErrCode) : (s.raise c).clen = s.clen := rfl
@[simp] theorem State.raise_pram (c : ErrCode) : (s.raise c).pram = s.pram := rfl
@[simp] theorem State.raise_mbuf (c : ErrCode) : (s.raise c).mbuf = s.mbuf := rfl
@[simp] theorem State.raise_cbuf (c : ErrCode) : (s.raise c).cbuf = s.cbuf := rfl
@[simp] theorem State.raise_phase (c : ErrCode) : (s.raise c).phase = .idle := rfl
@[simp] theorem State.raise_kg (c : ErrCode) : (s.raise c).kg = s.kg := rfl
@[simp] theorem State.raise_rst (c : ErrCode) : (s.raise c).rst = s.rst := rfl
@[simp] theorem State.raise_resp (c : ErrCode) : (s.raise c).resp = s.resp := rfl
@[simp] theorem State.raise_sched (c : ErrCode) : (s.raise c).sched = s.sched := rfl
@[simp] theorem State.raise_prog (c : ErrCode) : (s.raise c).prog = s.prog := rfl
@[simp] theorem State.raise_progPos (c : ErrCode) : (s.raise c).progPos = s.progPos := rfl
@[simp] theorem State.raise_vars (c : ErrCode) : (s.raise c).vars = s.vars := rfl
@[simp] theorem State.raise_entropy (c : ErrCode) : (s.raise c).entropy = s.entropy := rfl
@[simp] theorem State.raise_freeCount (c : ErrCode) : (s.raise c).freeCount = s.freeCount := rfl
@[simp] theorem State.raise_epoch (c : ErrCode) : (s.raise c).epoch = s.epoch := rfl

@[simp] theorem State.reject_cfg : (s.reject).cfg = s.cfg := rfl
@[simp] theorem State.reject_ctrl : (s.reject).ctrl = s.ctrl := rfl
@[simp] theorem State.reject_status : (s.reject).status = { s.status with done := true, err := true, errcode := .illegalCommand } := rfl
@[simp] theorem State.reject_opa : (s.reject).opa = s.opa := rfl
@[simp] theorem State.reject_opb : (s.reject).opb = s.opb := rfl
@[simp] theorem State.reject_opc : (s.reject).opc = s.opc := rfl
@[simp] theorem State.reject_r0 : (s.reject).r0 = s.r0 := rfl
@[simp] theorem State.reject_r1 : (s.reject).r1 = s.r1 := rfl
@[simp] theorem State.reject_r2 : (s.reject).r2 = s.r2 := rfl
@[simp] theorem State.reject_pbound : (s.reject).pbound = s.pbound := rfl
@[simp] theorem State.reject_pcount : (s.reject).pcount = s.pcount := rfl
@[simp] theorem State.reject_mlen : (s.reject).mlen = s.mlen := rfl
@[simp] theorem State.reject_clen : (s.reject).clen = s.clen := rfl
@[simp] theorem State.reject_pram : (s.reject).pram = s.pram := rfl
@[simp] theorem State.reject_mbuf : (s.reject).mbuf = s.mbuf := rfl
@[simp] theorem State.reject_cbuf : (s.reject).cbuf = s.cbuf := rfl
@[simp] theorem State.reject_phase : (s.reject).phase = s.phase := rfl
@[simp] theorem State.reject_kg : (s.reject).kg = s.kg := rfl
@[simp] theorem State.reject_rst : (s.reject).rst = s.rst := rfl
@[simp] theorem State.reject_resp : (s.reject).resp = s.resp := rfl
@[simp] theorem State.reject_sched : (s.reject).sched = s.sched := rfl
@[simp] theorem State.reject_prog : (s.reject).prog = s.prog := rfl
@[simp] theorem State.reject_progPos : (s.reject).progPos = s.progPos := rfl
@[simp] theorem State.reject_vars : (s.reject).vars = s.vars := rfl
@[simp] theorem State.reject_entropy : (s.reject).entropy = s.entropy := rfl
@[simp] theorem State.reject_freeCount : (s.reject).freeCount = s.freeCount := rfl
@[simp] theorem State.reject_epoch : (s.reject).epoch = s.epoch := rfl

@[simp] theorem State.acknowledge_cfg (v : Word) : (s.acknowledge v).cfg = s.cfg := rfl
@[simp] theorem State.acknowledge_ctrl (v : Word) : (s.acknowledge v).ctrl = s.ctrl := rfl
@[simp] theorem State.acknowledge_status (v : Word) : (s.acknowledge v).status = s.status.w1c v := rfl
@[simp] theorem State.acknowledge_opa (v : Word) : (s.acknowledge v).opa = s.opa := rfl
@[simp] theorem State.acknowledge_opb (v : Word) : (s.acknowledge v).opb = s.opb := rfl
@[simp] theorem State.acknowledge_opc (v : Word) : (s.acknowledge v).opc = s.opc := rfl
@[simp] theorem State.acknowledge_r0 (v : Word) : (s.acknowledge v).r0 = s.r0 := rfl
@[simp] theorem State.acknowledge_r1 (v : Word) : (s.acknowledge v).r1 = s.r1 := rfl
@[simp] theorem State.acknowledge_r2 (v : Word) : (s.acknowledge v).r2 = s.r2 := rfl
@[simp] theorem State.acknowledge_pbound (v : Word) : (s.acknowledge v).pbound = s.pbound := rfl
@[simp] theorem State.acknowledge_pcount (v : Word) : (s.acknowledge v).pcount = s.pcount := rfl
@[simp] theorem State.acknowledge_mlen (v : Word) : (s.acknowledge v).mlen = s.mlen := rfl
@[simp] theorem State.acknowledge_clen (v : Word) : (s.acknowledge v).clen = s.clen := rfl
@[simp] theorem State.acknowledge_pram (v : Word) : (s.acknowledge v).pram = s.pram := rfl
@[simp] theorem State.acknowledge_mbuf (v : Word) : (s.acknowledge v).mbuf = s.mbuf := rfl
@[simp] theorem State.acknowledge_cbuf (v : Word) : (s.acknowledge v).cbuf = s.cbuf := rfl
@[simp] theorem State.acknowledge_phase (v : Word) : (s.acknowledge v).phase = s.phase := rfl
@[simp] theorem State.acknowledge_kg (v : Word) : (s.acknowledge v).kg = s.kg := rfl
@[simp] theorem State.acknowledge_rst (v : Word) : (s.acknowledge v).rst = s.rst := rfl
@[simp] theorem State.acknowledge_resp (v : Word) : (s.acknowledge v).resp = s.resp := rfl
@[simp] theorem State.acknowledge_sched (v : Word) : (s.acknowledge v).sched = s.sched := rfl
@[simp] theorem State.acknowledge_prog (v : Word) : (s.acknowledge v).prog = s.prog := rfl
@[simp] theorem State.acknowledge_progPos (v : Word) : (s.acknowledge v).progPos = s.progPos := rfl
@[simp] theorem State.acknowledge_vars (v : Word) : (s.acknowledge v).vars = s.vars := rfl
@[simp] theorem State.acknowledge_entropy (v : Word) : (s.acknowledge v).entropy = s.entropy := rfl
@[simp] theorem State.acknowledge_freeCount (v : Word) : (s.acknowledge v).freeCount = s.freeCount := rfl
@[simp] theorem State.acknowledge_epoch (v : Word) : (s.acknowledge v).epoch = s.epoch := rfl

@[simp] theorem State.drop_cfg : (s.drop).cfg = s.cfg := rfl
@[simp] theorem State.drop_ctrl : (s.drop).ctrl = s.ctrl := rfl
@[simp] theorem State.drop_status : (s.drop).status = { s.status with ovr := true } := rfl
@[simp] theorem State.drop_opa : (s.drop).opa = s.opa := rfl
@[simp] theorem State.drop_opb : (s.drop).opb = s.opb := rfl
@[simp] theorem State.drop_opc : (s.drop).opc = s.opc := rfl
@[simp] theorem State.drop_r0 : (s.drop).r0 = s.r0 := rfl
@[simp] theorem State.drop_r1 : (s.drop).r1 = s.r1 := rfl
@[simp] theorem State.drop_r2 : (s.drop).r2 = s.r2 := rfl
@[simp] theorem State.drop_pbound : (s.drop).pbound = s.pbound := rfl
@[simp] theorem State.drop_pcount : (s.drop).pcount = s.pcount := rfl
@[simp] theorem State.drop_mlen : (s.drop).mlen = s.mlen := rfl
@[simp] theorem State.drop_clen : (s.drop).clen = s.clen := rfl
@[simp] theorem State.drop_pram : (s.drop).pram = s.pram := rfl
@[simp] theorem State.drop_mbuf : (s.drop).mbuf = s.mbuf := rfl
@[simp] theorem State.drop_cbuf : (s.drop).cbuf = s.cbuf := rfl
@[simp] theorem State.drop_phase : (s.drop).phase = s.phase := rfl
@[simp] theorem State.drop_kg : (s.drop).kg = s.kg := rfl
@[simp] theorem State.drop_rst : (s.drop).rst = s.rst := rfl
@[simp] theorem State.drop_resp : (s.drop).resp = s.resp := rfl
@[simp] theorem State.drop_sched : (s.drop).sched = s.sched := rfl
@[simp] theorem State.drop_prog : (s.drop).prog = s.prog := rfl
@[simp] theorem State.drop_progPos : (s.drop).progPos = s.progPos := rfl
@[simp] theorem State.drop_vars : (s.drop).vars = s.vars := rfl
@[simp] theorem State.drop_entropy : (s.drop).entropy = s.entropy := rfl
@[simp] theorem State.drop_freeCount : (s.drop).freeCount = s.freeCount := rfl
@[simp] theorem State.drop_epoch : (s.drop).epoch = s.epoch := rfl

@[simp] theorem State.nextLine_cfg : (s.nextLine).cfg = s.cfg := rfl
@[simp] theorem State.nextLine_ctrl : (s.nextLine).ctrl = s.ctrl := rfl
@[simp] theorem State.nextLine_status : (s.nextLine).status = s.status := rfl
@[simp] theorem State.nextLine_opa : (s.nextLine).opa = s.opa := rfl
@[simp] theorem State.nextLine_opb : (s.nextLine).opb = s.opb := rfl
@[simp] theorem State.nextLine_opc : (s.nextLine).opc = s.opc := rfl
@[simp] theorem State.nextLine_r0 : (s.nextLine).r0 = s.r0 := rfl
@[simp] theorem State.nextLine_r1 : (s.nextLine).r1 = s.r1 := rfl
@[simp] theorem State.nextLine_r2 : (s.nextLine).r2 = s.r2 := rfl
@[simp] theorem State.nextLine_pbound : (s.nextLine).pbound = s.pbound := rfl
@[simp] theorem State.nextLine_pcount : (s.nextLine).pcount = s.pcount := rfl
@[simp] theorem State.nextLine_mlen : (s.nextLine).mlen = s.mlen := rfl
@[simp] theorem State.nextLine_clen : (s.nextLine).clen = s.clen := rfl
@[simp] theorem State.nextLine_pram : (s.nextLine).pram = s.pram := rfl
@[simp] theorem State.nextLine_mbuf : (s.nextLine).mbuf = s.mbuf := rfl
@[simp] theorem State.nextLine_cbuf : (s.nextLine).cbuf = s.cbuf := rfl
@[simp] theorem State.nextLine_phase : (s.nextLine).phase = s.phase := rfl
@[simp] theorem State.nextLine_kg : (s.nextLine).kg = s.kg := rfl
@[simp] theorem State.nextLine_rst : (s.nextLine).rst = s.rst := rfl
@[simp] theorem State.nextLine_resp : (s.nextLine).resp = s.resp := rfl
@[simp] theorem State.nextLine_sched : (s.nextLine).sched = s.sched := rfl
@[simp] theorem State.nextLine_prog : (s.nextLine).prog = s.prog := rfl
@[simp] theorem State.nextLine_progPos : (s.nextLine).progPos = s.progPos + 1 := rfl
@[simp] theorem State.nextLine_vars : (s.nextLine).vars = s.vars := rfl
@[simp] theorem State.nextLine_entropy : (s.nextLine).entropy = s.entropy := rfl
@[simp] theorem State.nextLine_freeCount : (s.nextLine).freeCount = s.freeCount := rfl
@[simp] theorem State.nextLine_epoch : (s.nextLine).epoch = s.epoch := rfl

@[simp] theorem State.resetEdge_cfg (b : Bool) : (s.resetEdge b).cfg = (State.resetWith s.cfg).cfg := rfl
@[simp] theorem State.resetEdge_ctrl (b : Bool) : (s.resetEdge b).ctrl = (State.resetWith s.cfg).ctrl := rfl
@[simp] theorem State.resetEdge_status (b : Bool) : (s.resetEdge b).status = (State.resetWith s.cfg).status := rfl
@[simp] theorem State.resetEdge_opa (b : Bool) : (s.resetEdge b).opa = (State.resetWith s.cfg).opa := rfl
@[simp] theorem State.resetEdge_opb (b : Bool) : (s.resetEdge b).opb = (State.resetWith s.cfg).opb := rfl
@[simp] theorem State.resetEdge_opc (b : Bool) : (s.resetEdge b).opc = (State.resetWith s.cfg).opc := rfl
@[simp] theorem State.resetEdge_r0 (b : Bool) : (s.resetEdge b).r0 = (State.resetWith s.cfg).r0 := rfl
@[simp] theorem State.resetEdge_r1 (b : Bool) : (s.resetEdge b).r1 = (State.resetWith s.cfg).r1 := rfl
@[simp] theorem State.resetEdge_r2 (b : Bool) : (s.resetEdge b).r2 = (State.resetWith s.cfg).r2 := rfl
@[simp] theorem State.resetEdge_pbound (b : Bool) : (s.resetEdge b).pbound = (State.resetWith s.cfg).pbound := rfl
@[simp] theorem State.resetEdge_pcount (b : Bool) : (s.resetEdge b).pcount = (State.resetWith s.cfg).pcount := rfl
@[simp] theorem State.resetEdge_mlen (b : Bool) : (s.resetEdge b).mlen = (State.resetWith s.cfg).mlen := rfl
@[simp] theorem State.resetEdge_clen (b : Bool) : (s.resetEdge b).clen = (State.resetWith s.cfg).clen := rfl
@[simp] theorem State.resetEdge_pram (b : Bool) : (s.resetEdge b).pram = (State.resetWith s.cfg).pram := rfl
@[simp] theorem State.resetEdge_mbuf (b : Bool) : (s.resetEdge b).mbuf = (State.resetWith s.cfg).mbuf := rfl
@[simp] theorem State.resetEdge_cbuf (b : Bool) : (s.resetEdge b).cbuf = (State.resetWith s.cfg).cbuf := rfl
@[simp] theorem State.resetEdge_phase (b : Bool) : (s.resetEdge b).phase = (State.resetWith s.cfg).phase := rfl
@[simp] theorem State.resetEdge_kg (b : Bool) : (s.resetEdge b).kg = (State.resetWith s.cfg).kg := rfl
@[simp] theorem State.resetEdge_rst (b : Bool) : (s.resetEdge b).rst = b := rfl
@[simp] theorem State.resetEdge_resp (b : Bool) : (s.resetEdge b).resp = s.resp := rfl
@[simp] theorem State.resetEdge_sched (b : Bool) : (s.resetEdge b).sched = s.sched := rfl
@[simp] theorem State.resetEdge_prog (b : Bool) : (s.resetEdge b).prog = s.prog := rfl
@[simp] theorem State.resetEdge_progPos (b : Bool) : (s.resetEdge b).progPos = s.progPos := rfl
@[simp] theorem State.resetEdge_vars (b : Bool) : (s.resetEdge b).vars = s.vars := rfl
@[simp] theorem State.resetEdge_entropy (b : Bool) : (s.resetEdge b).entropy = s.entropy := rfl
@[simp] theorem State.resetEdge_freeCount (b : Bool) : (s.resetEdge b).freeCount = s.freeCount := rfl
@[simp] theorem State.resetEdge_epoch (b : Bool) : (s.resetEdge b).epoch = s.epoch + 1 := rfl

@[simp] theorem State.drawn_cfg : s.drawn.cfg = s.cfg := by unfold State.drawn; split <;> rfl
@[simp] theorem State.drawn_ctrl : s.drawn.ctrl = s.ctrl := by unfold State.drawn; split <;> rfl
@[simp] theorem State.drawn_status : s.drawn.status = s.status := by unfold State.drawn; split <;> rfl
@[simp] theorem State.drawn_opa : s.drawn.opa = s.opa := by unfold State.drawn; split <;> rfl
@[simp] theorem State.drawn_opb : s.drawn.opb = s.opb := by unfold State.drawn; split <;> rfl
@[simp] theorem State.drawn_opc : s.drawn.opc = s.opc := by unfold State.drawn; split <;> rfl
@[simp] theorem State.drawn_r0 : s.drawn.r0 = s.r0 := by unfold State.drawn; split <;> rfl
@[simp] theorem State.drawn_r1 : s.drawn.r1 = s.r1 := by unfold State.drawn; split <;> rfl
@[simp] theorem State.drawn_r2 : s.drawn.r2 = s.r2 := by unfold State.drawn; split <;> rfl
@[simp] theorem State.drawn_pbound : s.drawn.pbound = s.pbound := by unfold State.drawn; split <;> rfl
@[simp] theorem State.drawn_pcount : s.drawn.pcount = s.pcount := by unfold State.drawn; split <;> rfl
@[simp] theorem State.drawn_mlen : s.drawn.mlen = s.mlen := by unfold State.drawn; split <;> rfl
@[simp] theorem State.drawn_clen : s.drawn.clen = s.clen := by unfold State.drawn; split <;> rfl
@[simp] theorem State.drawn_pram : s.drawn.pram = s.pram := by unfold State.drawn; split <;> rfl
@[simp] theorem State.drawn_mbuf : s.drawn.mbuf = s.mbuf := by unfold State.drawn; split <;> rfl
@[simp] theorem State.drawn_cbuf : s.drawn.cbuf = s.cbuf := by unfold State.drawn; split <;> rfl
@[simp] theorem State.drawn_phase : s.drawn.phase = s.phase := by unfold State.drawn; split <;> rfl
@[simp] theorem State.drawn_kg : s.drawn.kg = s.kg := by unfold State.drawn; split <;> rfl
@[simp] theorem State.drawn_rst : s.drawn.rst = s.rst := by unfold State.drawn; split <;> rfl
@[simp] theorem State.drawn_resp : s.drawn.resp = s.resp := by unfold State.drawn; split <;> rfl
@[simp] theorem State.drawn_sched : s.drawn.sched = s.sched := by unfold State.drawn; split <;> rfl
@[simp] theorem State.drawn_prog : s.drawn.prog = s.prog := by unfold State.drawn; split <;> rfl
@[simp] theorem State.drawn_progPos : s.drawn.progPos = s.progPos := by unfold State.drawn; split <;> rfl
@[simp] theorem State.drawn_vars : s.drawn.vars = s.vars := by unfold State.drawn; split <;> rfl
@[simp] theorem State.drawn_epoch : s.drawn.epoch = s.epoch := by unfold State.drawn; split <;> rfl

end

end Sys2Proof.Machine
end

