-- ==== Sys2Proof/Laws/Bus.lean ====
section
/-! SUPPORT. Everything a host bus access can do, said once: proofs cite `access_cases` and `writeTarget_effect` and do not
unfold the bus. -/

namespace Sys2Proof.Machine

theorem State.busy_iff (s : State) : s.busy = true ↔ s.phase ≠ .idle := by
  unfold State.busy
  cases s.phase <;> simp

theorem State.unlessBusy_idle {s : State} (h : s.phase = .idle) (store : State) : s.unlessBusy store = store := by
  simp [State.unlessBusy, State.busy, h]

theorem State.unlessBusy_busy {s : State} (h : s.phase ≠ .idle) (store : State) : s.unlessBusy store = s.drop := by
  rw [State.unlessBusy, if_pos ((State.busy_iff s).2 h)]

/-- A target that an offset reaches lies within its depth (20_memory.md R64 to R67). -/
theorem targetAt_bounds {c : Config} {o : Nat} {t : Target} (h : targetAt c o = some t) :
    match t with
    | .reg _ => True
    | .pram i => i < psetDepth
    | .mbuf i => i < c.mbufDepth
    | .cbuf i => i < c.cbufDepth := by
  unfold targetAt at h
  split at h
  · cases hr : regAt o with
    | none => simp [hr] at h
    | some r => simp [hr] at h; subst h; trivial
  · split at h
    · split at h
      · cases h; assumption
      · cases h
    · split at h
      · split at h
        · cases h; assumption
        · cases h
      · split at h
        · split at h
          · cases h; assumption
          · cases h
        · cases h

/-- The states a write of v to the target t can lead to (20_memory.md R63 to R67, 40_command_lifecycle.md R111, R115, R116). -/
inductive WriteEffect (s : State) (v : Word) : Target → State → Prop where
  | ignored (t) : WriteEffect s v t s
  | acknowledged (t) : WriteEffect s v t (s.acknowledge v)
  | dropped (t) : s.phase ≠ .idle → WriteEffect s v t s.drop
  | accepted (t i) : s.phase = .idle → decode v = .legal i → WriteEffect s v t (s.accept i)
  | rejected (t why) : s.phase = .idle → decode v = .illegal why → WriteEffect s v t s.reject
  | stored (t c a b k m l) : s.phase = .idle →
      WriteEffect s v t { s with ctrl := c, opa := a, opb := b, opc := k, mlen := m, clen := l }
  | mbuf (i) : s.phase = .idle → WriteEffect s v (.mbuf i) { s with mbuf := s.mbuf.set i v }
  | cbuf (i) : s.phase = .idle → WriteEffect s v (.cbuf i) { s with cbuf := s.cbuf.set i (v.setWidth 8) }

theorem WriteEffect.unlessBusy {s : State} {v : Word} {t : Target} {store : State}
    (h : s.phase = .idle → WriteEffect s v t store) : WriteEffect s v t (s.unlessBusy store) := by
  by_cases hp : s.phase = .idle
  · rw [State.unlessBusy_idle hp]; exact h hp
  · rw [State.unlessBusy_busy hp]; exact .dropped t hp

/-- What a write to a target that exists can do. -/
theorem State.writeTarget_effect (s : State) (t : Target) (v : Word) : WriteEffect s v t (s.writeTarget t v) := by
  cases t with
  | pram i => exact .ignored _
  | mbuf i => exact .unlessBusy (.mbuf i)
  | cbuf i => exact .unlessBusy (.cbuf i)
  | reg r =>
    cases r with
    | id | cap | r0 | r1 | r2 | pbound | pcount => exact .ignored _
    | status => exact .acknowledged _
    | ctrl | opa | opb | opc | mlen | clen => exact .unlessBusy (.stored _ _ _ _ _ _ _)
    | cmd =>
      change WriteEffect s v _ (s.request v)
      unfold State.request
      cases hp : s.phase with
      | busy j => exact .dropped _ (by simp [hp])
      | idle =>
        cases hd : decode v with
        | legal i => exact .accepted _ i hp hd
        | illegal why => exact .rejected _ why hp hd

/-- What a bus access can do: it changes only the bus answer (and, for an unspecified read, how many free values have been
used), or it is a write to a target that exists (20_memory.md R60 to R69). -/
theorem State.access_cases (s : State) (a : Access) :
    (∃ r, s.access a = { s with resp := r }) ∨
    (∃ r t, readUnspecified s.phase t = true ∧ s.access a = { s with resp := r, freeCount := s.freeCount + 1 }) ∨
    (∃ o t v, s.rst = false ∧ targetAt s.cfg o = some t ∧ a.dir = .write v ∧
      s.access a = { s.writeTarget t v with resp := some ⟨.okay, none⟩ }) := by
  unfold State.access
  cases offsetOf s.cfg a.addr with
  | none => exact .inl ⟨none, rfl⟩
  | some o =>
    simp only [State.accessAt]
    split
    · exact .inl ⟨_, rfl⟩
    · rename_i hc
      have hr : s.rst = false := by
        cases h : s.rst <;> simp_all
      cases ht : targetAt s.cfg o with
      | none => exact .inl ⟨_, rfl⟩
      | some t =>
        cases hd : a.dir with
        | read =>
          simp only [State.readTarget]
          split
          · rename_i hu
            exact .inr (.inl ⟨_, t, hu, rfl⟩)
          · exact .inl ⟨_, rfl⟩
        | write v => exact .inr (.inr ⟨o, t, v, hr, ht, rfl, rfl⟩)

end Sys2Proof.Machine
end

