-- ==== Sys2Proof/Laws/Exec.lean ====
section
/-! SUPPORT. Everything the engine's step of a command can do, said once: proofs over all commands cite `exec_cases`. -/

namespace Sys2Proof.Machine

/-- The ways a KEYGEN step can end (44_keygen.md R172 to R176). -/
theorem execKeygen_cases {s t : State} (h : execKeygen s = .next t) :
    (∃ c, c ≠ .none ∧ (t = s.raise c ∨ t = s.drawn.raise c)) ∨
    (∃ k, t = { s.drawn with kg := k }) ∨
    (s.kg.stage = .finish ∧ ∃ x, modInv s.kg.e s.kg.m = some x ∧
      t = State.complete { s with
        r0 := BitVec.ofNat 32 s.kg.e, r1 := BitVec.ofNat 32 x, r2 := BitVec.ofNat 32 s.kg.n }) := by
  unfold execKeygen at h
  split at h
  · unfold keygenPickP at h
    split at h <;> cases h
    · exact .inl ⟨.insufficientPrimes, nofun, .inl rfl⟩
    · exact .inr (.inl ⟨_, rfl⟩)
  · simp only [keygenPickQ] at h
    repeat' split at h
    all_goals cases h
    · exact .inl ⟨.retryExhausted, nofun, .inr rfl⟩
    · exact .inr (.inl ⟨_, rfl⟩)
    · exact .inl ⟨.emptyExponentRange, nofun, .inr rfl⟩
    · exact .inr (.inl ⟨_, rfl⟩)
  · simp only [keygenPickE] at h
    repeat' split at h
    all_goals cases h
    · exact .inl ⟨.retryExhausted, nofun, .inr rfl⟩
    · exact .inr (.inl ⟨_, rfl⟩)
    · exact .inr (.inl ⟨_, rfl⟩)
  · rename_i hs
    unfold keygenFinish at h
    split at h <;> cases h
    · exact .inl ⟨.noModularInverse, nofun, .inl rfl⟩
    · rename_i x hx
      exact .inr (.inr ⟨hs, x, hx, rfl⟩)

/-- The ways an ENCRYPT can end (45_block_codec.md R193). -/
theorem execEncrypt_cases {s t : State} (h : execEncrypt s = .next t) :
    (∃ c, c ≠ .none ∧ t = s.raise c) ∨
    t = State.complete { s with clen := 0 } ∨
    (∃ out, out.length ≤ s.cfg.cbufDepth ∧
      out = cipher (s.codePoints s.mlen.toNat) s.operandA s.operandB ∧
      t = State.complete { s with cbuf := s.cbuf.fill out, clen := BitVec.ofNat 32 out.length }) := by
  simp only [execEncrypt] at h
  repeat' split at h
  all_goals cases h
  · exact .inl ⟨.lengthRange, nofun, rfl⟩
  · exact .inr (.inl rfl)
  · exact .inl ⟨.domainError, nofun, rfl⟩
  · exact .inl ⟨.rangeExceeded, nofun, rfl⟩
  · exact .inl ⟨.bufferOverflow, nofun, rfl⟩
  · exact .inr (.inr ⟨_, by omega, rfl, rfl⟩)

/-- The ways a DECRYPT can end (45_block_codec.md R195). -/
theorem execDecrypt_cases {s t : State} (h : execDecrypt s = .next t) :
    (∃ c, c ≠ .none ∧ t = s.raise c) ∨
    t = State.complete { s with mlen := 0 } ∨
    (∃ k out, out.length = k ∧ k ≤ s.cfg.mbufDepth ∧ k = s.clen.toNat / 5 ∧
      t = State.complete { s with mbuf := s.mbuf.fill out, mlen := BitVec.ofNat 32 k }) := by
  simp only [execDecrypt] at h
  repeat' split at h
  all_goals cases h
  · exact .inl ⟨.lengthRange, nofun, rfl⟩
  · exact .inr (.inl rfl)
  · exact .inl ⟨.malformedCiphertext, nofun, rfl⟩
  · exact .inl ⟨.malformedCiphertext, nofun, rfl⟩
  · exact .inl ⟨.domainError, nofun, rfl⟩
  · exact .inl ⟨.bufferOverflow, nofun, rfl⟩
  · exact .inr (.inr ⟨_, _, by simp, by omega, rfl, rfl⟩)

/-- The ways a SIEVE can end (42_sieve.md R140). -/
theorem execSieve_cases {s t : State} (h : execSieve s = .next t) :
    (boundMax < s.operandA ∧ t = s.raise .boundTooLarge) ∨
    (s.operandA ≤ boundMax ∧
      t = State.complete { s with
        pram := s.pram.fill ((sieve s.operandA).map (BitVec.ofNat 16))
        pcount := BitVec.ofNat 32 (sieve s.operandA).length
        pbound := s.opa
        status := { s.status with pvalid := true } }) := by
  simp only [execSieve] at h
  split at h <;> cases h
  · exact .inl ⟨by assumption, rfl⟩
  · exact .inr ⟨by omega, rfl⟩

/-- The ways the engine's step of any command can end (40_command_lifecycle.md R112 to R114). -/
theorem exec_cases {i : Instr} {s t : State} (h : exec i s = .next t) :
    (∃ c, c ≠ .none ∧ (t = s.raise c ∨ i = .keygen ∧ t = s.drawn.raise c)) ∨
    (i ∈ [Instr.isprime, .modpow, .modinv, .gcd] ∧ ∃ x, t = State.complete { s with r0 := x }) ∨
    (i = .sieve ∧ s.operandA ≤ boundMax ∧
      t = State.complete { s with
        pram := s.pram.fill ((sieve s.operandA).map (BitVec.ofNat 16))
        pcount := BitVec.ofNat 32 (sieve s.operandA).length
        pbound := s.opa
        status := { s.status with pvalid := true } }) ∨
    (i = .keygen ∧ ∃ k, t = { s.drawn with kg := k }) ∨
    (i = .keygen ∧ ∃ x y z, t = State.complete { s with r0 := x, r1 := y, r2 := z }) ∨
    (i = .encrypt ∧ ∃ out l, out.length ≤ s.cfg.cbufDepth ∧
      t = State.complete { s with cbuf := s.cbuf.fill out, clen := l }) ∨
    (i = .encrypt ∧ t = State.complete { s with clen := 0 }) ∨
    (i = .decrypt ∧ ∃ out l, out.length ≤ s.cfg.mbufDepth ∧
      t = State.complete { s with mbuf := s.mbuf.fill out, mlen := l }) ∨
    (i = .decrypt ∧ t = State.complete { s with mlen := 0 }) := by
  cases i with
  | isprime => cases h; exact .inr (.inl ⟨by simp, _, rfl⟩)
  | gcd => cases h; exact .inr (.inl ⟨by simp, _, rfl⟩)
  | modpow =>
    simp only [exec, execModpow] at h
    split at h <;> cases h
    · exact .inl ⟨.domainError, nofun, .inl rfl⟩
    · exact .inr (.inl ⟨by simp, _, rfl⟩)
  | modinv =>
    simp only [exec, execModinv] at h
    repeat' split at h
    all_goals cases h
    · exact .inl ⟨.domainError, nofun, .inl rfl⟩
    · exact .inl ⟨.noModularInverse, nofun, .inl rfl⟩
    · exact .inr (.inl ⟨by simp, _, rfl⟩)
  | sieve =>
    rcases execSieve_cases h with ⟨_, rfl⟩ | h'
    · exact .inl ⟨.boundTooLarge, nofun, .inl rfl⟩
    · exact .inr (.inr (.inl ⟨rfl, h'⟩))
  | keygen =>
    rcases execKeygen_cases h with ⟨c, hc, h'⟩ | ⟨k, hk⟩ | ⟨_, x, _, hx⟩
    · exact .inl ⟨c, hc, h'.imp_right fun e => ⟨rfl, e⟩⟩
    · exact .inr (.inr (.inr (.inl ⟨rfl, k, hk⟩)))
    · exact .inr (.inr (.inr (.inr (.inl ⟨rfl, _, _, _, hx⟩))))
  | encrypt =>
    rcases execEncrypt_cases h with ⟨c, hc, h'⟩ | h' | ⟨out, hl, _, h'⟩
    · exact .inl ⟨c, hc, .inl h'⟩
    · exact .inr (.inr (.inr (.inr (.inr (.inr (.inl ⟨rfl, h'⟩))))))
    · exact .inr (.inr (.inr (.inr (.inr (.inl ⟨rfl, out, _, hl, h'⟩)))))
  | decrypt =>
    rcases execDecrypt_cases h with ⟨c, hc, h'⟩ | h' | ⟨k, out, hk, hl, _, h'⟩
    · exact .inl ⟨c, hc, .inl h'⟩
    · exact .inr (.inr (.inr (.inr (.inr (.inr (.inr (.inr ⟨rfl, h'⟩)))))))
    · exact .inr (.inr (.inr (.inr (.inr (.inr (.inr (.inl ⟨rfl, out, _, hk ▸ hl, h'⟩)))))))

end Sys2Proof.Machine
end

