-- ==== Sys2Proof/Laws/HostProgram.lean ====
section
/-! SUPPORT. Where a host program has ended: no later step makes a bus access (40_command_lifecycle.md R121, log 26). -/

namespace Sys2Proof.Machine

/-- In IDLE a quiet line moves the host and does nothing else. -/
theorem hostLine_of_quietNext {s : State} {line : HostLine} {p : Nat} (hi : s.phase = .idle)
    (h : quietNext s.prog s.vars s.progPos line = some p) : hostLine line s = .next { s with progPos := p } := by
  cases line <;> simp only [quietNext, Option.some.injEq, reduceCtorEq] at h
  case label => subst h; rfl
  case halt => subst h; rfl
  case comment => subst h; rfl
  case run => subst h; unfold hostLine; split <;> simp_all [State.nextLine]
  case bnz x mask l =>
    split at h
    · cases h
    · rename_i v hv
      simp only [hostLine, hv]
      split at h
      · rename_i hm; rw [if_pos hm, h]
      · rename_i hm; cases h; rw [if_neg hm]; rfl

/-- Past a quiet line, what is ahead is quiet still. -/
theorem quietAhead_next {prog : List HostLine} {vars : List (Nat × Word)} {pos : Nat} {line : HostLine}
    (h : ∀ n, quietAhead prog vars n pos = true) (hl : prog[pos]? = some line) :
    ∃ p, quietNext prog vars pos line = some p ∧ ∀ n, quietAhead prog vars n p = true := by
  cases hq : quietNext prog vars pos line with
  | none => simpa [quietAhead, hl, hq] using h 1
  | some p => exact ⟨p, rfl, fun n => by simpa [quietAhead, hl, hq] using h (n + 1)⟩

/-- In IDLE, with no access ahead, the host's turn only moves it, and still has none ahead. -/
theorem hostTurn_of_quiet {s : State} (hi : s.phase = .idle) (h : ∀ n, quietAhead s.prog s.vars n s.progPos = true) :
    ∃ p, hostTurn s = .next { s with progPos := p } ∧ ∀ n, quietAhead s.prog s.vars n p = true := by
  unfold hostTurn
  split
  · rename_i line hl
    obtain ⟨p, hp, hq⟩ := quietAhead_next h hl
    exact ⟨p, hostLine_of_quietNext hi hp, hq⟩
  · exact ⟨s.progPos, rfl, h⟩

/-- The engine has no step in IDLE. -/
theorem engineTurn_of_idle {s : State} (hi : s.phase = .idle) : engineTurn s = .next s := by
  unfold engineTurn
  split <;> simp_all

/-- A turn that is no access keeps a run ended, and the last bus answer with it. -/
theorem takeTurn_of_ended {s : State} {u : Turn} (h : s.runEnded) (hu : u.isAccess = false) :
    ∃ t, takeTurn u s = .next t ∧ t.runEnded ∧ t.resp = s.resp := by
  obtain ⟨⟨hs, hq⟩, hi⟩ := h
  cases u with
  | access a => cases hu
  | engine => exact ⟨s, engineTurn_of_idle hi, ⟨⟨hs, hq⟩, hi⟩, rfl⟩
  | rst b => exact ⟨s.resetEdge b, rfl, ⟨⟨hs, hq⟩, rfl⟩, rfl⟩
  | host =>
    obtain ⟨p, e, hp⟩ := hostTurn_of_quiet hi hq
    exact ⟨_, e, ⟨⟨hs, hp⟩, hi⟩, rfl⟩

theorem defaultTurn_isAccess (s : State) : (defaultTurn s).isAccess = false := by
  unfold defaultTurn
  split <;> rfl

/-- A run that has ended stays ended: a step answers a next state, with the bus answer it had, since no access is made. -/
theorem runEnded_step {s : State} (h : s.runEnded) : ∃ t, step s = .next t ∧ t.runEnded ∧ t.resp = s.resp := by
  unfold step
  split
  · rename_i u us hs
    have hd := h.1.1
    rw [hs] at hd
    exact takeTurn_of_ended (s := { s with sched := us })
      ⟨⟨fun u' hu' => hd u' (List.mem_cons_of_mem _ hu'), h.1.2⟩, h.2⟩ (hd u (List.mem_cons_self ..))
  · exact takeTurn_of_ended h (defaultTurn_isAccess s)

end Sys2Proof.Machine
end

