-- ==== Sys2Proof/Laws/PerInstr.lean ====
section
/-! SUPPORT. One lemma for each command about its encoding: it is well formed, its word is a legal command word, the decoder
reads it back, and the opcode table's numbering gives it too. -/

namespace Sys2Proof.Laws

/-- What each command's encoding is held to (30_encoding.md R90, R91). -/
def Encoding.Statement (i : Instr) : Prop :=
  i.wf = true ∧ legalWord (encode i) = true ∧ decode (encode i) = .legal i ∧
    decodeTableWord 32 (encode i).toNat = some i

theorem Encoding.isprime : Encoding.Statement .isprime := by unfold Encoding.Statement; decide
theorem Encoding.sieve : Encoding.Statement .sieve := by unfold Encoding.Statement; decide
theorem Encoding.modpow : Encoding.Statement .modpow := by unfold Encoding.Statement; decide
theorem Encoding.modinv : Encoding.Statement .modinv := by unfold Encoding.Statement; decide
theorem Encoding.gcd : Encoding.Statement .gcd := by unfold Encoding.Statement; decide
theorem Encoding.keygen : Encoding.Statement .keygen := by unfold Encoding.Statement; decide
theorem Encoding.encrypt : Encoding.Statement .encrypt := by unfold Encoding.Statement; decide
theorem Encoding.decrypt : Encoding.Statement .decrypt := by unfold Encoding.Statement; decide

end Sys2Proof.Laws
end

