-- ==== Sys2Proof/Laws/Step.lean ====
section
/-! SUPPORT. Everything a step can do, said once: proofs about all steps cite `step_cases`. -/

namespace Sys2Proof.Machine

theorem engineTurn_cases {s t : State} (h : engineTurn s = .next t) :
    t = s ∨ ∃ i, s.rst = false ∧ s.phase = .busy i ∧ exec i s = .next t := by
  unfold engineTurn at h
  split at h
  · rename_i i hr hp
    exact .inr ⟨i, hr, hp, h⟩
  · cases h; exact .inl rfl
  · cases h; exact .inl rfl

theorem State.storeRead_eq (s : State) (x : Nat) : ∃ vs, s.storeRead x = { s with vars := vs } := by
  unfold State.storeRead
  split
  · exact ⟨_, rfl⟩
  · exact ⟨s.vars, rfl⟩
  · exact ⟨s.vars, rfl⟩

theorem hostWrite_cases {s t : State} {o : Nat} {v : HostValue} (h : hostWrite s o v = .next t) :
    ∃ a p vs, t = { s.access a with progPos := p, vars := vs } := by
  unfold hostWrite at h
  split at h <;> cases h
  exact ⟨_, _, _, rfl⟩

/-- The host's turn is a bus access, a move to another line, or, at `RUN`, the engine's turn. -/
theorem hostTurn_cases {s t : State} (h : hostTurn s = .next t) :
    (∃ p, t = { s with progPos := p }) ∨ (∃ a p vs, t = { s.access a with progPos := p, vars := vs }) ∨
      engineTurn s = .next t := by
  unfold hostTurn at h
  split at h
  · rename_i line _
    cases line with
    | wr tg v => exact .inr (.inl (hostWrite_cases h))
    | cmdWord v => exact .inr (.inl (hostWrite_cases h))
    | cmd i => cases h; exact .inr (.inl ⟨_, _, _, rfl⟩)
    | rd tg x =>
      cases h
      obtain ⟨vs, e⟩ := (s.memRead tg.toOffset).storeRead_eq x
      exact .inr (.inl ⟨_, _, vs, by rw [e]; rfl⟩)
    | label l => cases h; exact .inl ⟨_, rfl⟩
    | halt => cases h; exact .inl ⟨_, rfl⟩
    | comment => cases h; exact .inl ⟨_, rfl⟩
    | run =>
      simp only [hostLine] at h
      split at h
      · exact .inr (.inr h)
      · cases h; exact .inl ⟨_, rfl⟩
    | bnz x mask l =>
      simp only [hostLine] at h
      repeat' split at h
      all_goals cases h
      all_goals exact .inl ⟨_, rfl⟩
  · cases h
    exact .inl ⟨s.progPos, rfl⟩

/-- What a turn can do. -/
theorem takeTurn_cases {u : Turn} {s t : State} (h : takeTurn u s = .next t) :
    (∃ i, s.rst = false ∧ s.phase = .busy i ∧ exec i s = .next t) ∨
    (∃ a p vs, t = { s.access a with progPos := p, vars := vs }) ∨
    (∃ p, t = { s with progPos := p }) ∨
    (∃ b, u = .rst b ∧ t = s.resetEdge b) := by
  have engine (h : engineTurn s = .next t) :
      (∃ i, s.rst = false ∧ s.phase = .busy i ∧ exec i s = .next t) ∨ (∃ p, t = { s with progPos := p }) :=
    (engineTurn_cases h).symm.imp_right fun e => ⟨s.progPos, e⟩
  cases u with
  | access a => cases h; exact .inr (.inl ⟨a, (s.access a).progPos, (s.access a).vars, rfl⟩)
  | rst b => cases h; exact .inr (.inr (.inr ⟨b, rfl, rfl⟩))
  | engine => exact (engine h).imp_right fun e => .inr (.inl e)
  | host =>
    rcases hostTurn_cases h with e | e | e
    · exact .inr (.inr (.inl e))
    · exact .inr (.inl e)
    · exact (engine e).imp_right fun e => .inr (.inl e)

/-- What a step can do, from the state s0 in which the turn is taken off the schedule. -/
theorem step_cases {s t : State} (h : step s = .next t) :
    ∃ q, let s0 := { s with sched := q }
    (∃ i, s.rst = false ∧ s.phase = .busy i ∧ exec i s0 = .next t) ∨
    (∃ a p vs, t = { s0.access a with progPos := p, vars := vs }) ∨
    (∃ p, t = { s0 with progPos := p }) ∨
    (∃ b ts, s.sched = .rst b :: ts ∧ t = s0.resetEdge b) := by
  unfold step at h
  split at h
  · rename_i u ts hs
    refine ⟨ts, ?_⟩
    rcases takeTurn_cases h with e | e | e | ⟨b, rfl, e⟩
    · exact .inl e
    · exact .inr (.inl e)
    · exact .inr (.inr (.inl e))
    · exact .inr (.inr (.inr ⟨b, ts, hs, e⟩))
  · refine ⟨s.sched, ?_⟩
    rcases takeTurn_cases h with e | e | e | ⟨b, e, _⟩
    · exact .inl e
    · exact .inr (.inl e)
    · exact .inr (.inr (.inl e))
    · unfold defaultTurn at e
      split at e <;> cases e

end Sys2Proof.Machine
end

