-- ==== Sys2Proof/Tests/Slice0.lean ====
section
/-! SUPPORT. The model's own tests. First the checks of WellFormed, each with an ill-formed term it refuses; then a decoding of
every command from its word; then one or two engine steps of every command and some bus accesses, with the results of
95_test_vectors.md; then, for every obligation with hypotheses, states and operands that meet them. -/

namespace Sys2Proof.Tests

open Sys2Proof.Machine

/-! ### WellFormed: each check refuses an ill-formed term -/

theorem test_reservedBitsZero_refuses :
    reservedBitsZero 0x00000101#32 = false ∧ reservedBitsZero 0x80000008#32 = false ∧
      reservedBitsZero 0x000000FF#32 = true := by decide

theorem test_opcodeAssigned_refuses :
    opcodeAssigned 0x00000000#32 = false ∧ opcodeAssigned 0x00000009#32 = false ∧ opcodeAssigned 0x000000FF#32 = false ∧
      opcodeAssigned 0x00000001#32 = true ∧ opcodeAssigned 0x00000008#32 = true := by decide

theorem test_legalWord_refuses :
    legalWord 0x00000009#32 = false ∧ legalWord 0x00000101#32 = false ∧ legalWord 0x00000001#32 = true := by decide

theorem test_depthInRange_refuses :
    Config.depthInRange { mbufDepth := 0, retryLimit := none, base := 0 } = false ∧
      Config.depthInRange { mbufDepth := 1639, retryLimit := none, base := 0 } = false ∧
      Config.depthInRange { mbufDepth := 1, retryLimit := none, base := 0 } = true ∧
      Config.depthInRange { mbufDepth := 1638, retryLimit := none, base := 0 } = true := by decide

theorem test_retryPositive_refuses :
    Config.retryPositive { mbufDepth := 1, retryLimit := some 0, base := 0 } = false ∧
      Config.retryPositive { mbufDepth := 1, retryLimit := some 1, base := 0 } = true ∧
      Config.retryPositive { mbufDepth := 1, retryLimit := none, base := 0 } = true := by decide

theorem test_config_wf_refuses :
    Config.wf { mbufDepth := 0, retryLimit := some 1, base := 0 } = false ∧
      Config.wf { mbufDepth := 1, retryLimit := some 0, base := 0 } = false ∧ Config.wf .reference = true := by decide

/-- A command has no operand of its own, so no term of Instr is ill-formed (30_encoding.md R90). -/
theorem test_instr_wf : ∀ i : Instr, i.wf = true := by intro i; cases i <;> decide

/-! ### Decoding: the words of 30_encoding.md R90 and R91, bit by bit, RSVD then OPCODE -/

theorem test_decode_isprime : decode (0b000000000000000000000000#24 ++ 0b00000001#8) = .legal .isprime := by decide
theorem test_decode_sieve : decode (0b000000000000000000000000#24 ++ 0b00000010#8) = .legal .sieve := by decide
theorem test_decode_modpow : decode (0b000000000000000000000000#24 ++ 0b00000011#8) = .legal .modpow := by decide
theorem test_decode_modinv : decode (0b000000000000000000000000#24 ++ 0b00000100#8) = .legal .modinv := by decide
theorem test_decode_gcd : decode (0b000000000000000000000000#24 ++ 0b00000101#8) = .legal .gcd := by decide
theorem test_decode_keygen : decode (0b000000000000000000000000#24 ++ 0b00000110#8) = .legal .keygen := by decide
theorem test_decode_encrypt : decode (0b000000000000000000000000#24 ++ 0b00000111#8) = .legal .encrypt := by decide
theorem test_decode_decrypt : decode (0b000000000000000000000000#24 ++ 0b00001000#8) = .legal .decrypt := by decide

/-- 30_encoding.md R93. -/
theorem test_decode_illegal :
    decode 0x00000000#32 = .illegal .unassignedOpcode ∧ decode 0x00000009#32 = .illegal .unassignedOpcode ∧
      decode 0x000000FF#32 = .illegal .unassignedOpcode ∧ decode 0x00000101#32 = .illegal .reservedBits := by decide

theorem test_decodeTableWord :
    decodeTableWord 32 6 = some .keygen ∧ decodeTableWord 8 7 = some .encrypt ∧ decodeTableWord 32 9 = none ∧
      decodeTableWord 32 0x106 = none := by decide

/-! ### One engine step of each command -/

/-- What the tests look at: R0, R1, R2 and STATUS after a step. -/
def results : Outcome → Option (Word × Word × Word × Word)
  | .next t => some (t.r0, t.r1, t.r2, t.statusWord)
  | .fault _ => none
  | .refused _ => none

/-- The outcome is a next state of which p holds. -/
def leads (o : Outcome) (p : State → Bool) : Bool :=
  match o with
  | .next t => p t
  | .fault _ => false
  | .refused _ => false

/-- A state in which the command runs, with these operands and every other field as after reset. -/
def running (i : Instr) (a b c : Word) : State := { State.reset with phase := .busy i, opa := a, opb := b, opc := c }

/-- After SIEVE 10 (95_test_vectors.md, 2.4). -/
def sieved : State :=
  { State.reset with
    opa := 10
    pram := [(0, 2), (1, 3), (2, 5), (3, 7)]
    pcount := 4
    pbound := 10
    status := { done := true, err := false, ovr := false, pvalid := true, errcode := .none } }

/-- A KEYGEN at this micro-state over the PrimeSet of SIEVE 10, with these draws. -/
def keygenAt (k : Kg) (draws : List Nat) : State :=
  { sieved with
    phase := .busy .keygen
    kg := k
    entropy := draws
    status := { done := false, err := false, ovr := false, pvalid := true, errcode := .none } }

/-- The micro-state at acceptance. -/
def kg0 : Kg := { stage := .pickP, p := 0, q := 0, n := 0, m := 0, e := 0, rq := 0, re := 0 }

/-- "0300003179" as CBUF entries. -/
def hiCipher : Memory 8 :=
  [(0, 0x30), (1, 0x33), (2, 0x30), (3, 0x30), (4, 0x30), (5, 0x30), (6, 0x33), (7, 0x31), (8, 0x37), (9, 0x39)]

/-- 95_test_vectors.md, 2.3. -/
theorem test_isprime_carmichael : results (exec .isprime (running .isprime 561 0 0)) = some (0, 0, 0, 0x2) := by decide
theorem test_isprime_square : results (exec .isprime (running .isprime 25 0 0)) = some (0, 0, 0, 0x2) ∧
    results (exec .isprime (running .isprime 97 0 0)) = some (1, 0, 0, 0x2) := by decide

/-- 95_test_vectors.md, 2.4. -/
theorem test_sieve_ten :
    leads (exec .sieve (running .sieve 10 0 0)) fun t =>
      t.pram == [(0, 2), (1, 3), (2, 5), (3, 7)] && t.pcount == 4 && t.pbound == 10 && t.statusWord == 0x12 := by decide
theorem test_sieve_too_large : results (exec .sieve (running .sieve 65536 0 0)) = some (0, 0, 0, 0xB06) := by decide

/-- 95_test_vectors.md, 2.5. -/
theorem test_modpow_example : results (exec .modpow (running .modpow 4 13 497)) = some (445, 0, 0, 0x2) := by decide
theorem test_modpow_corners :
    results (exec .modpow (running .modpow 0 0 1)) = some (0, 0, 0, 0x2) ∧
      results (exec .modpow (running .modpow 0xFFFFFFFF 0xFFFFFFFF 0xFFFFFFFE)) = some (1, 0, 0, 0x2) ∧
      results (exec .modpow (running .modpow 0 0 0)) = some (0, 0, 0, 0x206) := by decide

/-- 95_test_vectors.md, 2.6. -/
theorem test_modinv_example :
    results (exec .modinv (running .modinv 17 3120 0)) = some (2753, 0, 0, 0x2) ∧
      results (exec .modinv (running .modinv 65537 4292739360 0)) = some (1475213633, 0, 0, 0x2) := by decide
theorem test_modinv_errors :
    results (exec .modinv (running .modinv 2 4 0)) = some (0, 0, 0, 0x306) ∧
      results (exec .modinv (running .modinv 3 0 0)) = some (0, 0, 0, 0x206) ∧
      results (exec .modinv (running .modinv 5 1 0)) = some (0, 0, 0, 0x2) := by decide

/-- 95_test_vectors.md, 2.6. -/
theorem test_gcd_example : results (exec .gcd (running .gcd 1071 462 0)) = some (21, 0, 0, 0x2) := by decide
theorem test_gcd_zero :
    results (exec .gcd (running .gcd 0 5 0)) = some (5, 0, 0, 0x2) ∧
      results (exec .gcd (running .gcd 5 0 0)) = some (5, 0, 0, 0x2) := by decide

/-- 95_test_vectors.md, 2.7, K1: the rejected draw e = 2 with m = 4 stays in PICK_E. -/
theorem test_keygen_rejects_even_exponent :
    leads (exec .keygen (keygenAt { kg0 with stage := .pickE, p := 2, q := 5, n := 10, m := 4 } [0, 1])) fun t =>
      t.kg.stage == .pickE && t.kg.re == 1 && t.entropy == [1] && t.phase == .busy .keygen := by decide

/-- 95_test_vectors.md, 2.7, K1: its last step. -/
theorem test_keygen_finish :
    results (exec .keygen (keygenAt { kg0 with stage := .finish, p := 2, q := 5, n := 10, m := 4, e := 3, re := 1 } [])) =
      some (3, 3, 10, 0x12) := by decide

/-- 95_test_vectors.md, 2.8, N2. -/
theorem test_encrypt_hi :
    leads (exec .encrypt { running .encrypt 17 3233 0 with mlen := 2, mbuf := [(0, 72), (1, 105)] }) fun t =>
      t.clen == 10 && t.cbuf == hiCipher && t.mlen == 2 && t.mbuf == [(0, 72), (1, 105)] := by decide

/-- 95_test_vectors.md, 2.8, N9, a block of ten digits, and N14, RANGE_EXCEEDED. -/
theorem test_encrypt_wide_and_range :
    (leads (exec .encrypt { running .encrypt 1 0xFFFFFFFF 0 with mlen := 1, mbuf := [(0, 0xFFFFFFFE)] }) fun t =>
      t.clen == 10 && t.cbuf ==
        [(0, 0x34), (1, 0x32), (2, 0x39), (3, 0x34), (4, 0x39), (5, 0x36), (6, 0x37), (7, 0x32), (8, 0x39), (9, 0x34)]) ∧
      results (exec .encrypt { running .encrypt 3 10 0 with
        ctrl := { ie := false, rchk := true }, mlen := 2, mbuf := [(0, 72), (1, 105)] }) = some (0, 0, 0, 0x806) := by decide

/-- 95_test_vectors.md, 2.8, M2. -/
theorem test_decrypt_hi :
    leads (exec .decrypt { running .decrypt 2753 3233 0 with clen := 10, cbuf := hiCipher }) fun t =>
      t.mlen == 2 && t.mbuf == [(0, 72), (1, 105)] && t.clen == 10 && t.cbuf == hiCipher := by decide

/-- 95_test_vectors.md, 2.8, M8 and M11: both checks come before the check of n. -/
theorem test_decrypt_malformed :
    results (exec .decrypt { running .decrypt 0 0 0 with clen := 3, cbuf := [(0, 0x31), (1, 0x32), (2, 0x33)] }) =
      some (0, 0, 0, 0x706) ∧
    results (exec .decrypt { running .decrypt 1 0 0 with
      clen := 5, cbuf := [(0, 0x31), (1, 0x32), (2, 0x61), (3, 0x34), (4, 0x35)] }) = some (0, 0, 0, 0x706) := by decide

/-! ### The bus, and a step -/

/-- 95_test_vectors.md, 2.1, B5, B6 and B7. -/
theorem test_bus_slverr :
    (State.reset.access ⟨0x06, 4, .read⟩).resp = some ⟨.slverr, some 0⟩ ∧
      (State.reset.access ⟨0x3C, 4, .write 1⟩).resp = some ⟨.slverr, none⟩ ∧
      (State.reset.access ⟨0x100, 4, .read⟩).resp = some ⟨.slverr, some 0⟩ ∧
      (State.reset.access ⟨0x21000, 4, .write 1⟩).resp = some ⟨.slverr, none⟩ ∧
      (State.reset.access ⟨0x3A000, 4, .write 1⟩).resp = some ⟨.slverr, none⟩ := by decide

/-- 95_test_vectors.md, 2.1, B8, B12 and B13. -/
theorem test_bus_reads :
    ((State.reset.access ⟨0x08, 4, .write 0xFFFFFFFF⟩).access ⟨0x08, 4, .read⟩).resp = some ⟨.okay, some 3⟩ ∧
      (sieved.access ⟨0x1000C, 4, .read⟩).resp = some ⟨.okay, some 7⟩ ∧
      (sieved.access ⟨0x10014, 4, .read⟩).resp = some ⟨.okay, some 0⟩ ∧
      (sieved.access ⟨0x16638, 4, .read⟩).resp = some ⟨.slverr, some 0⟩ := by decide +kernel

/-- 95_test_vectors.md, 2.1, B15. -/
theorem test_bus_cbuf :
    ((State.reset.access ⟨0x30000, 4, .write 0x12345637⟩).access ⟨0x30000, 4, .read⟩).resp =
      some ⟨.okay, some 0x37⟩ := by decide

/-- 95_test_vectors.md, 2.1, B9 and B10, and 2.2, L1. -/
theorem test_status_writes :
    let s : State := { State.reset with
      status := { done := true, err := true, ovr := false, pvalid := false, errcode := .malformedCiphertext } }
    (s.access ⟨0x0C, 4, .write 2⟩).statusWord = 0x704 ∧ (s.access ⟨0x0C, 4, .write 4⟩).statusWord = 0x2 ∧
      (State.access { s with status := { s.status with ovr := true } } ⟨0x10, 4, .write 1⟩).statusWord = 0x9 := by decide

/-- 95_test_vectors.md, 2.2, L2, L4, L5 and L7. -/
theorem test_lifecycle :
    (State.reset.access ⟨0x10, 4, .write 9⟩).statusWord = 0x106 ∧
      (State.reset.access ⟨0x10, 4, .write 0x101⟩).statusWord = 0x106 ∧
      ((running .sieve 0 0 0).access ⟨0x10, 4, .write 3⟩).statusWord = 0x9 ∧
      ((running .modpow 5 0 0).access ⟨0x14, 4, .write 6⟩).opa = 5 := by decide

/-- 95_test_vectors.md, 2.2, L12. -/
theorem test_step_irq :
    leads (step { running .gcd 30 12 0 with ctrl := { ie := true, rchk := false } }) fun t =>
      t.r0 == 6 && t.statusWord == 0x2 && t.irq := by decide

/-- 95_test_vectors.md, 2.2, L13. -/
theorem test_step_reset :
    leads (step { keygenAt kg0 [] with sched := [.rst false] }) fun t =>
      t.phase == .idle && t.statusWord == 0 && t.pcount == 0 && t.opa == 0 := by decide

/-- A line of host assembly, and the word it writes (30_encoding.md R95). -/
theorem test_step_host :
    leads (step { State.reset with prog := [.cmd .gcd] }) fun t =>
      t.phase == .busy .gcd && t.progPos == 1 := by decide

/-- 40_command_lifecycle.md R121: lines that make no bus access may follow the last one. -/
theorem test_runEnded_quiet_lines :
    State.runEnded { State.reset with prog := [.cmd .gcd, .label 0, .comment, .halt, .rd (.reg .r0) 1], progPos := 1 } := by
  refine ⟨⟨fun t h => (List.not_mem_nil h).elim, fun n => ?_⟩, rfl⟩
  rcases n with _ | _ | _ | _ | n <;> rfl

/-- 40_command_lifecycle.md R121: a run has not ended while an access is to come, in the schedule or in the program. -/
theorem test_runEnded_pending :
    ¬ State.runEnded { State.reset with sched := [.access ⟨0x10, 4, .write 5⟩] } ∧
      ¬ State.runEnded { State.reset with prog := [.label 0, .rd (.reg .status) 1] } :=
  ⟨fun h => absurd (h.1.1 _ (List.mem_cons_self ..)) (by decide), fun h => absurd (h.1.2 2) (by decide)⟩

/-- The host's placing of a word: the very next step runs it, and rejects a word that is no command. -/
theorem test_withFetchWord :
    step (State.reset.withFetchWord 32 5) = exec .gcd (State.reset.accept .gcd) ∧
      leads (step (State.reset.withFetchWord 32 9)) fun t => t.statusWord == 0x106 := ⟨rfl, by decide⟩

/-! ### Witnesses: states and operands that meet an obligation's hypotheses, clause by clause -/

/-- The invariant, from its parts. -/
theorem inv_of (s : State)
    (h : s.cfg.wf = true ∧ Memory.wf s.pram ∧ Memory.wf s.mbuf ∧ Memory.wf s.cbuf ∧
      (∀ c ∈ s.mbuf, c.1 < s.cfg.mbufDepth) ∧ (∀ c ∈ s.cbuf, c.1 < s.cfg.cbufDepth) ∧
      (s.phase ≠ .idle → s.status.done = false ∧ s.status.err = false ∧ s.status.errcode = .none) ∧
      (s.status.err = false ↔ s.status.errcode = .none) ∧ s.primeSet = sieve s.pbound.toNat ∧ s.pbound.toNat ≤ boundMax ∧
      (s.status.pvalid = false → s.pbound = 0 ∧ s.pcount = 0) ∧ (s.rst = true → s.phase = .idle))
    (k : s.phase = .busy .keygen → s.keygenInv) : s.Inv := by
  obtain ⟨h1, h2, h3, h4, h5, h6, h7, h8, h9, h10, h11, h12⟩ := h
  exact ⟨h1, h2, h3, h4, h5, h6, h7, h8, h9, h10, h11, k, h12⟩

/-- A range-checked ENCRYPT of "Hi" that runs. -/
def encrypting : State :=
  { running .encrypt 17 3233 0 with
    ctrl := { ie := false, rchk := true }, mlen := 2, mbuf := [(0, 72), (1, 105)] }

theorem encrypting_inv : encrypting.Inv := inv_of _ (by decide) (by intro h; cases h)

/-- The micro-state of K1 before its last step. -/
def kgFinish : Kg := { kg0 with stage := .finish, p := 2, q := 5, n := 10, m := 4, e := 3, re := 1 }

theorem keygen_start_inv : (keygenAt kg0 [0, 2, 1]).Inv := inv_of _ (by decide) (fun _ => ⟨rfl, rfl⟩)

theorem keygen_finish_inv : (keygenAt kgFinish []).Inv := by
  refine inv_of _ (by decide) (fun _ => ?_)
  refine ⟨?_, ?_, ?_, ?_, ?_, ?_⟩
  · unfold State.pickedPair; decide
  · intro l h; cases h
  · intro l h; cases h
  · decide
  · decide
  · decide

/-- Clauses of ModPowIsThePowerModulo, ModInvIsTheUniqueInverse, GcdIsTheGreatestCommonDivisor. -/
theorem witness_arithmetic :
    1 ≤ 1 ∧ (2 ≤ 2 ∧ Nat.gcd 2 2 ≠ 1) ∧ (2 ≤ 2 ∧ Nat.gcd 1 2 = 1) ∧ (2 ≤ 2 ∧ 1 ≤ 2 ∧ 2 ≤ 2) ∧
      ¬ (0 = 0 ∧ 1 = 0) ∧ 1 ∣ 0 ∧ 1 ∣ 1 := by decide

theorem witness_FmtIsThePaddedDecimal : 99999 < 100000 ∧ 100000 ≤ 100000 ∧ 2 ^ 32 - 1 < 2 ^ 32 := by decide

theorem witness_Parse5ReadsTheWindow : IsDigitCode 0x30#8 ∧ IsDigitCode 0x39#8 ∧ 99999 < 100000 := by
  unfold IsDigitCode; decide

theorem witness_CmdWriteAcceptsTheCommand :
    State.reset.rst = false ∧ State.reset.phase = .idle ∧ decode 0x00000001#32 = .legal .isprime ∧
      decode 0x00000008#32 = .legal .decrypt := by decide

theorem witness_IllegalCmdWriteIsRejected :
    State.reset.rst = false ∧ State.reset.phase = .idle ∧ (0x00000100#32).toNat / 256 ≠ 0 ∧
      (0x00000000#32).toNat % 256 = 0 ∧ 9 ≤ (0x00000009#32).toNat % 256 := by decide

/-- Offsets of each clause, at its ends. -/
theorem witness_BusyWritesAreDropped :
    let s := running .gcd 1 1 0
    s.rst = false ∧ s.cfg.wf = true ∧ s.phase ≠ .idle ∧
      0x08 ∈ [0x08, 0x10, 0x14, 0x18, 0x1C, 0x34, 0x38] ∧
      (1023 < s.cfg.mbufDepth ∧ 0x20FFC = 0x20000 + 4 * 1023) ∧ (10239 < s.cfg.cbufDepth ∧ 0x39FFC = 0x30000 + 4 * 10239) ∧
      0x30 ∈ [0x00, 0x04, 0x20, 0x24, 0x28, 0x2C, 0x30] ∧ (6541 < psetDepth ∧ 0x16634 = 0x10000 + 4 * 6541) ∧
      (0x3FFFF < windowBytes ∧ 0x3FFFF % 4 ≠ 0) ∧ (0x3C < windowBytes ∧ ¬ Mapped s.cfg 0x3C) ∧
      (0x16638 < windowBytes ∧ ¬ Mapped s.cfg 0x16638) ∧ (0x21000 < windowBytes ∧ ¬ Mapped s.cfg 0x21000) ∧
      (0x3A000 < windowBytes ∧ ¬ Mapped s.cfg 0x3A000) := by
  unfold Mapped; decide

theorem witness_MisalignedOrNarrowAccessIsRefused :
    (0x3FFFF < windowBytes ∧ 0x3FFFF % 4 ≠ 0) ∧ (0x00 < windowBytes ∧ 2 ≠ 4) := by decide

theorem witness_RegisterWindowHoldsFifteenRegisters :
    State.reset.rst = false ∧ (0x3C % 4 = 0 ∧ 0x3C ≤ 0x3C ∧ 0x3C < 0x10000) ∧
      (0xFFFC % 4 = 0 ∧ 0x3C ≤ 0xFFFC ∧ 0xFFFC < 0x10000) ∧ 0x00 ∈ [0x00, 0x04, 0x20, 0x24, 0x28, 0x2C, 0x30] ∧
      (0x38 % 4 = 0 ∧ 0x38 ≤ 0x38) := by decide

/-- IdAndCapAreConstant, ControlKeepsTwoBits, StatusReadsItsFieldsAndClears, RegistersReadTheirCurrentValue. -/
theorem witness_registers :
    State.reset.rst = false ∧ State.reset.cfg.wf = true ∧ State.reset.phase = .idle ∧
      (running .gcd 1 1 0).rst = false ∧ (running .gcd 1 1 0).phase ≠ .idle ∧ (5 ≤ 5 ∧ 7 < 8) ∧ 12 ≤ 12 ∧ 2 ≤ 2 := by decide

theorem witness_PramWindowIsReadOnly :
    State.reset.rst = false ∧ State.reset.phase ≠ .busy .sieve ∧ (running .sieve 10 0 0).rst = false ∧
      (running .sieve 10 0 0).phase = .busy .sieve ∧ 6541 < psetDepth ∧ (psetDepth ≤ 6542 ∧ 16383 < 16384) := by decide

theorem witness_MbufWindowHoldsWholeWords :
    State.reset.rst = false ∧ State.reset.cfg.wf = true ∧ 1023 < State.reset.cfg.mbufDepth ∧
      State.reset.phase ≠ .busy .decrypt ∧ State.reset.phase = .idle ∧
      (running .decrypt 0 0 0).phase = .busy .decrypt ∧ 1023 < (running .decrypt 0 0 0).cfg.mbufDepth ∧
      (running .decrypt 0 0 0).phase ≠ .idle ∧ (State.reset.cfg.mbufDepth ≤ 1024 ∧ 16383 < 16384) := by decide

theorem witness_CbufWindowHoldsCharacters :
    State.reset.rst = false ∧ State.reset.cfg.wf = true ∧ 10239 < State.reset.cfg.cbufDepth ∧
      State.reset.phase ≠ .busy .encrypt ∧ State.reset.phase = .idle ∧
      (running .encrypt 0 0 0).phase = .busy .encrypt ∧ 10239 < (running .encrypt 0 0 0).cfg.cbufDepth ∧
      (running .encrypt 0 0 0).phase ≠ .idle ∧ (State.reset.cfg.cbufDepth ≤ 10240 ∧ 16383 < 16384) := by decide

/-- ResetStateHasTheSpecsValues and the second half of InvariantHoldsAtReset: the least and the greatest block. -/
theorem witness_config :
    Config.wf { mbufDepth := 1, retryLimit := some 1, base := 0 } = true ∧
      Config.wf { mbufDepth := 1638, retryLimit := none, base := 0x80000000 } = true := by decide

theorem witness_ResetAbandonsTheCommand :
    (keygenAt kg0 []).phase = .busy .keygen ∧
      State.sched { keygenAt kg0 [] with sched := [.rst true] } = .rst true :: [] := by decide

theorem witness_NothingMovesWhileResetIsAsserted :
    let s : State := { State.reset with rst := true, sched := [.engine] }
    (s.rst = true ∧ 0x3FFFF < windowBytes) ∧ (s.rst = true ∧ s.sched = .engine :: []) ∧
      State.sched { s with sched := [.rst false] } = .rst false :: [] := by decide

theorem witness_StepRunsTheDecodedCommand :
    let s := running .gcd 30 12 0
    s.rst = false ∧ s.phase = .busy .gcd ∧ s.sched = [] ∧ State.sched { s with sched := [.engine] } = .engine :: [] ∧
      decode 0x00000005#32 = .legal .gcd ∧ State.reset.phase = .idle ∧
      State.sched { State.reset with sched := [.access (State.reset.wordAt 0x10 (.write 5)), .engine] } =
        .access (State.reset.wordAt 0x10 (.write 5)) :: .engine :: [] := by decide

/-- A program with a line of each kind that StepRunsTheDecodedCommand names; variable 7 holds 1. -/
def atLine (k : Nat) : State :=
  { State.reset with
    prog := [.label 3, .wr (.reg .opa) (.num 97), .wr (.mbuf 0) (.char 'H'), .wr (.reg .opb) (.var 7), .cmd .gcd,
      .cmdWord (.num 9), .rd (.reg .status) 7, .bnz 7 1 3, .bnz 7 2 3]
    progPos := k, vars := [(7, 1)], sched := [.host] }

theorem witness_StepRunsTheDecodedCommand_host :
    (atLine 0).sched = .host :: [] ∧
      ((atLine 1).prog[1]? = some (.wr (.reg .opa) (.num 97)) ∧ (atLine 1).HostValueIs (.num 97) 97#32) ∧
      ((atLine 2).prog[2]? = some (.wr (.mbuf 0) (.char 'H')) ∧ (atLine 2).HostValueIs (.char 'H') 72#32) ∧
      ((atLine 3).prog[3]? = some (.wr (.reg .opb) (.var 7)) ∧ (atLine 3).HostValueIs (.var 7) 1#32) ∧
      (atLine 4).prog[4]? = some (.cmd .gcd) ∧
      ((atLine 5).prog[5]? = some (.cmdWord (.num 9)) ∧ (atLine 5).HostValueIs (.num 9) 9#32) ∧
      ((atLine 6).prog[6]? = some (.rd (.reg .status) 7) ∧
        ((atLine 6).access ((atLine 6).wordAt (HostTarget.reg .status).toOffset .read)).resp = some ⟨.okay, some 0#32⟩) ∧
      ((atLine 7).prog[7]? = some (.bnz 7 1 3) ∧ hostVar (atLine 7).vars 7 = some 1#32 ∧ 1#32 &&& 1#32 ≠ 0 ∧
        (atLine 7).prog[0]? = some (.label 3) ∧ ∀ j, j < 0 → (atLine 7).prog[j]? ≠ some (.label 3)) ∧
      ((atLine 8).prog[8]? = some (.bnz 7 2 3) ∧ hostVar (atLine 8).vars 7 = some 1#32 ∧ 1#32 &&& 2#32 = 0) :=
  ⟨by decide, ⟨by decide, .inl rfl⟩, ⟨by decide, .inr (.inl ⟨'H', rfl, by decide, by decide⟩)⟩,
    ⟨by decide, .inr (.inr ⟨7, rfl, by decide⟩)⟩, by decide, ⟨by decide, .inl rfl⟩, by decide, by decide, by decide⟩

/-- The host's turn by default, and the lines and stops of the other clauses. -/
theorem witness_StepRunsTheDecodedCommand_lines :
    let s (l : HostLine) : State := { State.reset with prog := [l] }
    let busy : State := { running .gcd 30 12 0 with prog := [.run], sched := [.host] }
    (s .run).HostMoves (s .run) ∧ State.HostMoves { s .halt with rst := true } { s .halt with rst := true } ∧
      (atLine 0).HostMoves { atLine 0 with sched := [] } ∧
      ((s (.rd (.offset 0x40000) 1)).access ((s .halt).wordAt 0x40000 .read)).resp = none ∧
      (s (.label 3)).prog[0]? = some (.label 3) ∧ (s .comment).prog[0]? = some .comment ∧ (s .halt).prog[0]? = some .halt ∧
      ((s .run).prog[0]? = some .run ∧ (s .run).phase = .idle) ∧
      (busy.prog[0]? = some .run ∧ busy.phase = .busy .gcd ∧ busy.rst = false) ∧
      State.reset.prog[0]? = none ∧ hostVar State.reset.vars 7 = none ∧
      .label 4 ∉ (atLine 7).prog :=
  ⟨.inr ⟨rfl, .inl rfl, rfl⟩, .inr ⟨rfl, .inr rfl, rfl⟩, .inl ⟨[], rfl, rfl⟩, by decide, by decide, by decide, by decide,
    by decide, by decide, by decide, by decide, by decide⟩

theorem witness_EngineStepsOnlyWhileBusy :
    (State.reset.phase = .idle ∧ State.sched { State.reset with sched := [.engine] } = .engine :: []) ∧
      (running .gcd 30 12 0).phase = .busy .gcd ∧
      ∃ t, step (running .gcd 30 12 0) = .next t := ⟨by decide, by decide, _, rfl⟩

/-- EveryEngineStepAnswersAState, ErrorsArePrecise, EachCommandReportsItsOwnErrors. -/
theorem witness_engine_step :
    (running .modpow 5 3 0).phase = .busy .modpow ∧
      ∃ t, exec .modpow (running .modpow 5 3 0) = .next t ∧ t.phase = .idle ∧ t.status.err = true :=
  ⟨by decide, _, rfl, by decide, by decide⟩

/-- SieveBuildsThePrimeSet and PrimeSetIsTheFirstPrimes. -/
theorem witness_sieve :
    65535 < (running .sieve 65536 0 0).opa.toNat ∧ (running .sieve 65535 0 0).opa.toNat ≤ 65535 ∧
      (∃ t, exec .sieve (running .sieve 10 0 0) = .next t) ∧ (running .sieve 10 0 0).opa.toNat ≤ 65535 ∧
      ∃ t', (running .sieve 10 1 1).opa = (running .sieve 10 0 0).opa ∧ exec .sieve (running .sieve 10 1 1) = .next t' :=
  ⟨by decide, by decide, ⟨_, rfl⟩, by decide, _, rfl, rfl⟩

theorem witness_PrimeSetFitsThePram :
    (running .sieve 65535 0 0).opa = 65535#32 ∧ (running .sieve 65535 0 0).opa.toNat ≤ 65535 ∧
      ∃ t, exec .sieve (running .sieve 10 0 0) = .next t := ⟨by decide, by decide, _, rfl⟩

theorem witness_ModpowRaisesModulo : (running .modpow 5 3 0).opc = 0 ∧ (running .modpow 5 3 1).opc ≠ 0 := by decide

theorem witness_ModinvInvertsOrReports :
    (running .modinv 3 0 0).opb = 0 ∧ (2 ≤ (running .modinv 0 2 0).opb.toNat ∧ Nat.gcd 0 2 ≠ 1) ∧
      (running .modinv 5 1 0).opb = 1 ∧
      (2 ≤ (running .modinv 1 2 0).opb.toNat ∧
        Nat.gcd (running .modinv 1 2 0).opa.toNat (running .modinv 1 2 0).opb.toNat = 1) := by decide

theorem witness_KeygenPicksP :
    (keygenAt kg0 [0]).kg.stage = .pickP ∧ State.pcount { keygenAt kg0 [0] with pcount := 1 } = 1 ∧
      2 ≤ (State.pcount { keygenAt kg0 [0] with pcount := 2 }).toNat ∧
      (keygenAt kg0 [0]).Draws 0 { keygenAt kg0 [0] with entropy := [] } ∧
      (keygenAt kg0 []).Draws (Config.freeDraw 0) { keygenAt kg0 [] with freeCount := 1 } :=
  ⟨by decide, by decide, by decide, .inl ⟨[], rfl, rfl⟩, .inr ⟨rfl, rfl, rfl⟩⟩

/-- The block of SIEVE 10 with RETRY_LIMIT = 1, at PICK_Q with p = 2 and rq retries made. -/
def pickingQ (rq : Nat) (draws : List Nat) : State :=
  { keygenAt { kg0 with stage := .pickQ, p := 2, rq := rq } draws with
    cfg := { mbufDepth := 1024, retryLimit := some 1, base := 0 } }

theorem witness_KeygenPicksQ :
    (pickingQ 1 [0]).kg.stage = .pickQ ∧ (pickingQ 1 [0]).Draws 0 (pickingQ 1 []) ∧
      ((pickingQ 1 [0]).pramAt (0 % 4)).toNat = (pickingQ 1 [0]).kg.p ∧
      (pickingQ 1 [0]).cfg.retryLimit = some (pickingQ 1 [0]).kg.rq ∧
      (pickingQ 0 [0]).cfg.retryLimit ≠ some (pickingQ 0 [0]).kg.rq ∧
      (((pickingQ 0 [1]).pramAt (1 % 4)).toNat ≠ (pickingQ 0 [1]).kg.p ∧ (2 - 1) * (3 - 1) < 3) ∧
      (((pickingQ 0 [2]).pramAt (2 % 4)).toNat ≠ (pickingQ 0 [2]).kg.p ∧ 3 ≤ (2 - 1) * (5 - 1)) :=
  ⟨by decide, .inl ⟨[], rfl, rfl⟩, by decide, by decide, by decide, by decide, by decide⟩

/-- The same block at PICK_E with m = 4 and re retries made. -/
def pickingE (re : Nat) (draws : List Nat) : State :=
  { keygenAt { kg0 with stage := .pickE, p := 2, q := 5, n := 10, m := 4, re := re } draws with
    cfg := { mbufDepth := 1024, retryLimit := some 1, base := 0 } }

theorem witness_KeygenPicksE :
    (pickingE 1 [0]).kg.stage = .pickE ∧ 3 ≤ (pickingE 1 [0]).kg.m ∧ (pickingE 1 [0]).Draws 0 (pickingE 1 []) ∧
      Nat.gcd (2 + 0 % 2) 4 ≠ 1 ∧ (pickingE 1 [0]).cfg.retryLimit = some (pickingE 1 [0]).kg.re ∧
      (pickingE 0 [0]).cfg.retryLimit ≠ some (pickingE 0 [0]).kg.re ∧ Nat.gcd (2 + 1 % 2) 4 = 1 :=
  ⟨by decide, by decide, .inl ⟨[], rfl, rfl⟩, by decide, by decide, by decide, by decide⟩

theorem witness_KeygenFinishes :
    ((keygenAt { kgFinish with e := 2 } []).kg.stage = .finish ∧ 2 ≤ (keygenAt { kgFinish with e := 2 } []).kg.m ∧
        Nat.gcd (keygenAt { kgFinish with e := 2 } []).kg.e (keygenAt { kgFinish with e := 2 } []).kg.m ≠ 1) ∧
      ((keygenAt kgFinish []).kg.stage = .finish ∧ 2 ≤ (keygenAt kgFinish []).kg.m ∧
        Nat.gcd (keygenAt kgFinish []).kg.e (keygenAt kgFinish []).kg.m = 1) := by decide

theorem witness_KeygenCompletesInFourSteps :
    (keygenAt kg0 [0, 2, 1]).Inv ∧ (keygenAt kg0 [0, 2, 1]).phase = .busy .keygen ∧
      (keygenAt kg0 [0, 2, 1]).kg.stage = .pickP ∧ (keygenAt kg0 [0, 2, 1]).sched = [] ∧
      0 < (keygenAt kg0 [0, 2, 1]).pcount.toNat ∧ 2 < (keygenAt kg0 [0, 2, 1]).pcount.toNat ∧
      (keygenAt kg0 [0, 2, 1]).pramAt 0 ≠ (keygenAt kg0 [0, 2, 1]).pramAt 2 ∧ 3 ≤ (2 - 1) * (5 - 1) ∧
      1 + 2 ≤ (2 - 1) * (5 - 1) - 1 ∧ Nat.gcd (1 + 2) ((2 - 1) * (5 - 1)) = 1 ∧
      (keygenAt kg0 [0, 2, 1]).entropy = 0 :: 2 :: 1 :: [] :=
  ⟨keygen_start_inv, by decide, by decide, by decide, by decide, by decide, by decide, by decide, by decide, by decide,
    by decide⟩

/-- A state for each clause: a length of 1025, a length of 0, a modulus of 0, a code point equal to the modulus, a modulus of
100000, and an ENCRYPT that succeeds. -/
theorem witness_EncryptWritesTheBlocks :
    (State.reset.cfg.mbufDepth < (1025#32).toNat) ∧ (0#32).toNat ≤ State.reset.cfg.mbufDepth ∧
      (1 ≤ (1024#32).toNat ∧ (1024#32).toNat ≤ State.reset.cfg.mbufDepth) ∧ (0#32).toNat = 0 ∧
      (let s : State := { encrypting with opb := 105 }
       s.ctrl.rchk = true ∧ 1 < s.mlen.toNat ∧ s.opb.toNat ≤ (s.mbufAt 1).toNat) ∧
      100000 ≤ (100000#32).toNat ∧
      (2 ≤ encrypting.cfg.mbufDepth ∧ encrypting.mlen.toNat = 2 ∧ 1 ≤ encrypting.opb.toNat ∧
        ¬ (encrypting.ctrl.rchk = true ∧
          (encrypting.opb.toNat ≥ 100000 ∨ ∃ i, i < 2 ∧ encrypting.opb.toNat ≤ (encrypting.mbufAt i).toNat))) := by
  decide

/-- A DECRYPT of "0300003179" that runs. -/
def decrypting : State := { running .decrypt 2753 3233 0 with clen := 10, cbuf := hiCipher }

/-- A block with the least MBUF_DEPTH, in which ten characters are two blocks too many for one entry. -/
def decryptingSmall : State := { decrypting with cfg := { mbufDepth := 1, retryLimit := none, base := 0 } }

theorem witness_DecryptWritesTheCodePoints :
    (State.reset.cfg.cbufDepth < (10241#32).toNat) ∧ (0#32).toNat ≤ State.reset.cfg.cbufDepth ∧
      (decrypting.clen.toNat ≤ decrypting.cfg.cbufDepth ∧ 1 ≤ decrypting.clen.toNat ∧ decrypting.clen.toNat % 5 = 0 ∧
        ∀ j, j < decrypting.clen.toNat → IsDigitCode (decrypting.cbufAt j)) ∧
      (3#32).toNat % 5 ≠ 0 ∧ ¬ IsDigitCode 0x2F#8 ∧ ¬ IsDigitCode 0x3A#8 ∧ (0#32).toNat = 0 ∧
      1 ≤ decrypting.opb.toNat ∧ decrypting.clen.toNat / 5 ≤ decrypting.cfg.mbufDepth ∧
      (decryptingSmall.clen.toNat ≤ decryptingSmall.cfg.cbufDepth ∧
        (∀ j, j < decryptingSmall.clen.toNat → IsDigitCode (decryptingSmall.cbufAt j)) ∧
        decryptingSmall.cfg.mbufDepth < decryptingSmall.clen.toNat / 5) := by
  unfold IsDigitCode; decide

theorem witness_RangeCheckedBlocksAreFiveWide :
    encrypting.Inv ∧ encrypting.phase = .busy .encrypt ∧ encrypting.ctrl.rchk = true ∧
      ∃ t, exec .encrypt encrypting = .next t ∧ t.succeeded :=
  ⟨encrypting_inv, by decide, by decide, _, rfl, by unfold State.succeeded; decide⟩

/-- The code points 72 and 105 against the modulus 10: 2 and 5. -/
theorem witness_CodePointsBeyondTheModulusAreReduced :
    let s : State := { running .encrypt 3 10 0 with mlen := 2, mbuf := [(0, 72), (1, 105)] }
    s.ctrl.rchk = false ∧ s.mlen.toNat ≤ s.cfg.mbufDepth ∧ s.opb ≠ 0 ∧
      ∀ i, i < s.mlen.toNat →
        (State.mbufAt { s with mbuf := [(0, 2), (1, 5)] } i).toNat = (s.mbufAt i).toNat % s.opb.toNat := by decide

/-- The keypair of K1, e = 3, d = 3, n = 10, and code points below 10. -/
theorem witness_DecryptUndoesEncrypt :
    let s : State := { running .encrypt 3 10 0 with mlen := 2, mbuf := [(0, 0), (1, 9)] }
    s.cfg.wf = true ∧ (∀ x ∈ [2, 3, 5, 7], Nat.Prime x) ∧ IsKeypair [2, 3, 5, 7] 3 3 10 ∧ 10 ≤ 100000 ∧
      s.opa = BitVec.ofNat 32 3 ∧ s.opb = BitVec.ofNat 32 10 ∧ 1 ≤ s.mlen.toNat ∧ s.mlen.toNat ≤ s.cfg.mbufDepth ∧
      ∀ i, i < s.mlen.toNat → (s.mbufAt i).toNat < 10 := by
  refine ⟨by decide, ?_, ⟨2, 5, by decide⟩, by decide, by decide, by decide, by decide, by decide, by decide⟩
  intro x hx
  simp only [List.mem_cons, List.not_mem_nil, or_false] at hx
  rcases hx with rfl | rfl | rfl | rfl <;> norm_num

/-- KeygenLeavesAKeypair, with its success. -/
theorem witness_KeygenLeavesAKeypair :
    (keygenAt kgFinish []).Inv ∧ (keygenAt kgFinish []).phase = .busy .keygen ∧
      ∃ t, exec .keygen (keygenAt kgFinish []) = .next t ∧ t.succeeded ∧ Nat.Prime 2 :=
  ⟨keygen_finish_inv, by decide, _, rfl, by unfold State.succeeded; decide, by norm_num⟩

theorem witness_KeygenEndsWithinTheRetryBound :
    let s : State := { keygenAt kg0 [] with cfg := { mbufDepth := 1024, retryLimit := some 1, base := 0 } }
    s.cfg.retryLimit = some 1 ∧ s.rst = false ∧ s.sched = [] ∧ s.phase = .busy .keygen ∧ s.kg.stage = .pickP ∧
      s.kg.rq = 0 ∧ s.kg.re = 0 := by decide

theorem witness_KeygenMayHangUnderInf :
    let q := keygenAt { kg0 with stage := .pickQ, p := 2 } [0, 4]
    let e := keygenAt { kg0 with stage := .pickE, p := 2, q := 5, n := 10, m := 4 } [0, 2]
    q.cfg.retryLimit = none ∧ q.rst = false ∧ q.sched = [] ∧ q.phase = .busy .keygen ∧ 2 ≤ q.entropy.length ∧
      (q.kg.stage = .pickQ ∧ ∀ d ∈ q.entropy.take 2, (q.pramAt (d % q.pcount.toNat)).toNat = q.kg.p) ∧
      (e.kg.stage = .pickE ∧ 3 ≤ e.kg.m ∧ ∀ d ∈ e.entropy.take 2, Nat.gcd (2 + d % (e.kg.m - 2)) e.kg.m ≠ 1) := by decide

theorem witness_EveryStepKeepsTheInvariant :
    encrypting.Inv ∧ ∃ t, step encrypting = .next t := ⟨encrypting_inv, _, rfl⟩

theorem witness_OnlySieveWritesThePrimeSet :
    (∃ t, step encrypting = .next t) ∧ encrypting.phase ≠ .busy .sieve ∧ ∀ b ts, encrypting.sched ≠ .rst b :: ts := by
  refine ⟨⟨_, rfl⟩, by decide, ?_⟩
  intro b ts h
  cases h

/-- ResultsChangeOnlyAtSuccess, with R0 changed by a GCD and all three by a KEYGEN. -/
theorem witness_ResultsChangeOnlyAtSuccess :
    (∃ t, step (running .gcd 30 12 0) = .next t ∧ t.r0 ≠ (running .gcd 30 12 0).r0) ∧
      (∀ b ts, (running .gcd 30 12 0).sched ≠ .rst b :: ts) ∧
      (∃ t, step (keygenAt kgFinish []) = .next t ∧ t.r1 ≠ (keygenAt kgFinish []).r1 ∧ t.r2 ≠ (keygenAt kgFinish []).r2) ∧
      ∀ b ts, (keygenAt kgFinish []).sched ≠ .rst b :: ts := by
  refine ⟨⟨_, rfl, by decide⟩, ?_, ⟨_, rfl, by decide, by decide⟩, ?_⟩ <;> intro b ts h <;> cases h

theorem witness_CommandsKeepOperandsAndForeignBuffers :
    (∃ t, exec .gcd (running .gcd 30 12 0) = .next t) ∧ Instr.gcd ≠ .decrypt ∧ Instr.gcd ≠ .encrypt ∧
      Instr.gcd ≠ .keygen := ⟨⟨_, rfl⟩, by decide, by decide, by decide⟩

/-- A KEYGEN step after which the KEYGEN still runs, with an MBUF that nothing has written. -/
theorem witness_InputsStayAsAtAcceptance :
    (keygenAt kg0 [0]).phase = .busy .keygen ∧ ∃ t, step (keygenAt kg0 [0]) = .next t ∧ t.phase ≠ .idle :=
  ⟨by decide, _, rfl, by decide⟩

theorem witness_HostAccessesDoNotChangeTheResult :
    encrypting.Inv ∧ encrypting.phase = .busy .encrypt ∧ ∃ t, exec .encrypt encrypting = .next t :=
  ⟨encrypting_inv, by decide, _, rfl⟩

/-- DoneRisesOnlyAtACompletion: by a completion and by a rejection, and the hypotheses of its other clauses. -/
theorem witness_DoneRisesOnlyAtACompletion :
    (∃ t, step (running .gcd 30 12 0) = .next t ∧ (running .gcd 30 12 0).status.done = false ∧ t.status.done = true) ∧
      (∃ t, step { State.reset with sched := [.access ⟨0x10, 4, .write 9⟩] } = .next t ∧
        State.reset.status.done = false ∧ t.status.done = true) ∧
      (∃ t, (running .gcd 30 12 0).phase = .busy .gcd ∧ exec .gcd (running .gcd 30 12 0) = .next t ∧ t.phase = .idle) ∧
      (let s : State := { State.reset with
          status := { State.reset.status with done := true }, sched := [.access ⟨0x08, 4, .write 1⟩] }
        ∃ t, step s = .next t ∧ s.irq = false ∧ t.irq = true) ∧
      State.reset.rst = false ∧ State.reset.phase = .idle ∧ decode 0x00000009#32 = .illegal .unassignedOpcode :=
  ⟨⟨_, rfl, by decide, by decide⟩, ⟨_, rfl, by decide, by decide⟩, ⟨_, by decide, rfl, by decide⟩,
    ⟨_, rfl, by decide, by decide⟩, by decide⟩

/-- TheBlockNeverStops: each turn, with a host program loaded that would stop the host, and no host program. -/
theorem witness_TheBlockNeverStops :
    let s : State := { running .gcd 30 12 0 with prog := [.bnz 0 1 0] }
    State.sched { s with sched := [.engine] } = .engine :: [] ∧
      State.sched { s with sched := [.access ⟨0, 4, .read⟩] } = .access ⟨0, 4, .read⟩ :: [] ∧
      State.sched { s with sched := [.rst true] } = .rst true :: [] ∧
      (s.sched = [] ∧ s.rst = false ∧ s.phase = .busy .gcd) ∧ State.reset.prog = [] := by decide

end Sys2Proof.Tests
end

section
/-! SUPPORT. The host's 32-bit access, by what its offset reaches (20_memory.md R60 to R67): one equation for a read and one
for a write, then the same for a register by its offset. Proofs about the bus cite these and do not unfold it. -/

namespace Sys2Proof.Machine

/-- An offset that reaches something lies in the window (20_memory.md R62). -/
theorem targetAt_lt_windowBytes {c : Config} {o : Nat} {t : Target} (h : targetAt c o = some t) : o < windowBytes := by
  by_contra hge
  have hw : windowBytes = 0x40000 := rfl
  rw [targetAt, if_neg (by omega), if_neg (by omega), if_neg (by omega), if_neg hge] at h
  cases h

theorem offsetOf_base_add (c : Config) {o : Nat} (h : o < windowBytes) : offsetOf c (c.base + o) = some o := by
  rw [offsetOf, if_pos (by omega), Nat.add_sub_cancel_left]

theorem State.access_wordAt (s : State) {o : Nat} (h : o < windowBytes) (d : Dir) :
    s.access (s.wordAt o d) = s.accessAt o 4 d := by
  simp only [State.access, State.wordAt, offsetOf_base_add s.cfg h]

theorem State.access_wordAt_read {s : State} {o : Nat} {t : Target} (hr : s.rst = false) (ha : o % 4 = 0)
    (ht : targetAt s.cfg o = some t) : s.access (s.wordAt o .read) = s.readTarget t := by
  rw [s.access_wordAt (targetAt_lt_windowBytes ht)]
  simp [State.accessAt, hr, ha, ht]

theorem State.access_wordAt_write {s : State} {o : Nat} {t : Target} (hr : s.rst = false) (ha : o % 4 = 0)
    (ht : targetAt s.cfg o = some t) (v : Word) :
    s.access (s.wordAt o (.write v)) = { s.writeTarget t v with resp := some ⟨.okay, none⟩ } := by
  rw [s.access_wordAt (targetAt_lt_windowBytes ht)]
  simp [State.accessAt, hr, ha, ht]

/-- The mapped register offsets are aligned and lie in 0x00 to 0x38 (10_state.md R20). -/
theorem regAt_bounds {o : Nat} {r : Reg} (h : regAt o = some r) : o % 4 = 0 ∧ o ≤ 0x38 := by
  unfold regAt at h
  split at h <;> cases h <;> decide

theorem targetAt_of_regAt (c : Config) {o : Nat} {r : Reg} (h : regAt o = some r) : targetAt c o = some (.reg r) := by
  obtain ⟨-, ho⟩ := regAt_bounds h
  rw [targetAt, if_pos (by omega), h, Option.map_some]

/-- No register is a running command's output buffer (40_command_lifecycle.md R117). -/
theorem readUnspecified_reg (p : Phase) (r : Reg) : readUnspecified p (.reg r) = false := by
  cases p with
  | idle => rfl
  | busy i => cases i <;> rfl

/-- A register reads at any time and the read has no side effect (20_memory.md R69). -/
theorem State.access_read_reg {s : State} {o : Nat} {r : Reg} (hr : s.rst = false) (h : regAt o = some r) :
    s.access (s.wordAt o .read) = { s with resp := some ⟨.okay, some (s.readReg r)⟩ } := by
  rw [State.access_wordAt_read hr (regAt_bounds h).1 (targetAt_of_regAt s.cfg h), State.readTarget,
    readUnspecified_reg, if_neg Bool.false_ne_true, State.contents]

theorem State.access_write_reg {s : State} {o : Nat} {r : Reg} (hr : s.rst = false) (h : regAt o = some r) (v : Word) :
    s.access (s.wordAt o (.write v)) = { s.writeReg r v with resp := some ⟨.okay, none⟩ } :=
  State.access_wordAt_write hr (regAt_bounds h).1 (targetAt_of_regAt s.cfg h) v

end Sys2Proof.Machine
end

section
/-! The registers of 10_state.md that hold a constant of the block. -/

namespace Sys2Proof.Machine

/-- The depths an admitted block can have (00_scope.md R6, R8). -/
theorem Config.mbufDepth_bounds {c : Config} (h : c.wf = true) : 1 ≤ c.mbufDepth ∧ c.mbufDepth ≤ 1638 := by
  simp only [Config.wf, Config.depthInRange, Bool.and_eq_true, decide_eq_true_eq] at h
  exact h.1

/-- MDEPTH holds the whole depth, and the reserved bits above it are 0 (10_state.md R22). -/
theorem State.capWord_toNat {s : State} (h : s.cfg.wf = true) : s.capWord.toNat = s.cfg.mbufDepth := by
  obtain ⟨-, hle⟩ := Config.mbufDepth_bounds h
  rw [State.capWord, BitVec.toNat_setWidth, BitVec.toNat_ofNat]
  omega

/-- Settles O16: a register read and a register write by offset, and the value of CAP. -/
theorem idAndCapAreConstant : Obligations.IdAndCapAreConstant := by
  intro s hr hwf
  have hid : regAt 0x00 = some .id := rfl
  have hcap : regAt 0x04 = some .cap := rfl
  have hv : s.capWord.toNat = s.cfg.mbufDepth := State.capWord_toNat hwf
  refine ⟨State.access_read_reg hr hid, ⟨s.capWord, State.access_read_reg hr hcap, hv, ?_⟩, ?_, ?_⟩
  · rw [hv, Config.cbufDepth]
  · exact State.access_write_reg hr hid
  · exact State.access_write_reg hr hcap

end Sys2Proof.Machine
end

section
/-! SUPPORT. The rest of the host's bus by address (20_memory.md R61 to R67): what each window's offsets reach, an access that is
refused, and a read inside and outside the running command's output buffer. -/

namespace Sys2Proof.Machine

/-! ### What the windows' offsets reach -/

/-- The fifteen registers fill the aligned offsets from 0x00 to 0x38 (10_state.md R20). -/
theorem exists_regAt {o : Nat} (ha : o % 4 = 0) (ho : o ≤ 0x38) : ∃ r, regAt o = some r := by
  have hall : ∀ k < 15, (regAt (4 * k)).isSome = true := by decide
  rw [← Option.isSome_iff_exists, show o = 4 * (o / 4) by omega]
  exact hall (o / 4) (by omega)

/-- Nothing is mapped in the rest of the register window (20_memory.md R63). -/
theorem targetAt_eq_none_of_registerHole (c : Config) {o : Nat} (hlo : 0x3C ≤ o) (hhi : o < 0x10000) :
    targetAt c o = none := by
  have hreg : regAt o = none := by
    by_contra hne
    obtain ⟨r, h⟩ := Option.ne_none_iff_exists'.1 hne
    obtain ⟨-, hle⟩ := regAt_bounds h
    omega
  rw [targetAt, if_pos hhi, hreg, Option.map_none]

/-- The PRAM window (20_memory.md R64). -/
theorem targetAt_pramWindow (c : Config) {i : Nat} (hi : i < 16384) :
    targetAt c (0x10000 + 4 * i) = if i < psetDepth then some (.pram i) else none := by
  have hidx : (0x10000 + 4 * i - 0x10000) / 4 = i := by omega
  rw [targetAt, if_neg (by omega), if_pos (by omega), hidx]

/-- The MBUF window (20_memory.md R65). -/
theorem targetAt_mbufWindow (c : Config) {i : Nat} (hi : i < 16384) :
    targetAt c (0x20000 + 4 * i) = if i < c.mbufDepth then some (.mbuf i) else none := by
  have hidx : (0x20000 + 4 * i - 0x20000) / 4 = i := by omega
  rw [targetAt, if_neg (by omega), if_neg (by omega), if_pos (by omega), hidx]

/-- The CBUF window (20_memory.md R67). -/
theorem targetAt_cbufWindow (c : Config) {i : Nat} (hi : i < 16384) :
    targetAt c (0x30000 + 4 * i) = if i < c.cbufDepth then some (.cbuf i) else none := by
  have hidx : (0x30000 + 4 * i - 0x30000) / 4 = i := by omega
  have hw : 0x30000 + 4 * i < windowBytes := by rw [windowBytes]; omega
  rw [targetAt, if_neg (by omega), if_neg (by omega), if_neg (by omega), if_pos hw, hidx]

/-- Every PRAM entry has an offset of its own in the window (20_memory.md R64). -/
theorem targetAt_pram (c : Config) {i : Nat} (hi : i < psetDepth) : targetAt c (0x10000 + 4 * i) = some (.pram i) := by
  have hd : psetDepth = 6542 := rfl
  rw [targetAt_pramWindow c (by omega), if_pos hi]

/-- In an admitted block MBUF fits in its window (20_memory.md R65). -/
theorem targetAt_mbuf {c : Config} (hc : c.wf = true) {i : Nat} (hi : i < c.mbufDepth) :
    targetAt c (0x20000 + 4 * i) = some (.mbuf i) := by
  obtain ⟨-, hle⟩ := Config.mbufDepth_bounds hc
  rw [targetAt_mbufWindow c (by omega), if_pos hi]

/-- In an admitted block CBUF fits in its window: 10 · 1638 = 16380 entries at most (00_scope.md R8, 20_memory.md R67). -/
theorem targetAt_cbuf {c : Config} (hc : c.wf = true) {i : Nat} (hi : i < c.cbufDepth) :
    targetAt c (0x30000 + 4 * i) = some (.cbuf i) := by
  obtain ⟨-, hle⟩ := Config.mbufDepth_bounds hc
  have hd : c.cbufDepth = 10 * c.mbufDepth := rfl
  rw [targetAt_cbufWindow c (by omega), if_pos hi]

/-! ### A refused access -/

/-- What SLVERR is on the bus (20_memory.md R61). -/
theorem refused_of_eq_slverr {s t : State} {d : Dir} (h : t = { s with resp := some (slverr d) }) :
    ∃ r : BusResp, t = { s with resp := some r } ∧ r.code = .slverr ∧ (d = .read → r.data = some 0) := by
  refine ⟨slverr d, h, ?_, ?_⟩
  · cases d <;> rfl
  · rintro rfl; rfl

/-- A misaligned or narrow access is refused in every state, `rst` high included (20_memory.md R61). -/
theorem State.accessAt_misshapen (s : State) {o bytes : Nat} (h : o % 4 ≠ 0 ∨ bytes ≠ 4) (d : Dir) :
    s.accessAt o bytes d = { s with resp := some (slverr d) } := by
  have hc : (s.rst || bytes != 4 || o % 4 != 0) = true := by
    rcases h with ho | hb
    · simp [ho]
    · simp [hb]
  rw [State.accessAt, if_pos hc]

/-- An access where nothing is mapped is refused in every state (20_memory.md R62 to R67). -/
theorem State.accessAt_unmapped {s : State} {o : Nat} (ht : targetAt s.cfg o = none) (bytes : Nat) (d : Dir) :
    s.accessAt o bytes d = { s with resp := some (slverr d) } := by
  rw [State.accessAt, ht, ite_self]

theorem State.access_wordAt_unmapped {s : State} {o : Nat} (ho : o < windowBytes) (ht : targetAt s.cfg o = none)
    (d : Dir) : s.access (s.wordAt o d) = { s with resp := some (slverr d) } := by
  rw [s.access_wordAt ho, State.accessAt_unmapped ht]

/-- An entry at or above the depth of its window is refused; b is where the window starts (20_memory.md R62, R64 to R67). -/
theorem State.access_beyond_depth {s : State} {b i depth : Nat} {t : Target} (hb : b ≤ 0x30000) (hi : i < 16384)
    (hge : depth ≤ i) (hwin : targetAt s.cfg (b + 4 * i) = if i < depth then some t else none) (d : Dir) :
    ∃ r : BusResp, s.access (s.wordAt (b + 4 * i) d) = { s with resp := some r } ∧ r.code = .slverr ∧
      (d = .read → r.data = some 0) := by
  rw [if_neg (Nat.not_lt.2 hge)] at hwin
  have hw : b + 4 * i < windowBytes := by rw [windowBytes]; omega
  exact refused_of_eq_slverr (State.access_wordAt_unmapped hw hwin d)

/-! ### Reads of a buffer -/

/-- PRAM is SIEVE's output buffer (40_command_lifecycle.md R117). -/
theorem readUnspecified_pram (p : Phase) (i : Nat) : readUnspecified p (.pram i) = true ↔ p = .busy .sieve := by
  cases p with
  | idle => simp [readUnspecified]
  | busy op => cases op <;> simp [readUnspecified]

/-- MBUF is DECRYPT's output buffer (40_command_lifecycle.md R117). -/
theorem readUnspecified_mbuf (p : Phase) (i : Nat) : readUnspecified p (.mbuf i) = true ↔ p = .busy .decrypt := by
  cases p with
  | idle => simp [readUnspecified]
  | busy op => cases op <;> simp [readUnspecified]

/-- CBUF is ENCRYPT's output buffer (40_command_lifecycle.md R117). -/
theorem readUnspecified_cbuf (p : Phase) (i : Nat) : readUnspecified p (.cbuf i) = true ↔ p = .busy .encrypt := by
  cases p with
  | idle => simp [readUnspecified]
  | busy op => cases op <;> simp [readUnspecified]

/-- A read outside the running command's output buffer answers the contents (20_memory.md R69). -/
theorem State.access_read_contents {s : State} {o : Nat} {t : Target} (hr : s.rst = false) (ha : o % 4 = 0)
    (ht : targetAt s.cfg o = some t) (hu : ¬ readUnspecified s.phase t = true) :
    s.access (s.wordAt o .read) = { s with resp := some ⟨.okay, some (s.contents t)⟩ } := by
  rw [State.access_wordAt_read hr ha ht, State.readTarget, if_neg hu]

/-- A read of the running command's output buffer answers some word (40_command_lifecycle.md R117). -/
theorem State.access_read_unspecified {s : State} {o : Nat} {t : Target} (hr : s.rst = false) (ha : o % 4 = 0)
    (ht : targetAt s.cfg o = some t) (hu : readUnspecified s.phase t = true) :
    ∃ v n, s.access (s.wordAt o .read) = { s with resp := some ⟨.okay, some v⟩, freeCount := n } := by
  rw [State.access_wordAt_read hr ha ht, State.readTarget, if_pos hu]
  exact ⟨_, _, rfl⟩

/-! ### Writes -/

/-- The seven registers that ignore every write (20_memory.md R63). -/
theorem exists_regAt_readOnly {o : Nat} (h : o ∈ [0x00, 0x04, 0x20, 0x24, 0x28, 0x2C, 0x30]) :
    ∃ r, regAt o = some r ∧ ∀ (s : State) (v : Word), s.writeReg r v = s := by
  simp only [List.mem_cons, List.not_mem_nil, or_false] at h
  rcases h with rfl | rfl | rfl | rfl | rfl | rfl | rfl <;> exact ⟨_, rfl, fun _ _ => rfl⟩

/-- A write to a buffer entry while BUSY is dropped with OVR (40_command_lifecycle.md R116). -/
theorem State.access_write_dropped {s store : State} {o : Nat} {t : Target} {v : Word} (hr : s.rst = false)
    (ha : o % 4 = 0) (ht : targetAt s.cfg o = some t) (hw : s.writeTarget t v = s.unlessBusy store)
    (hp : s.phase ≠ .idle) :
    s.access (s.wordAt o (.write v)) =
      { s with status := { s.status with ovr := true }, resp := some ⟨.okay, none⟩ } := by
  rw [State.access_wordAt_write hr ha ht, hw, State.unlessBusy_busy hp, State.drop]

/-- A write to a buffer entry in IDLE is made (20_memory.md R65, R67). -/
theorem State.access_write_stored {s store : State} {o : Nat} {t : Target} {v : Word} (hr : s.rst = false)
    (ha : o % 4 = 0) (ht : targetAt s.cfg o = some t) (hw : s.writeTarget t v = s.unlessBusy store)
    (hp : s.phase = .idle) :
    s.access (s.wordAt o (.write v)) = { store with resp := some ⟨.okay, none⟩ } := by
  rw [State.access_wordAt_write hr ha ht, hw, State.unlessBusy_idle hp]

/-- MBUF[j] once entry i has been set to v (20_memory.md R65). -/
theorem State.mbufAt_of_set {s t : State} {i : Nat} {v : Word} (he : t.epoch = s.epoch)
    (hm : t.mbuf = s.mbuf.set i v) : t.mbufAt i = v ∧ ∀ j, j ≠ i → t.mbufAt j = s.mbufAt j := by
  refine ⟨?_, fun j hj => ?_⟩
  · rw [State.mbufAt, hm, Memory.get_set_same, Option.getD_some]
  · rw [State.mbufAt, hm, he, Memory.get_set_ne _ _ hj, ← State.mbufAt]

/-- CBUF[j] once entry i has been set to x (20_memory.md R67). -/
theorem State.cbufAt_of_set {s t : State} {i : Nat} {x : Byte} (he : t.epoch = s.epoch)
    (hm : t.cbuf = s.cbuf.set i x) : t.cbufAt i = x ∧ ∀ j, j ≠ i → t.cbufAt j = s.cbufAt j := by
  refine ⟨?_, fun j hj => ?_⟩
  · rw [State.cbufAt, hm, Memory.get_set_same, Option.getD_some]
  · rw [State.cbufAt, hm, he, Memory.get_set_ne _ _ hj, ← State.cbufAt]

end Sys2Proof.Machine
end

section
/-! The windows of 20_memory.md, one statement each. -/

namespace Sys2Proof.Machine

/-- Settles O14: such an access is refused before the offset is looked up. -/
theorem misalignedOrNarrowAccessIsRefused : Obligations.MisalignedOrNarrowAccessIsRefused := by
  intro s o bytes d ho hbad
  apply refused_of_eq_slverr
  calc s.access ⟨s.cfg.base + o, bytes, d⟩
      = s.accessAt o bytes d := by simp only [State.access, offsetOf_base_add s.cfg ho]
    _ = { s with resp := some (slverr d) } := s.accessAt_misshapen hbad d

/-- Settles O15: the register at each offset, and which registers a write can change. -/
theorem registerWindowHoldsFifteenRegisters : Obligations.RegisterWindowHoldsFifteenRegisters := by
  intro s hr
  refine ⟨fun o d _ hlo hhi => ?hole, fun o v hmem => ?readOnly, ?cmd, fun o ha ho => ?read⟩
  case hole =>
    have hw : o < windowBytes := by rw [windowBytes]; omega
    exact refused_of_eq_slverr (State.access_wordAt_unmapped hw (targetAt_eq_none_of_registerHole s.cfg hlo hhi) d)
  case readOnly =>
    obtain ⟨r, hreg, hkeep⟩ := exists_regAt_readOnly hmem
    rw [State.access_write_reg hr hreg, hkeep]
  case cmd => exact State.access_read_reg hr (r := .cmd) rfl
  case read =>
    obtain ⟨r, hreg⟩ := exists_regAt ha ho
    exact ⟨s.readReg r, State.access_read_reg hr hreg⟩

/-- Settles O20: entries below PSET_DEPTH are mapped and no write reaches them. -/
theorem pramWindowIsReadOnly : Obligations.PramWindowIsReadOnly := by
  intro s i hr
  have ha : (0x10000 + 4 * i) % 4 = 0 := by omega
  have hu := readUnspecified_pram s.phase i
  refine ⟨fun hi hp => ?read, fun hi hp => ?sieve, fun hi v => ?write, fun hge hlt d => ?beyond⟩
  case read => exact State.access_read_contents hr ha (targetAt_pram s.cfg hi) (mt hu.1 hp)
  case sieve => exact State.access_read_unspecified hr ha (targetAt_pram s.cfg hi) (hu.2 hp)
  case write => exact State.access_wordAt_write hr ha (targetAt_pram s.cfg hi) v
  case beyond => exact State.access_beyond_depth (by omega) hlt hge (targetAt_pramWindow s.cfg hlt) d

/-- Settles O21: a write reaches exactly the entry its offset names, and stores the whole word. -/
theorem mbufWindowHoldsWholeWords : Obligations.MbufWindowHoldsWholeWords := by
  intro s i v hr hc
  have ha : (0x20000 + 4 * i) % 4 = 0 := by omega
  have hu := readUnspecified_mbuf s.phase i
  have hw : s.writeTarget (.mbuf i) v = s.unlessBusy { s with mbuf := s.mbuf.set i v } := rfl
  refine ⟨fun hi hp => ?read, fun hi hp => ?decrypt, fun hi hp => ?write, fun hi hp => ?dropped, fun hge hlt d => ?beyond⟩
  case read => exact State.access_read_contents hr ha (targetAt_mbuf hc hi) (mt hu.1 hp)
  case decrypt => exact State.access_read_unspecified hr ha (targetAt_mbuf hc hi) (hu.2 hp)
  case write =>
    have hstored := State.access_write_stored hr ha (targetAt_mbuf hc hi) hw hp
    exact ⟨s.mbuf.set i v, hstored, State.mbufAt_of_set (by rw [hstored]) (by rw [hstored])⟩
  case dropped => exact State.access_write_dropped hr ha (targetAt_mbuf hc hi) hw hp
  case beyond => exact State.access_beyond_depth (by omega) hlt hge (targetAt_mbufWindow s.cfg hlt) d

/-- Settles O22: a write reaches exactly the entry its offset names, and stores bits 7:0. -/
theorem cbufWindowHoldsCharacters : Obligations.CbufWindowHoldsCharacters := by
  intro s i v hr hc
  have ha : (0x30000 + 4 * i) % 4 = 0 := by omega
  have hu := readUnspecified_cbuf s.phase i
  have hw : s.writeTarget (.cbuf i) v = s.unlessBusy { s with cbuf := s.cbuf.set i (v.extractLsb' 0 8) } := by
    rw [← BitVec.setWidth_eq_extractLsb' (by omega)]; rfl
  refine ⟨fun hi hp => ?read, fun hi hp => ?encrypt, fun hi hp => ?write, fun hi hp => ?dropped, fun hge hlt d => ?beyond⟩
  case read => exact State.access_read_contents hr ha (targetAt_cbuf hc hi) (mt hu.1 hp)
  case encrypt => exact State.access_read_unspecified hr ha (targetAt_cbuf hc hi) (hu.2 hp)
  case write =>
    have hstored := State.access_write_stored hr ha (targetAt_cbuf hc hi) hw hp
    exact ⟨s.cbuf.set i (v.extractLsb' 0 8), hstored, State.cbufAt_of_set (by rw [hstored]) (by rw [hstored])⟩
  case dropped => exact State.access_write_dropped hr ha (targetAt_cbuf hc hi) hw hp
  case beyond => exact State.access_beyond_depth (by omega) hlt hge (targetAt_cbufWindow s.cfg hlt) d

end Sys2Proof.Machine
end

section
/-! SUPPORT. The decoder, said once per answer, in the numeric spelling of 30_encoding.md R90 to R94: RSVD is `w.toNat / 256`
and OPCODE is `w.toNat % 256`. Proofs about decoding cite these and do not unfold the decoder or its opcode map. -/

namespace Sys2Proof

/-! ### The two fields (30_encoding.md R90) -/

theorem opcodeField_toNat (w : Word) : (opcodeField w).toNat = w.toNat % 256 := by
  rw [opcodeField, BitVec.extractLsb'_toNat, Nat.shiftRight_zero]

theorem rsvdField_eq_zero_iff (w : Word) : rsvdField w = 0 ↔ w.toNat / 256 = 0 := by
  have hv : (rsvdField w).toNat = w.toNat / 256 := by
    rw [rsvdField, BitVec.extractLsb'_toNat, Nat.shiftRight_eq_div_pow]
    omega
  rw [← hv]
  exact BitVec.toNat_inj.symm

/-! ### The opcode map (30_encoding.md R91) -/

theorem instrOfOpcode_eq_none_iff (op : BitVec 8) : instrOfOpcode op = none ↔ op.toNat = 0 ∨ 9 ≤ op.toNat := by
  unfold instrOfOpcode
  split
  case h_9 => simp only [imp_false, true_iff] at *; omega
  all_goals simp only [reduceCtorEq, false_iff]; omega

theorem toNat_of_instrOfOpcode {op : BitVec 8} {i : Instr} (h : instrOfOpcode op = some i) :
    op.toNat = (encode i).toNat := by
  unfold instrOfOpcode at h
  split at h <;> cases h <;> assumption

/-! ### The decoder's answers (30_encoding.md R91, R93) -/

theorem decode_eq (w : Word) :
    decode w = if w.toNat / 256 = 0 then (instrOfOpcode (opcodeField w)).elim (.illegal .unassignedOpcode) .legal
      else .illegal .reservedBits := by
  simp only [decode, rsvdField_eq_zero_iff]
  cases instrOfOpcode (opcodeField w) <;> rfl

theorem decode_eq_legal_iff (w : Word) (i : Instr) :
    decode w = .legal i ↔ w.toNat / 256 = 0 ∧ instrOfOpcode (opcodeField w) = some i := by
  rw [decode_eq]
  split <;> cases instrOfOpcode (opcodeField w) <;> simp [*]

theorem decode_eq_unassignedOpcode_iff (w : Word) :
    decode w = .illegal .unassignedOpcode ↔ w.toNat / 256 = 0 ∧ instrOfOpcode (opcodeField w) = none := by
  rw [decode_eq]
  split <;> cases instrOfOpcode (opcodeField w) <;> simp [*]

theorem decode_eq_reservedBits_iff (w : Word) : decode w = .illegal .reservedBits ↔ w.toNat / 256 ≠ 0 := by
  rw [decode_eq]
  split <;> cases instrOfOpcode (opcodeField w) <;> simp [*]

/-- Each command's own lemma of Laws/PerInstr.lean, for all eight at once. -/
theorem encoding_holds : ∀ i : Instr, Laws.Encoding.Statement i
  | .isprime => Laws.Encoding.isprime
  | .sieve => Laws.Encoding.sieve
  | .modpow => Laws.Encoding.modpow
  | .modinv => Laws.Encoding.modinv
  | .gcd => Laws.Encoding.gcd
  | .keygen => Laws.Encoding.keygen
  | .encrypt => Laws.Encoding.encrypt
  | .decrypt => Laws.Encoding.decrypt

theorem decode_encode (i : Instr) : decode (encode i) = .legal i := by
  obtain ⟨-, -, hdec, -⟩ := encoding_holds i
  exact hdec

/-- No two words decode to the same command (30_encoding.md R91, "As full words"). -/
theorem decode_eq_legal_iff_eq_encode (w : Word) (i : Instr) : decode w = .legal i ↔ w = encode i := by
  refine ⟨fun h => ?_, fun h => h ▸ decode_encode i⟩
  obtain ⟨hrsvd, hmap⟩ := (decode_eq_legal_iff w i).1 h
  have hop := toNat_of_instrOfOpcode hmap
  rw [opcodeField_toNat] at hop
  apply BitVec.eq_of_toNat_eq
  omega

end Sys2Proof
end

section
/-! The opcode map and the illegal words, one statement each (30_encoding.md R91, R94). -/

namespace Sys2Proof

/-- Settles O1: a command's word is fixed by its two fields, and the opcode map leaves out exactly 0 and 9 to 255. -/
theorem legalWordsAreTheEightOfTheMap : Obligations.LegalWordsAreTheEightOfTheMap := by
  refine ⟨⟨rfl, rfl, rfl, rfl, rfl, rfl, rfl, rfl⟩, fun w => ⟨?_, decode_eq_legal_iff_eq_encode w⟩⟩
  have hmapped : (∃ i, instrOfOpcode (opcodeField w) = some i) ↔ ¬ (w.toNat % 256 = 0 ∨ 9 ≤ w.toNat % 256) := by
    rw [← opcodeField_toNat, ← instrOfOpcode_eq_none_iff, ← Option.ne_none_iff_exists']
  simp only [decode_eq_legal_iff, exists_and_left, hmapped]
  omega

/-- Settles O2: the split on the decoder's answer, and when it gives each reason. -/
theorem everyOtherWordIsIllegal : Obligations.EveryOtherWordIsIllegal := by
  refine fun w => ⟨?total, decode_eq_reservedBits_iff w, ?opcode⟩
  case total =>
    cases hd : decode w with
    | legal i => exact .inl ⟨i, (decode_eq_legal_iff_eq_encode w i).1 hd, rfl⟩
    | illegal why => exact .inr ⟨why, rfl⟩
  case opcode =>
    rw [decode_eq_unassignedOpcode_iff, instrOfOpcode_eq_none_iff, opcodeField_toNat]

end Sys2Proof
end

section
/-! SUPPORT. A request, which is a write to CMD, by phase and word (40_command_lifecycle.md R111, R115, R116), and what a write
while BUSY reaches (R116). -/

namespace Sys2Proof.Machine

/-! ### A command request -/

theorem State.request_of_legal {s : State} {w : Word} {i : Instr} (hp : s.phase = .idle) (hd : decode w = .legal i) :
    s.request w = s.accept i := by
  simp only [State.request, hp, hd]

theorem State.request_of_illegal {s : State} {w : Word} {why : IllegalWord} (hp : s.phase = .idle)
    (hd : decode w = .illegal why) : s.request w = s.reject := by
  simp only [State.request, hp, hd]

theorem State.request_of_busy {s : State} (hp : s.phase ≠ .idle) (w : Word) : s.request w = s.drop := by
  cases hph : s.phase with
  | idle => exact absurd hph hp
  | busy i => simp only [State.request, hph]

theorem State.access_write_cmd {s : State} (hr : s.rst = false) (w : Word) :
    s.access (s.wordAt 0x10 (.write w)) = { s.request w with resp := some ⟨.okay, none⟩ } :=
  State.access_write_reg hr (r := .cmd) rfl w

/-- The three forms of an illegal word, in numbers (30_encoding.md R93). -/
theorem exists_decode_eq_illegal {w : Word} (h : w.toNat / 256 ≠ 0 ∨ w.toNat % 256 = 0 ∨ 9 ≤ w.toNat % 256) :
    ∃ why, decode w = .illegal why := by
  obtain ⟨-, hreserved, hunassigned⟩ := everyOtherWordIsIllegal w
  by_cases hrsvd : w.toNat / 256 = 0
  · exact ⟨.unassignedOpcode, hunassigned.2 ⟨hrsvd, h.resolve_left (not_not_intro hrsvd)⟩⟩
  · exact ⟨.reservedBits, hreserved.2 hrsvd⟩

/-! ### Writes while BUSY -/

/-- The seven registers whose writes BUSY drops (40_command_lifecycle.md R116). -/
theorem exists_regAt_dropped {o : Nat} (h : o ∈ [0x08, 0x10, 0x14, 0x18, 0x1C, 0x34, 0x38]) :
    ∃ r, regAt o = some r ∧ ∀ (s : State) (v : Word), s.phase ≠ .idle → s.writeReg r v = s.drop := by
  simp only [List.mem_cons, List.not_mem_nil, or_false] at h
  rcases h with rfl | rfl | rfl | rfl | rfl | rfl | rfl
  case inr.inl => exact ⟨.cmd, rfl, fun _ v hp => State.request_of_busy hp v⟩
  all_goals exact ⟨_, rfl, fun _ _ hp => State.unlessBusy_busy hp _⟩

/-- What an offset reaches is mapped there (20_memory.md R62 to R67). -/
theorem mapped_of_targetAt {c : Config} {o : Nat} {t : Target} (ht : targetAt c o = some t) : Mapped c o := by
  rw [Mapped]
  by_cases hreg : o < 0x10000
  · rw [targetAt, if_pos hreg, Option.map_eq_some_iff] at ht
    obtain ⟨r, hr, -⟩ := ht
    exact .inl (regAt_bounds hr).2
  · rw [targetAt, if_neg hreg] at ht
    split_ifs at ht <;> omega

theorem targetAt_eq_none_of_not_mapped {c : Config} {o : Nat} (h : ¬ Mapped c o) : targetAt c o = none :=
  Option.eq_none_iff_forall_ne_some.2 fun _ ht => h (mapped_of_targetAt ht)

end Sys2Proof.Machine
end

section
/-! The life of a command on the bus (40_command_lifecycle.md), one statement each. -/

namespace Sys2Proof.Machine

/-- Settles O13: each place's own write, and a refusal where the offset is misaligned or reaches nothing. -/
theorem busyWritesAreDropped : Obligations.BusyWritesAreDropped := by
  intro s o v hr hc hp
  refine ⟨?dropped, ?status, ?readOnly, fun ho hbad => ⟨none, ?refused⟩⟩
  case dropped =>
    rintro (hmem | ⟨i, hi, rfl⟩ | ⟨i, hi, rfl⟩)
    · obtain ⟨r, hreg, hdrop⟩ := exists_regAt_dropped hmem
      rw [State.access_write_reg hr hreg, hdrop s v hp, State.drop]
    · exact State.access_write_dropped hr (by omega) (targetAt_mbuf hc hi) rfl hp
    · exact State.access_write_dropped hr (by omega) (targetAt_cbuf hc hi) rfl hp
  case status =>
    rintro rfl
    exact State.access_write_reg hr (r := .status) rfl v
  case readOnly =>
    rintro (hmem | ⟨i, hi, rfl⟩)
    · obtain ⟨r, hreg, hkeep⟩ := exists_regAt_readOnly hmem
      rw [State.access_write_reg hr hreg, hkeep]
    · exact State.access_wordAt_write hr (by omega) (targetAt_pram s.cfg hi) v
  case refused =>
    by_cases ha : o % 4 = 0
    · have hun : ¬ Mapped s.cfg o := hbad.resolve_left (not_not_intro ha)
      exact State.access_wordAt_unmapped ho (targetAt_eq_none_of_not_mapped hun) (.write v)
    · rw [s.access_wordAt ho, s.accessAt_misshapen (.inl ha), slverr]

/-- Settles O11: the request is accepted, and acceptance clears DONE, so irq is 0. -/
theorem cmdWriteAcceptsTheCommand : Obligations.CmdWriteAcceptsTheCommand := by
  intro s w i hr hp hd
  rw [State.access_write_cmd hr, State.request_of_legal hp hd]
  refine ⟨rfl, rfl, ?irq⟩
  case irq => rw [State.irq, State.accept_status, Bool.and_false]

/-- Settles O12: the request is rejected, which leaves the block in IDLE, where the engine does nothing. -/
theorem illegalCmdWriteIsRejected : Obligations.IllegalCmdWriteIsRejected := by
  intro s w hr hp hbad
  obtain ⟨why, hd⟩ := exists_decode_eq_illegal hbad
  rw [State.access_write_cmd hr, State.request_of_illegal hp hd]
  refine ⟨rfl, hp, ?busy, rfl, engineTurn_of_idle hp⟩
  case busy => simp only [State.busy, State.reject, hp]

end Sys2Proof.Machine
end

section
/-! SUPPORT. Trial division against Mathlib's primes (41_primality.md R130, R132), and membership in Sieve(b)
(42_sieve.md R141). Proofs about ISPRIME and SIEVE cite these and do not unfold the loops. -/

namespace Sys2Proof.Machine

theorem isqrt_eq_sqrt (n : Nat) : isqrt n = Nat.sqrt n :=
  Nat.eq_sqrt.2 (isqrtLoop_spec le_rfl)

/-- An odd number is divided by odd numbers only, so the loop over odd candidates misses no divisor. -/
theorem trialLoop_iff_no_divisor {n r : Nat} (hodd : n % 2 ≠ 0) :
    trialLoop n r r 3 = true ↔ ∀ d, 2 ≤ d → d ≤ r → ¬ d ∣ n := by
  rw [trialLoop_iff n r (by omega)]
  refine ⟨fun h d h2 hr hd => ?divisor, fun h k hk hmod => ?candidate⟩
  case divisor =>
    have hdodd : d % 2 ≠ 0 := fun heven =>
      hodd (Nat.mod_eq_zero_of_dvd ((Nat.dvd_of_mod_eq_zero heven).trans hd))
    obtain ⟨k, rfl⟩ : ∃ k, d = 3 + 2 * k := ⟨(d - 3) / 2, by omega⟩
    exact h k hr (Nat.mod_eq_zero_of_dvd hd)
  case candidate => exact h (3 + 2 * k) (by omega) hk (Nat.dvd_of_mod_eq_zero hmod)

theorem isPrimeTD_iff_prime (n : Nat) : isPrimeTD n = true ↔ n.Prime := by
  rw [isPrimeTD]
  split_ifs with hsmall htwo heven
  · exact iff_of_false not_false fun hn => absurd hn.two_le (by omega)
  · exact iff_of_true rfl (htwo ▸ Nat.prime_two)
  · exact iff_of_false not_false fun hn => by have := hn.eq_two_or_odd; omega
  · rw [isqrt_eq_sqrt, trialLoop_iff_no_divisor heven, Nat.prime_def_le_sqrt]
    exact (and_iff_right (by omega)).symm

/-- IsPrimeNat of 41_primality.md R132: at least 2, and no divisor strictly between 1 and the number. -/
theorem isPrimeTD_iff (n : Nat) : isPrimeTD n = true ↔ 2 ≤ n ∧ ∀ d, 1 < d → d < n → ¬ d ∣ n :=
  (isPrimeTD_iff_prime n).trans Nat.prime_def_lt'

/-- A number below 2 is no prime, so the bounds of the list leave out no prime up to b. -/
theorem mem_sieve_iff {b x : Nat} : x ∈ sieve b ↔ x ≤ b ∧ isPrimeTD x = true := by
  rw [sieve, List.mem_filter, List.mem_range'_1]
  refine and_congr_left fun hprime => ?_
  have htwo := ((isPrimeTD_iff_prime x).1 hprime).two_le
  omega

end Sys2Proof.Machine
end

section
/-! Trial division and ISPRIME, one statement each (41_primality.md R131, R132). -/

namespace Sys2Proof.Machine

/-- Settles O5: trial division stops at the square root, and a number with a proper divisor has one up to there. -/
theorem trialDivisionDecidesPrimality : Obligations.TrialDivisionDecidesPrimality :=
  ⟨isPrimeTD_iff, fun b x => by rw [mem_sieve_iff, isPrimeTD_iff]⟩

/-- Settles O32: ISPRIME completes with the answer of trial division, which is primality. -/
theorem isprimeTestsPrimality : Obligations.IsprimeTestsPrimality := by
  refine ⟨rfl, fun s => ?_⟩
  have hprime : isPrimeTD s.operandA = true ↔ 2 ≤ s.opa.toNat ∧ ∀ d < s.opa.toNat, 1 < d → ¬ d ∣ s.opa.toNat := by
    rw [isPrimeTD_iff, State.operandA]
    exact and_congr_right fun _ => forall_congr' fun _ => imp.swap
  calc exec .isprime s
      = .next { s with r0 := if isPrimeTD s.operandA then 1 else 0 }.complete := rfl
    _ = _ := by simp only [hprime, State.complete]

end Sys2Proof.Machine
end

section
/-! SUPPORT. ModPow, ModInv and Gcd against Mathlib's powers, congruences and gcd (43_modular_arithmetic.md R153, R156, R159).
Proofs about MODPOW, MODINV, GCD and the codec cite these and do not unfold the loops. -/

namespace Sys2Proof.Machine

/-! ### Modular power (43_modular_arithmetic.md R153) -/

theorem modPow_lt (a k : Nat) {m : Nat} (hm : 1 ≤ m) : modPow a k m < m :=
  modPowLoop_lt k k (a % m) (Nat.mod_lt 1 hm)

theorem modPow_eq (a k : Nat) {m : Nat} (hm : 1 ≤ m) : modPow a k m = a ^ k % m :=
  calc modPow a k m
      = modPow a k m % m := (Nat.mod_eq_of_lt (modPow_lt a k hm)).symm
    _ = 1 % m * (a % m) ^ k % m := modPowLoop_mod m (1 % m) (a % m) le_rfl
    _ = 1 * a ^ k % m := (Nat.mod_modEq 1 m).mul ((Nat.mod_modEq a m).pow k)
    _ = a ^ k % m := by rw [Nat.one_mul]

/-- The exponent 1 reduces modulo m (43_modular_arithmetic.md R156). -/
theorem modPow_one_right (r : Nat) {m : Nat} (hm : 1 ≤ m) : modPow r 1 m = r % m := by
  rw [modPow_eq r 1 hm, pow_one]

/-- The check of ModInv; r may be m itself, whose remainder is 0 (43_modular_arithmetic.md R156). -/
theorem modPow_one_right_eq_one_iff {r m : Nat} (hm : 2 ≤ m) (hr : r ≤ m) : modPow r 1 m = 1 ↔ r = 1 := by
  rw [modPow_one_right r (by omega)]
  rcases hr.lt_or_eq with hlt | rfl
  · rw [Nat.mod_eq_of_lt hlt]
  · rw [Nat.mod_self]; omega

/-! ### Modular inverse (43_modular_arithmetic.md R154, R156) -/

theorem modInv_one_right (a : Nat) : modInv a 1 = some 0 := if_pos rfl

/-- The remainders of ModInv's loop end in the gcd, so its check is the gcd's. -/
theorem modInv_of_two_le (a : Nat) {m : Nat} (hm : 2 ≤ m) :
    modInv a m = if Nat.gcd a m ≠ 1 then none else some ((euclidLoop m a m 1 0).2 % (m : Int)).toNat := by
  have hle : Nat.gcd a m ≤ m := Nat.gcd_le_right a (by omega)
  rw [modInv, if_neg (by omega)]
  simp only [ne_eq, euclidLoop_fst a 1 0 le_rfl, modPow_one_right_eq_one_iff hm hle]

theorem modInv_eq_none_iff (a : Nat) {m : Nat} (hm : 2 ≤ m) : modInv a m = none ↔ Nat.gcd a m ≠ 1 := by
  rw [modInv_of_two_le a hm]
  split <;> simp [*]

/-- No product with 0 leaves the remainder 1. -/
theorem one_le_of_mul_mod_eq_one {a x m : Nat} (h : a * x % m = 1) : 1 ≤ x := by
  refine Nat.one_le_iff_ne_zero.2 fun h0 => ?_
  rw [h0, Nat.mul_zero, Nat.zero_mod] at h
  exact absurd h (by decide)

/-- Inverses modulo m agree, since a can be cancelled when gcd(a, m) = 1. -/
theorem eq_of_mul_mod_eq_one {a x y m : Nat} (hg : Nat.gcd a m = 1) (hx : x < m) (hy : y < m) (hax : a * x % m = 1)
    (hay : a * y % m = 1) : y = x := by
  have hmul : a * y ≡ a * x [MOD m] := hay.trans hax.symm
  exact (hmul.cancel_left_of_coprime (Nat.gcd_comm a m ▸ hg)).eq_of_lt_of_lt hy hx

/-- The second component of ModInv's loop is a Bézout coefficient of a. -/
theorem mul_euclidLoop_snd_modEq_one {a m : Nat} (hg : Nat.gcd a m = 1) :
    (a : Int) * (euclidLoop m a m 1 0).2 ≡ 1 [ZMOD m] := by
  have h0 : (a : Int) * 1 ≡ (a : Int) [ZMOD m] := by rw [mul_one]
  have h1 : (a : Int) * 0 ≡ (m : Int) [ZMOD m] := by rw [mul_zero, Int.ModEq, Int.emod_self, Int.zero_emod]
  have hbezout := euclidLoop_bezout a m m a m 1 0 h0 h1
  rwa [euclidLoop_fst a 1 0 le_rfl, hg, Nat.cast_one] at hbezout

/-- The answer of ModInv is the coefficient's remainder modulo m. -/
theorem exists_modInv_eq_some {a m : Nat} (hm : 2 ≤ m) (hg : Nat.gcd a m = 1) :
    ∃ x, modInv a m = some x ∧ 1 ≤ x ∧ x < m ∧ a * x % m = 1 := by
  have hinv := mul_euclidLoop_snd_modEq_one hg
  rw [modInv_of_two_le a hm, if_neg (not_not_intro hg)]
  generalize (euclidLoop m a m 1 0).2 = c at hinv
  have hnonneg : 0 ≤ c % (m : Int) := Int.emod_nonneg c (by omega)
  have hlt : c % (m : Int) < m := Int.emod_lt_of_pos c (by omega)
  have hone : a * (c % (m : Int)).toNat % m = 1 := by
    zify
    rw [Int.toNat_of_nonneg hnonneg, ((Int.mod_modEq c m).mul_left a).trans hinv]
    exact Int.emod_eq_of_lt (by decide) (by omega)
  exact ⟨_, rfl, one_le_of_mul_mod_eq_one hone, by omega, hone⟩

/-! ### Greatest common divisor (43_modular_arithmetic.md R157, R159) -/

theorem gcdNat_eq_gcd (a b : Nat) : gcdNat a b = Nat.gcd a b := gcdLoop_eq a le_rfl

end Sys2Proof.Machine
end

section
/-! SUPPORT. The answers of MODPOW, MODINV and GCD by their operands, and that narrowing a result to R0 loses nothing
(43_modular_arithmetic.md R152, R155, R158; log 21). -/

namespace Sys2Proof.Machine

/-! ### Narrowing to R0 -/

theorem ofNat_toNat_of_le {x : Nat} {v : Word} (h : x ≤ v.toNat) : (BitVec.ofNat 32 x).toNat = x := by
  rw [BitVec.toNat_ofNat, Nat.mod_eq_of_lt (h.trans_lt v.isLt)]

/-- The gcd is at most the second operand, or the first operand itself where the second is 0. -/
theorem ofNat_gcd_toNat (v w : Word) : (BitVec.ofNat 32 (Nat.gcd v.toNat w.toNat)).toNat = Nat.gcd v.toNat w.toNat := by
  rcases Nat.eq_zero_or_pos w.toNat with h0 | hpos
  · rw [h0, Nat.gcd_zero_right]; exact ofNat_toNat_of_le le_rfl
  · exact ofNat_toNat_of_le (Nat.gcd_le_right v.toNat hpos)

/-! ### The three commands -/

theorem exec_modpow_of_zero {s : State} (h : s.opc.toNat = 0) : exec .modpow s = .next (s.raise .domainError) :=
  if_pos h

theorem exec_modpow_of_pos {s : State} (h : 1 ≤ s.opc.toNat) :
    exec .modpow s =
      .next (State.complete { s with r0 := BitVec.ofNat 32 (s.opa.toNat ^ s.opb.toNat % s.opc.toNat) }) := by
  rw [← modPow_eq s.opa.toNat s.opb.toNat h]
  exact if_neg (show s.opc.toNat ≠ 0 by omega)

theorem exec_modinv_of_zero {s : State} (h : s.opb.toNat = 0) : exec .modinv s = .next (s.raise .domainError) :=
  if_pos h

theorem exec_modinv_of_none {s : State} (hb : 1 ≤ s.opb.toNat) (h : modInv s.opa.toNat s.opb.toNat = none) :
    exec .modinv s = .next (s.raise .noModularInverse) := by
  rw [exec, execModinv, State.operandA, State.operandB, if_neg (by omega), h]

theorem exec_modinv_of_some {s : State} {x : Nat} (hb : 1 ≤ s.opb.toNat) (h : modInv s.opa.toNat s.opb.toNat = some x) :
    exec .modinv s = .next (State.complete { s with r0 := BitVec.ofNat 32 x }) := by
  rw [exec, execModinv, State.operandA, State.operandB, if_neg (by omega), h]

theorem exec_gcd (s : State) :
    exec .gcd s = .next (State.complete { s with r0 := BitVec.ofNat 32 (Nat.gcd s.opa.toNat s.opb.toNat) }) := by
  rw [← gcdNat_eq_gcd]; rfl

end Sys2Proof.Machine
end

section
/-! Modular power, inverse and gcd, and their commands, one statement each (43_modular_arithmetic.md). -/

namespace Sys2Proof.Machine

/-- Settles O6: the invariant of square-and-multiply, and that every turn reduces modulo m. -/
theorem modPowIsThePowerModulo : Obligations.ModPowIsThePowerModulo :=
  fun a k _ hm => ⟨modPow_eq a k hm, modPow_lt a k hm⟩

/-- Settles O7: the extended Euclidean loop ends in the gcd and a Bézout coefficient, and a cancels where the gcd is 1. -/
theorem modInvIsTheUniqueInverse : Obligations.ModInvIsTheUniqueInverse := by
  refine ⟨fun a m hm => modInv_eq_none_iff a hm, fun a m hm hg => ?unique, fun m r hm _ hr => ?check, fun a => ?modulusOne⟩
  case unique =>
    obtain ⟨x, hsome, hpos, hlt, hone⟩ := exists_modInv_eq_some hm hg
    refine ⟨x, hsome, hpos, by omega, hone, fun y _ hy hay => ?_⟩
    exact eq_of_mul_mod_eq_one hg hlt (by omega) hone hay
  case check => exact ⟨modPow_one_right_eq_one_iff hm hr, modPow_one_right r (by omega)⟩
  case modulusOne => exact ⟨modInv_one_right a, by rw [Nat.mod_one, Nat.mod_one]⟩

/-- Settles O8: Gcd is Mathlib's gcd, of which each clause is known. -/
theorem gcdIsTheGreatestCommonDivisor : Obligations.GcdIsTheGreatestCommonDivisor := by
  intro a b
  simp only [gcdNat_eq_gcd]
  refine ⟨Nat.gcd_dvd_left a b, Nat.gcd_dvd_right a b, fun c => Nat.dvd_gcd, Nat.gcd_comm a b,
    fun hne c hca hcb => ?greatest, Nat.gcd_zero_right a, Nat.gcd_zero_left b⟩
  case greatest =>
    have hpos : 0 < Nat.gcd a b := Nat.pos_of_ne_zero (mt Nat.gcd_eq_zero_iff.1 hne)
    exact Nat.le_of_dvd hpos (Nat.dvd_gcd hca hcb)

/-- Settles O36: the power modulo OPC is below OPC, so R0 holds it whole. -/
theorem modpowRaisesModulo : Obligations.ModpowRaisesModulo := by
  refine ⟨rfl, fun s => ⟨fun h => ?domain, fun h => ?power⟩⟩
  case domain => exact exec_modpow_of_zero (by rw [h]; rfl)
  case power =>
    have hpos : 0 < s.opc.toNat := BitVec.toNat_pos_of_ne_zero h
    exact ⟨_, ofNat_toNat_of_le (Nat.mod_lt _ hpos).le, exec_modpow_of_pos hpos⟩

/-- Settles O37: the answer of ModInv by the modulus and the gcd, which is below OPB, so R0 holds it whole. -/
theorem modinvInvertsOrReports : Obligations.ModinvInvertsOrReports := by
  refine ⟨rfl, fun s => ⟨fun h => ?domain, fun hb hg => ?noInverse, fun h => ?modulusOne, fun hb hg => ?inverse⟩⟩
  case domain => exact exec_modinv_of_zero (by rw [h]; rfl)
  case noInverse => exact exec_modinv_of_none (by omega) ((modInv_eq_none_iff s.opa.toNat hb).2 hg)
  case modulusOne =>
    have hone : s.opb.toNat = 1 := by rw [h]; rfl
    exact exec_modinv_of_some (x := 0) hone.ge (by rw [hone, modInv_one_right])
  case inverse =>
    obtain ⟨x, hsome, hpos, hlt, hone⟩ := exists_modInv_eq_some hb hg
    refine ⟨BitVec.ofNat 32 x, ?_⟩
    rw [ofNat_toNat_of_le hlt.le]
    exact ⟨hpos, hlt, hone, exec_modinv_of_some (by omega) hsome⟩

/-- Settles O38: the loop computes the gcd, which R0 holds whole. -/
theorem gcdOfTheOperands : Obligations.GcdOfTheOperands :=
  ⟨rfl, fun s => ⟨_, ofNat_gcd_toNat s.opa s.opb, exec_gcd s⟩⟩

end Sys2Proof.Machine
end

section
/-! SUPPORT. What a KEYGEN step answers before stage FINISH and in it, and what holds of every keypair over the PrimeSet
(44_keygen.md R172 to R177; log 21). -/

namespace Sys2Proof.Machine

/-! ### The step, by its stage -/

/-- A stage before FINISH reports one of its own codes or goes on to another draw or stage (44_keygen.md R172 to R175). -/
theorem exec_keygen_of_ne_finish {s t : State} (hs : s.kg.stage ≠ .finish) (h : exec .keygen s = .next t) :
    (∃ c ∈ [ErrCode.insufficientPrimes, .retryExhausted, .emptyExponentRange], t = s.raise c ∨ t = s.drawn.raise c) ∨
      ∃ k, t = { s.drawn with kg := k } := by
  rw [exec, execKeygen] at h
  cases hstage : s.kg.stage with
  | pickP =>
    simp only [hstage, keygenPickP] at h
    split at h <;> cases h
    · exact .inl ⟨.insufficientPrimes, by decide, .inl rfl⟩
    · exact .inr ⟨_, rfl⟩
  | pickQ =>
    simp only [hstage, keygenPickQ] at h
    split_ifs at h <;> cases h
    · exact .inl ⟨.retryExhausted, by decide, .inr rfl⟩
    · exact .inr ⟨_, rfl⟩
    · exact .inl ⟨.emptyExponentRange, by decide, .inr rfl⟩
    · exact .inr ⟨_, rfl⟩
  | pickE =>
    simp only [hstage, keygenPickE] at h
    split_ifs at h <;> cases h
    · exact .inl ⟨.retryExhausted, by decide, .inr rfl⟩
    · exact .inr ⟨_, rfl⟩
    · exact .inr ⟨_, rfl⟩
  | finish => exact absurd hstage hs

theorem exec_keygen_of_finish {s : State} (h : s.kg.stage = .finish) : exec .keygen s = keygenFinish s := by
  rw [exec, execKeygen, h]

theorem keygenFinish_of_none {s : State} (h : modInv s.kg.e s.kg.m = none) :
    keygenFinish s = .next (s.raise .noModularInverse) := by
  rw [keygenFinish, h]

theorem keygenFinish_of_some {s : State} {x : Nat} (h : modInv s.kg.e s.kg.m = some x) :
    keygenFinish s = .next (State.complete { s with
      r0 := BitVec.ofNat 32 s.kg.e, r1 := BitVec.ofNat 32 x, r2 := BitVec.ofNat 32 s.kg.n }) := by
  rw [keygenFinish, h]

/-- Before FINISH no step succeeds: an error sets ERR, and else the KEYGEN still runs (44_keygen.md R172 to R175). -/
theorem exec_keygen_not_succeeded {s t : State} (hp : s.phase = .busy .keygen) (hs : s.kg.stage ≠ .finish)
    (h : exec .keygen s = .next t) : ¬ t.succeeded := by
  rintro ⟨hidle, -, herr, -⟩
  obtain ⟨c, -, rfl | rfl⟩ | ⟨k, rfl⟩ := exec_keygen_of_ne_finish hs h
  · cases herr
  · cases herr
  · rw [State.drawn_phase, hp] at hidle; cases hidle

/-- Only FINISH inverts, so only FINISH could report NO_MODULAR_INVERSE (44_keygen.md R177 item 5). -/
theorem exec_keygen_errcode_ne_noModularInverse {s t : State} (hclean : s.status.errcode = .none)
    (hs : s.kg.stage ≠ .finish) (h : exec .keygen s = .next t) : t.status.errcode ≠ .noModularInverse := by
  obtain ⟨c, hc, ht⟩ | ⟨k, rfl⟩ := exec_keygen_of_ne_finish hs h
  · have hcode : t.status.errcode = c := by rcases ht with rfl | rfl <;> rfl
    rw [hcode]
    rintro rfl
    exact absurd hc (by decide)
  · rw [State.drawn_status, hclean]; decide

/-! ### Keypairs over the PrimeSet (44_keygen.md R177) -/

/-- A PRAM cell has 16 bits (10_state.md R32). -/
theorem State.lt_of_mem_primeSet {s : State} {x : Nat} (h : x ∈ s.primeSet) : x < 2 ^ 16 := by
  obtain ⟨i, -, rfl⟩ := List.mem_map.1 h
  exact (s.pramAt i).isLt

theorem State.Inv.prime_of_mem_primeSet {s : State} (hi : s.Inv) {x : Nat} (h : x ∈ s.primeSet) : x.Prime := by
  rw [hi.primeSet, mem_sieve_iff, isPrimeTD_iff_prime] at h
  exact h.2

/-- In stage FINISH e has an inverse, and it makes a keypair with e and n (44_keygen.md R176, R177 items 1 to 3). -/
theorem State.Inv.exists_inverse {s : State} (hi : s.Inv) (hp : s.phase = .busy .keygen) (hs : s.kg.stage = .finish) :
    ∃ x, modInv s.kg.e s.kg.m = some x ∧ IsKeypair s.primeSet s.kg.e x s.kg.n := by
  have hinv := hi.keygen hp
  rw [State.keygenInv, hs] at hinv
  obtain ⟨⟨hpm, hqm, hne, hn, hm, hm3⟩, -, -, he2, hem, hgcd⟩ := hinv
  obtain ⟨x, hsome, hpos, hlt, hone⟩ := exists_modInv_eq_some (by omega) hgcd
  refine ⟨x, hsome, s.kg.p, s.kg.q, hpm, hqm, hne, hn, ?_⟩
  rw [← hm]
  exact ⟨hm3, he2, hem, hgcd, hpos, by omega, hone⟩

/-- Both exponents lie below the totient, which is at most n. -/
theorem IsKeypair.exponents_le {ps : List Nat} {e d n : Nat} (h : IsKeypair ps e d n) : e ≤ n ∧ d ≤ n := by
  obtain ⟨p, q, -, -, -, rfl, -, -, he, -, -, hd, -⟩ := h
  have hle : (p - 1) * (q - 1) ≤ p * q := Nat.mul_le_mul (Nat.sub_le p 1) (Nat.sub_le q 1)
  omega

/-- The modulus is a product of two PRAM cells, so R2 holds it whole (log 21). -/
theorem IsKeypair.n_lt {s : State} {e d n : Nat} (h : IsKeypair s.primeSet e d n) : n < 2 ^ 32 := by
  obtain ⟨p, q, hp, hq, -, rfl, -⟩ := h
  calc p * q < 2 ^ 16 * 2 ^ 16 := Nat.mul_lt_mul'' (State.lt_of_mem_primeSet hp) (State.lt_of_mem_primeSet hq)
    _ = 2 ^ 32 := by norm_num

/-- Two primes that divide the square of a prime are that prime, and p and q are different (44_keygen.md R177 item 4). -/
theorem IsKeypair.n_ne_prime_sq {ps : List Nat} {e d n : Nat} (h : IsKeypair ps e d n) (hps : ∀ p ∈ ps, p.Prime)
    {x : Nat} (hx : x.Prime) : n ≠ x * x := by
  obtain ⟨p, q, hp, hq, hne, rfl, -⟩ := h
  intro hsq
  have eq_of_dvd {r : Nat} (hr : r ∈ ps) (hd : r ∣ p * q) : r = x := by
    rw [hsq, (hps r hr).dvd_mul, or_self_iff] at hd
    exact (Nat.prime_dvd_prime_iff_eq (hps r hr) hx).1 hd
  exact hne ((eq_of_dvd hp (p.dvd_mul_right q)).trans (eq_of_dvd hq (q.dvd_mul_left p)).symm)

end Sys2Proof.Machine
end

section
/-! The end of KEYGEN, one statement each (44_keygen.md R176, R177). -/

namespace Sys2Proof.Machine

/-- Settles O42: the answer of ModInv for e and the totient, by their gcd. -/
theorem keygenFinishes : Obligations.KeygenFinishes := by
  intro s hs hm
  rw [exec_keygen_of_finish hs]
  refine ⟨fun hg => ?noInverse, fun hg => ?inverse⟩
  case noInverse => exact keygenFinish_of_none ((modInv_eq_none_iff s.kg.e hm).2 hg)
  case inverse =>
    obtain ⟨x, hsome, hpos, hlt, hone⟩ := exists_modInv_eq_some hm hg
    exact ⟨x, hpos, by omega, hone, keygenFinish_of_some hsome⟩

/-- Settles O49: only FINISH can succeed or miss an inverse, and there the invariant makes e invertible; the
numbers of the keypair are at most n, which is below 2^32, so R0, R1 and R2 hold them whole. -/
theorem keygenLeavesAKeypair : Obligations.KeygenLeavesAKeypair := by
  intro s t hi hp h
  by_cases hs : s.kg.stage = .finish
  case neg =>
    obtain ⟨-, -, hclean⟩ := hi.busyClean (by rw [hp]; decide)
    exact ⟨exec_keygen_errcode_ne_noModularInverse hclean hs h,
      fun hsucc => absurd hsucc (exec_keygen_not_succeeded hp hs h)⟩
  case pos =>
    obtain ⟨x, hsome, hkeypair⟩ := hi.exists_inverse hp hs
    obtain ⟨he, hx⟩ := hkeypair.exponents_le
    have hn := hkeypair.n_lt
    rw [exec_keygen_of_finish hs, keygenFinish_of_some hsome] at h
    cases h
    refine ⟨nofun, fun _ => ?_⟩
    simp only [State.complete_r0, State.complete_r1, State.complete_r2, BitVec.toNat_ofNat,
      Nat.mod_eq_of_lt (he.trans_lt hn), Nat.mod_eq_of_lt (hx.trans_lt hn), Nat.mod_eq_of_lt hn]
    exact ⟨hkeypair, fun y hy => hkeypair.n_ne_prime_sq (fun _ => hi.prime_of_mem_primeSet) hy⟩

end Sys2Proof.Machine
end

section
/-! SUPPORT. The block format against Mathlib's digits (45_block_codec.md R190 to R192): the digits of a block, its
length, and that the window of a block has the block's value. Proofs about the codec cite these and do not unfold the loops. -/

namespace Sys2Proof.Machine

/-! ### Digit characters (45_block_codec.md R190) -/

theorem digitChar_toNat {d : Nat} (h : d < 10) : (digitChar d).toNat = 0x30 + d := by
  rw [digitChar, BitVec.toNat_ofNat]; omega

theorem isDigitCode_digitChar {d : Nat} (h : d < 10) : IsDigitCode (digitChar d) := by
  rw [IsDigitCode, digitChar_toNat h]; omega

theorem isDigit_iff (c : Byte) : isDigit c = true ↔ IsDigitCode c := by
  rw [isDigit, Bool.and_eq_true, decide_eq_true_eq, decide_eq_true_eq, IsDigitCode]

/-! ### Blocks (45_block_codec.md R191) -/

/-- Mathlib gives 0 no digits and `decimal` gives it one; the padding makes up for it. -/
theorem fmt_eq_asciiBlock (v : Nat) : fmt v = asciiBlock v := by
  rcases Nat.eq_zero_or_pos v with rfl | hpos
  · rw [fmt, decimal_zero, asciiBlock, Nat.digits_zero]; rfl
  · rw [fmt, decimal_pos hpos, List.length_map, List.length_reverse]; rfl

/-- The padding with '0' on the left is Mathlib's padding with the digit 0 at the most significant end. -/
theorem asciiBlock_eq_digitsAppend (v : Nat) : asciiBlock v = (Nat.digitsAppend 10 5 v).reverse.map digitChar := by
  rw [Nat.digitsAppend, List.reverse_append, List.reverse_replicate, List.map_append, List.map_replicate]; rfl

theorem asciiBlock_length (v : Nat) : (asciiBlock v).length = max 5 (Nat.digits 10 v).length := by
  rw [asciiBlock_eq_digitsAppend, List.length_map, List.length_reverse, Nat.digitsAppend, List.length_append,
    List.length_replicate]
  omega

theorem asciiBlock_length_of_lt {v : Nat} (h : v < 100000) : (asciiBlock v).length = 5 := by
  have hle : (Nat.digits 10 v).length ≤ 5 := (Nat.digits_length_le_iff (by decide) v).2 h
  rw [asciiBlock_length, max_eq_left hle]

/-- 2^32 is below 10^10 (45_block_codec.md R191, 60_exceptions.md R230). -/
theorem asciiBlock_length_le_ten {v : Nat} (h : v < 2 ^ 32) : (asciiBlock v).length ≤ 10 := by
  have hle : (Nat.digits 10 v).length ≤ 10 := (Nat.digits_length_le_iff (by decide) v).2 (h.trans (by decide))
  rw [asciiBlock_length]
  omega

/-- Digit i counts the powers 10^i, in the padding too. -/
theorem getD_digitsAppend (v i : Nat) : (Nat.digitsAppend 10 5 v).getD i 0 = v / 10 ^ i % 10 := by
  rw [← Nat.getD_digits v i (b := 10) (by decide), Nat.digitsAppend]
  rcases lt_or_ge i (Nat.digits 10 v).length with hlt | hge
  · exact List.getD_append _ _ _ _ hlt
  · rw [List.getD_append_right _ _ _ _ hge, List.getD_eq_default _ _ hge, List.getD_eq_getElem?_getD,
      List.getElem?_getD_replicate_default_eq]

/-- Character j of a block of five is the digit of 10^(4-j). -/
theorem asciiBlock_getElem? {v j : Nat} (hv : v < 100000) (hj : j < 5) :
    (asciiBlock v)[j]? = some (digitChar (v / 10 ^ (4 - j) % 10)) := by
  have hlen : (Nat.digitsAppend 10 5 v).length = 5 := Nat.length_digitsAppend (by decide) 5 hv
  rw [asciiBlock_eq_digitsAppend, List.getElem?_map, List.getElem?_reverse (by omega), hlen,
    List.getElem?_eq_getElem (by omega), ← List.getD_eq_getElem _ 0, getD_digitsAppend]
  rfl

theorem isDigitCode_of_mem_asciiBlock {v : Nat} {c : Byte} (h : c ∈ asciiBlock v) : IsDigitCode c := by
  rw [asciiBlock_eq_digitsAppend, List.mem_map] at h
  obtain ⟨d, hd, rfl⟩ := h
  exact isDigitCode_digitChar (Nat.lt_of_mem_digitsAppend (by decide) 5 d (List.mem_reverse.1 hd))

/-! ### Windows (45_block_codec.md R192) -/

theorem State.blockValue_eq_windowValue (s : State) (t : Nat) : s.blockValue t = s.windowValue t := by
  simp [State.blockValue, State.windowValue, parse5, digitValue, List.range_succ, Nat.add_assoc]

/-- The window that holds the block of v has the value v. -/
theorem State.windowValue_of_asciiBlock {s : State} {t v : Nat} (hv : v < 100000)
    (h : ∀ j < 5, (asciiBlock v)[j]? = some (s.cbufAt (5 * t + j))) : s.windowValue t = v := by
  have hdigit : ∀ j < 5, (s.cbufAt (5 * t + j)).toNat - 0x30 = v / 10 ^ (4 - j) % 10 := fun j hj => by
    have hc := h j hj
    rw [asciiBlock_getElem? hv hj, Option.some.injEq] at hc
    rw [← hc, digitChar_toNat (Nat.mod_lt _ (by decide)), Nat.add_sub_cancel_left]
  calc s.windowValue t
      = ((List.range 5).map fun j => v / 10 ^ (4 - j) % 10 * 10 ^ (4 - j)).sum := by
        rw [State.windowValue]
        exact congrArg List.sum (List.map_congr_left fun j hj => by rw [hdigit j (List.mem_range.1 hj)])
    _ = v := by simp [List.range_succ]; omega

/-- Where every block has w entries, block i starts at entry w * i. -/
theorem getElem?_flatten_of_forall_length {α : Type} {w i j : Nat} {bs : List (List α)} {b : List α}
    (hw : ∀ x ∈ bs, x.length = w) (hb : bs[i]? = some b) (hj : j < w) : bs.flatten[w * i + j]? = b[j]? := by
  induction bs generalizing i with
  | nil => cases hb
  | cons a bs ih =>
    obtain ⟨ha, hbs⟩ := List.forall_mem_cons.1 hw
    rw [List.flatten_cons]
    cases i with
    | zero =>
      cases hb
      rw [Nat.mul_zero, Nat.zero_add, List.getElem?_append_left (by omega)]
    | succ i =>
      have hidx : w * (i + 1) + j - w = w * i + j := by rw [Nat.mul_succ]; omega
      rw [List.getElem?_append_right (by rw [Nat.mul_succ]; omega), ha, hidx]
      exact ih hbs hb

end Sys2Proof.Machine
end

section
/-! SUPPORT. ENCRYPT by its operands: the ciphertext, and one equation for each of its checks and for its success, in
the order of 45_block_codec.md R193. -/

namespace Sys2Proof.Machine

/-! ### The ciphertext -/

/-- The blocks of the message MBUF[0, MLEN), in order (45_block_codec.md R193). -/
def State.cipherBlocks (s : State) : List (List Byte) :=
  (List.range s.mlen.toNat).map fun i => asciiBlock ((s.mbufAt i).toNat ^ s.opa.toNat % s.opb.toNat)

/-- What ENCRYPT computes is the blocks (45_block_codec.md R191, R193). -/
theorem cipher_eq_cipherBlocks {s : State} (hn : 1 ≤ s.opb.toNat) :
    cipher (s.codePoints s.mlen.toNat) s.operandA s.operandB = s.cipherBlocks.flatten := by
  have hblock : ∀ c, fmt (modPow c s.operandA s.operandB) = asciiBlock (c ^ s.opa.toNat % s.opb.toNat) := fun c => by
    rw [fmt_eq_asciiBlock]
    exact congrArg asciiBlock (modPow_eq c s.opa.toNat hn)
  simp only [cipher, List.flatMap_def, State.codePoints, State.cipherBlocks, List.map_map, Function.comp_def, hblock]

theorem State.cipherBlocks_length (s : State) : s.cipherBlocks.length = s.mlen.toNat := by
  rw [State.cipherBlocks, List.length_map, List.length_range]

theorem State.cipherBlocks_getElem? (s : State) {i : Nat} (hi : i < s.mlen.toNat) :
    s.cipherBlocks[i]? = some (asciiBlock ((s.mbufAt i).toNat ^ s.opa.toNat % s.opb.toNat)) := by
  rw [State.cipherBlocks, List.getElem?_map, List.getElem?_range hi, Option.map_some]

theorem State.exists_of_mem_cipherBlocks {s : State} (hn : 1 ≤ s.opb.toNat) {b : List Byte} (h : b ∈ s.cipherBlocks) :
    ∃ v < s.opb.toNat, b = asciiBlock v := by
  obtain ⟨i, -, rfl⟩ := List.mem_map.1 h
  exact ⟨_, Nat.mod_lt _ hn, rfl⟩

/-- Ten characters a block fit in CBUF, so ENCRYPT never reports BUFFER_OVERFLOW (60_exceptions.md R230). -/
theorem State.cipherBlocks_fit {s : State} (hk : s.mlen.toNat ≤ s.cfg.mbufDepth) (hn : 1 ≤ s.opb.toNat) :
    s.cipherBlocks.flatten.length ≤ s.cfg.cbufDepth := by
  have hten : ∀ x ∈ s.cipherBlocks.map List.length, x ≤ 10 := fun x hx => by
    obtain ⟨b, hb, rfl⟩ := List.mem_map.1 hx
    obtain ⟨v, hv, rfl⟩ := State.exists_of_mem_cipherBlocks hn hb
    exact asciiBlock_length_le_ten (hv.trans s.opb.isLt)
  calc s.cipherBlocks.flatten.length
      = (s.cipherBlocks.map List.length).sum := List.length_flatten
    _ ≤ (s.cipherBlocks.map List.length).length • 10 := List.sum_le_card_nsmul _ 10 hten
    _ ≤ s.cfg.cbufDepth := by
      rw [List.length_map, State.cipherBlocks_length, smul_eq_mul, Config.cbufDepth]
      omega

/-! ### The command, check by check -/

/-- RangeCheck raises RANGE_EXCEEDED for the message (45_block_codec.md R194). -/
def State.OutOfRange (s : State) : Prop :=
  s.opb.toNat ≥ 100000 ∨ ∃ i, i < s.mlen.toNat ∧ s.opb.toNat ≤ (s.mbufAt i).toNat

theorem rangeExceeded_codePoints_iff (s : State) (n k : Nat) :
    rangeExceeded n (s.codePoints k) = true ↔ n ≥ 100000 ∨ ∃ i, i < k ∧ n ≤ (s.mbufAt i).toNat := by
  simp [rangeExceeded, State.codePoints]

theorem rangeCheck_iff (s : State) :
    (s.ctrl.rchk && rangeExceeded s.operandB (s.codePoints s.mlen.toNat)) = true ↔
      s.ctrl.rchk = true ∧ s.OutOfRange := by
  rw [Bool.and_eq_true, rangeExceeded_codePoints_iff]; rfl

theorem exec_encrypt_of_too_long {s : State} (hk : s.cfg.mbufDepth < s.mlen.toNat) :
    exec .encrypt s = .next (s.raise .lengthRange) :=
  if_pos hk

theorem exec_encrypt_of_empty {s : State} (hk : s.mlen.toNat = 0) :
    exec .encrypt s = .next (State.complete { s with clen := 0 }) := by
  simp only [exec, execEncrypt]
  rw [if_neg (by omega), if_pos hk]

section
variable {s : State} (hk : s.mlen.toNat ≤ s.cfg.mbufDepth) (hpos : 1 ≤ s.mlen.toNat)
include hk hpos

theorem exec_encrypt_of_modulus_zero (hn : s.opb.toNat = 0) : exec .encrypt s = .next (s.raise .domainError) := by
  have hB : s.operandB = 0 := hn
  simp only [exec, execEncrypt]
  rw [if_neg (by omega), if_neg (by omega), if_pos hB]

theorem exec_encrypt_of_outOfRange (hn : 1 ≤ s.opb.toNat) (hc : s.ctrl.rchk = true) (hr : s.OutOfRange) :
    exec .encrypt s = .next (s.raise .rangeExceeded) := by
  have hB : s.operandB ≠ 0 := Nat.one_le_iff_ne_zero.1 hn
  simp only [exec, execEncrypt]
  rw [if_neg (by omega), if_neg (by omega), if_neg hB, if_pos ((rangeCheck_iff s).2 ⟨hc, hr⟩)]

/-- All checks passed (45_block_codec.md R193). -/
theorem exec_encrypt_of_inRange (hn : 1 ≤ s.opb.toNat) (hr : ¬ (s.ctrl.rchk = true ∧ s.OutOfRange)) :
    exec .encrypt s = .next (State.complete { s with
      cbuf := s.cbuf.fill s.cipherBlocks.flatten, clen := BitVec.ofNat 32 s.cipherBlocks.flatten.length }) := by
  have hB : s.operandB ≠ 0 := Nat.one_le_iff_ne_zero.1 hn
  have hfit := State.cipherBlocks_fit hk hn
  simp only [exec, execEncrypt, cipher_eq_cipherBlocks hn]
  rw [if_neg (by omega), if_neg (by omega), if_neg hB, if_neg (mt (rangeCheck_iff s).1 hr), if_neg (by omega)]

end

/-- CBUF[j] once a command has written the characters vs (45_block_codec.md R193). -/
theorem State.cbufAt_of_fill {s t : State} {vs : List Byte} (he : t.epoch = s.epoch) (hm : t.cbuf = s.cbuf.fill vs) :
    (∀ j (h : j < vs.length), t.cbufAt j = vs[j]) ∧ ∀ j, vs.length ≤ j → t.cbufAt j = s.cbufAt j := by
  refine ⟨fun j hj => ?_, fun j hj => ?_⟩
  · rw [State.cbufAt, hm, Memory.get_fill_lt _ _ hj, Option.getD_some]
  · rw [State.cbufAt, hm, he, Memory.get_fill_ge _ _ hj, ← State.cbufAt]

end Sys2Proof.Machine
end

section
/-! SUPPORT. DECRYPT by its operands: the message, and one equation for each of its checks and for its success, in the
order of 45_block_codec.md R195. -/

namespace Sys2Proof.Machine

/-! ### The message -/

/-- The code points of the windows of CBUF[0, CLEN), in order (45_block_codec.md R195). -/
def State.plaintext (s : State) : List Word :=
  (List.range (s.clen.toNat / 5)).map fun t => BitVec.ofNat 32 (modPow (s.blockValue t) s.operandA s.operandB)

theorem State.plaintext_length (s : State) : s.plaintext.length = s.clen.toNat / 5 := by
  rw [State.plaintext, List.length_map, List.length_range]

/-- A power modulo OPB is below OPB, so an entry holds it whole (log 21). -/
theorem State.plaintext_toNat {s : State} (hn : 1 ≤ s.opb.toNat) {i : Nat} (hi : i < s.plaintext.length) :
    s.plaintext[i].toNat = s.windowValue i ^ s.opa.toNat % s.opb.toNat := by
  calc s.plaintext[i].toNat
      = (BitVec.ofNat 32 (modPow (s.windowValue i) s.opa.toNat s.opb.toNat)).toNat := by
        simp only [State.plaintext, List.getElem_map, List.getElem_range, State.blockValue_eq_windowValue]; rfl
    _ = modPow (s.windowValue i) s.opa.toNat s.opb.toNat := ofNat_toNat_of_le (modPow_lt _ _ hn).le
    _ = s.windowValue i ^ s.opa.toNat % s.opb.toNat := modPow_eq _ _ hn

/-! ### The command, check by check -/

/-- CBUF[0, CLEN) is blocks of five digits (45_block_codec.md R195). -/
def State.WellFormedCipher (s : State) : Prop :=
  s.clen.toNat % 5 = 0 ∧ ∀ j, j < s.clen.toNat → IsDigitCode (s.cbufAt j)

theorem has_nondigit_iff (s : State) (l : Nat) :
    (!(s.characters l).all isDigit) = true ↔ ¬ ∀ j, j < l → IsDigitCode (s.cbufAt j) := by
  simp only [Bool.not_eq_true', ← Bool.not_eq_true, State.characters, List.all_map, List.all_eq_true, List.mem_range,
    Function.comp_apply, isDigit_iff]

theorem exec_decrypt_of_too_long {s : State} (hl : s.cfg.cbufDepth < s.clen.toNat) :
    exec .decrypt s = .next (s.raise .lengthRange) :=
  if_pos hl

theorem exec_decrypt_of_empty {s : State} (hl : s.clen.toNat = 0) :
    exec .decrypt s = .next (State.complete { s with mlen := 0 }) := by
  simp only [exec, execDecrypt]
  rw [if_neg (by omega), if_pos hl]

section
variable {s : State} (hl : s.clen.toNat ≤ s.cfg.cbufDepth) (hpos : 1 ≤ s.clen.toNat)
include hl hpos

theorem exec_decrypt_of_malformed (hw : ¬ s.WellFormedCipher) :
    exec .decrypt s = .next (s.raise .malformedCiphertext) := by
  simp only [exec, execDecrypt]
  rw [if_neg (by omega), if_neg (by omega)]
  by_cases h5 : s.clen.toNat % 5 = 0
  · rw [if_neg (not_not_intro h5), if_pos ((has_nondigit_iff s _).2 fun hd => hw ⟨h5, hd⟩)]
  · rw [if_pos h5]

/-- Past the checks of the ciphertext only OPB and the depth of MBUF are left to check. -/
theorem exec_decrypt_of_wellFormed (hw : s.WellFormedCipher) :
    exec .decrypt s =
      if s.opb.toNat = 0 then .next (s.raise .domainError)
      else if s.cfg.mbufDepth < s.clen.toNat / 5 then .next (s.raise .bufferOverflow)
      else .next (State.complete { s with
        mbuf := s.mbuf.fill s.plaintext, mlen := BitVec.ofNat 32 (s.clen.toNat / 5) }) := by
  obtain ⟨h5, hd⟩ := hw
  simp only [exec, execDecrypt]
  rw [if_neg (by omega), if_neg (by omega), if_neg (not_not_intro h5),
    if_neg (mt (has_nondigit_iff s _).1 (not_not_intro hd))]
  rfl

end

/-- MBUF[i] once DECRYPT has written the message (45_block_codec.md R195). -/
theorem State.mbufAt_of_fill_plaintext {s t : State} (hn : 1 ≤ s.opb.toNat) (he : t.epoch = s.epoch)
    (hm : t.mbuf = s.mbuf.fill s.plaintext) :
    (∀ i, i < s.clen.toNat / 5 → (t.mbufAt i).toNat = s.windowValue i ^ s.opa.toNat % s.opb.toNat) ∧
      ∀ i, s.clen.toNat / 5 ≤ i → t.mbufAt i = s.mbufAt i := by
  rw [← s.plaintext_length]
  refine ⟨fun i hi => ?_, fun i hi => ?_⟩
  · rw [State.mbufAt, hm, Memory.get_fill_lt _ _ hi, Option.getD_some, State.plaintext_toNat hn]
  · rw [State.mbufAt, hm, he, Memory.get_fill_ge _ _ hi, ← State.mbufAt]

end Sys2Proof.Machine
end

section
/-! ENCRYPT and DECRYPT, one statement each (45_block_codec.md R193, R195). -/

namespace Sys2Proof.Machine

/-- Settles O44: each check in its order; a block has at most ten characters, so the output of a message that fits MBUF
fits CBUF. -/
theorem encryptWritesTheBlocks : Obligations.EncryptWritesTheBlocks := by
  refine ⟨rfl, fun s => ⟨exec_encrypt_of_too_long, fun _ => exec_encrypt_of_empty, exec_encrypt_of_modulus_zero,
    exec_encrypt_of_outOfRange, fun hk hpos hn hr => ?success⟩⟩
  case success =>
    exact ⟨s.cipherBlocks.flatten, _, rfl, State.cipherBlocks_fit hk hn, exec_encrypt_of_inRange hk hpos hn hr,
      State.cbufAt_of_fill rfl rfl⟩

/-- Settles O45: each check in its order; a power modulo OPB is below OPB, so MBUF holds it whole. -/
theorem decryptWritesTheCodePoints : Obligations.DecryptWritesTheCodePoints := by
  refine ⟨rfl, fun s => ⟨exec_decrypt_of_too_long, fun _ => exec_decrypt_of_empty, exec_decrypt_of_malformed,
    fun hl hpos hw hn => ?domain, fun hl hpos hw hn hd => ?overflow, fun hl hpos hw hn hfit => ?success⟩⟩
  case domain => exact (exec_decrypt_of_wellFormed hl hpos hw).trans (if_pos hn)
  case overflow =>
    rw [exec_decrypt_of_wellFormed hl hpos hw, if_neg (by omega), if_pos hd]; rfl
  case success =>
    rw [exec_decrypt_of_wellFormed hl hpos hw, if_neg (by omega), if_neg (by omega)]
    exact ⟨s.mbuf.fill s.plaintext, rfl, State.mbufAt_of_fill_plaintext hn rfl rfl⟩

end Sys2Proof.Machine
end

section
/-! SUPPORT. The RSA round trip on numbers (00_scope.md R16, 45_block_codec.md R196): both exponents of a keypair undo
each other modulo n, and a modulus of at most 100000 is below 100000. -/

namespace Sys2Proof.Machine

/-- Fermat's little theorem, for the multiples of p too. -/
theorem pow_mul_pred_add_one_modEq {p : Nat} (hp : p.Prime) (x j : Nat) : x ^ ((p - 1) * j + 1) ≡ x [MOD p] := by
  by_cases hd : p ∣ x
  case pos =>
    have hzero : x ≡ 0 [MOD p] := Nat.modEq_zero_iff_dvd.2 hd
    exact (Nat.modEq_zero_iff_dvd.2 (hd.trans (dvd_pow_self x (Nat.succ_ne_zero _)))).trans hzero.symm
  case neg =>
    have hfermat : x ^ (p - 1) ≡ 1 [MOD p] := by
      rw [← Nat.totient_prime hp]
      exact Nat.ModEq.pow_totient (hp.coprime_iff_not_dvd.2 hd).symm
    calc x ^ ((p - 1) * j + 1)
        = (x ^ (p - 1)) ^ j * x := by rw [pow_succ, pow_mul]
      _ ≡ 1 ^ j * x [MOD p] := (hfermat.pow j).mul_right x
      _ = x := by rw [one_pow, one_mul]

/-- Modulo each of the two primes e · d is 1 more than a multiple of the prime less 1. -/
theorem IsKeypair.pow_mul_modEq {ps : List Nat} {e d n : Nat} (h : IsKeypair ps e d n) (hps : ∀ p ∈ ps, p.Prime)
    (x : Nat) : x ^ (e * d) ≡ x [MOD n] := by
  obtain ⟨p, q, hp, hq, hne, rfl, -, -, -, -, -, -, hone⟩ := h
  have hed : e * d = (p - 1) * (q - 1) * (e * d / ((p - 1) * (q - 1))) + 1 := by
    conv_lhs => rw [← Nat.div_add_mod (e * d) ((p - 1) * (q - 1)), hone]
  generalize e * d / ((p - 1) * (q - 1)) = j at hed
  have hcoprime : p.Coprime q := (Nat.coprime_primes (hps p hp) (hps q hq)).2 hne
  refine (Nat.modEq_and_modEq_iff_modEq_mul hcoprime).1 ⟨?_, ?_⟩
  · rw [hed, Nat.mul_assoc]; exact pow_mul_pred_add_one_modEq (hps p hp) x _
  · rw [hed, Nat.mul_comm (p - 1), Nat.mul_assoc]; exact pow_mul_pred_add_one_modEq (hps q hq) x _

/-- The exponent d undoes the exponent e on the numbers below n. -/
theorem IsKeypair.pow_pow_mod {ps : List Nat} {e d n : Nat} (h : IsKeypair ps e d n) (hps : ∀ p ∈ ps, p.Prime)
    {x : Nat} (hx : x < n) : (x ^ e % n) ^ d % n = x :=
  calc (x ^ e % n) ^ d % n
      = (x ^ e) ^ d % n := (Nat.mod_modEq (x ^ e) n).pow d
    _ = x ^ (e * d) % n := by rw [pow_mul]
    _ = x % n := h.pow_mul_modEq hps x
    _ = x := Nat.mod_eq_of_lt hx

/-- A prime that divides 100000 = 10^5 divides 10, so no two of them have the product 100000. -/
theorem IsKeypair.n_ne_hundredThousand {ps : List Nat} {e d n : Nat} (h : IsKeypair ps e d n)
    (hps : ∀ p ∈ ps, p.Prime) : n ≠ 100000 := by
  obtain ⟨p, q, hp, hq, -, rfl, -⟩ := h
  intro heq
  have le_ten {r : Nat} (hr : r ∈ ps) (hd : r ∣ p * q) : r ≤ 10 := by
    rw [heq, show 100000 = 10 ^ 5 by norm_num] at hd
    exact Nat.le_of_dvd (by decide) ((hps r hr).dvd_of_dvd_pow hd)
  have hle : p * q ≤ 10 * 10 :=
    Nat.mul_le_mul (le_ten hp (p.dvd_mul_right q)) (le_ten hq (q.dvd_mul_left p))
  omega

end Sys2Proof.Machine
end

section
/-! SUPPORT. What DECRYPT finds where ENCRYPT with a modulus of at most 100000 has left its ciphertext: windows of five
digits with the values of the blocks (45_block_codec.md R191, R192, R196). -/

namespace Sys2Proof.Machine

section
variable {s u : State} (hn : 1 ≤ s.opb.toNat)
include hn

theorem State.isDigitCode_of_mem_cipherBlocks_flatten {c : Byte} (h : c ∈ s.cipherBlocks.flatten) : IsDigitCode c := by
  obtain ⟨b, hb, hc⟩ := List.mem_flatten.1 h
  obtain ⟨v, -, rfl⟩ := State.exists_of_mem_cipherBlocks hn hb
  exact isDigitCode_of_mem_asciiBlock hc

variable (hmax : s.opb.toNat ≤ 100000)
include hmax

theorem State.length_eq_five_of_mem_cipherBlocks {b : List Byte} (h : b ∈ s.cipherBlocks) : b.length = 5 := by
  obtain ⟨v, hv, rfl⟩ := State.exists_of_mem_cipherBlocks hn h
  exact asciiBlock_length_of_lt (hv.trans_le hmax)

theorem State.cipherBlocks_flatten_length : s.cipherBlocks.flatten.length = 5 * s.mlen.toNat := by
  have hfive : ∀ x ∈ s.cipherBlocks.map List.length, x = 5 := fun x hx => by
    obtain ⟨b, hb, rfl⟩ := List.mem_map.1 hx
    exact State.length_eq_five_of_mem_cipherBlocks hn hmax hb
  rw [List.length_flatten, List.sum_eq_card_nsmul _ 5 hfive, List.length_map, State.cipherBlocks_length, smul_eq_mul,
    Nat.mul_comm]

variable (hcbuf : ∀ j (h : j < s.cipherBlocks.flatten.length), u.cbufAt j = s.cipherBlocks.flatten[j])
include hcbuf

/-- The window of a block has the value of the block. -/
theorem State.windowValue_of_cipherBlocks {i : Nat} (hi : i < s.mlen.toNat) :
    u.windowValue i = (s.mbufAt i).toNat ^ s.opa.toNat % s.opb.toNat := by
  have hlen := State.cipherBlocks_flatten_length hn hmax
  refine State.windowValue_of_asciiBlock ((Nat.mod_lt _ hn).trans_le hmax) fun j hj => ?_
  rw [← getElem?_flatten_of_forall_length (fun b => State.length_eq_five_of_mem_cipherBlocks hn hmax)
    (s.cipherBlocks_getElem? hi) hj, List.getElem?_eq_getElem (by omega), hcbuf]

theorem State.wellFormedCipher_of_cipherBlocks (hclen : u.clen.toNat = 5 * s.mlen.toNat) : u.WellFormedCipher := by
  have hlen := State.cipherBlocks_flatten_length hn hmax
  refine ⟨by omega, fun j hj => ?_⟩
  rw [hcbuf j (by omega)]
  exact State.isDigitCode_of_mem_cipherBlocks_flatten hn (List.getElem_mem _)

/-- DECRYPT of the ciphertext succeeds, with the message's length. -/
theorem exec_decrypt_of_cipherBlocks (hclen : u.clen.toNat = 5 * s.mlen.toNat) (hpos : 1 ≤ s.mlen.toNat)
    (hk : s.mlen.toNat ≤ u.cfg.mbufDepth) (hB : u.opb = s.opb) :
    exec .decrypt u = .next (State.complete { u with mbuf := u.mbuf.fill u.plaintext, mlen := s.mlen }) := by
  have hw := State.wellFormedCipher_of_cipherBlocks hn hmax hcbuf hclen
  have hdepth : u.cfg.cbufDepth = 10 * u.cfg.mbufDepth := rfl
  have hdiv : u.clen.toNat / 5 = s.mlen.toNat := by omega
  rw [exec_decrypt_of_wellFormed (by omega) (by omega) hw, hB, if_neg (by omega), if_neg (by omega), hdiv,
    BitVec.ofNat_toNat, BitVec.setWidth_eq]

end

end Sys2Proof.Machine
end

section
/-! The RSA round trip of the two commands (45_block_codec.md R196). -/

namespace Sys2Proof.Machine

/-- A keypair's modulus is not 100000, so no check of RCHK stops a message of code points below it. -/
theorem IsKeypair.not_outOfRange {s : State} {ps : List Nat} {e d : Nat} (h : IsKeypair ps e d s.opb.toNat)
    (hps : ∀ p ∈ ps, p.Prime) (hmax : s.opb.toNat ≤ 100000)
    (hbelow : ∀ i, i < s.mlen.toNat → (s.mbufAt i).toNat < s.opb.toNat) : ¬ s.OutOfRange := by
  have hne := h.n_ne_hundredThousand hps
  rintro (hge | ⟨i, hi, hle⟩)
  · omega
  · exact absurd (hbelow i hi) (Nat.not_lt.2 hle)

/-- DECRYPT with the exponent d, in a state u in which ENCRYPT has left the ciphertext of the message in s. -/
theorem exec_decrypt_restores {s u : State} {ps : List Nat} (hkey : IsKeypair ps s.opa.toNat u.opa.toNat s.opb.toNat)
    (hps : ∀ p ∈ ps, p.Prime) (hmax : s.opb.toNat ≤ 100000) (hpos : 1 ≤ s.mlen.toNat)
    (hbelow : ∀ i, i < s.mlen.toNat → (s.mbufAt i).toNat < s.opb.toNat) (hk : s.mlen.toNat ≤ u.cfg.mbufDepth)
    (hB : u.opb = s.opb) (hclen : u.clen.toNat = 5 * s.mlen.toNat) (hepoch : u.epoch = s.epoch)
    (hfill : u.cbuf = s.cbuf.fill s.cipherBlocks.flatten) :
    ∃ v, exec .decrypt u = .next v ∧ v.succeeded ∧ v.mlen = s.mlen ∧
      ∀ i, i < s.mlen.toNat → v.mbufAt i = s.mbufAt i := by
  have hn : 1 ≤ s.opb.toNat := Nat.one_le_of_lt (hbelow 0 hpos)
  obtain ⟨hcbuf, -⟩ := State.cbufAt_of_fill hepoch hfill
  refine ⟨_, exec_decrypt_of_cipherBlocks hn hmax hcbuf hclen hpos hk hB, ⟨rfl, rfl, rfl, rfl⟩, rfl, fun i hi => ?_⟩
  obtain ⟨hmbuf, -⟩ := State.mbufAt_of_fill_plaintext (s := u)
    (t := State.complete { u with mbuf := u.mbuf.fill u.plaintext, mlen := s.mlen }) (hB ▸ hn) rfl rfl
  apply BitVec.eq_of_toNat_eq
  rw [hmbuf i (by omega), State.windowValue_of_cipherBlocks hn hmax hcbuf hi, hB, hkey.pow_pow_mod hps (hbelow i hi)]

/-- Settles O48: window i of the ciphertext has the value MBUF[i]^e mod n, and the power d of that is MBUF[i] again. -/
theorem decryptUndoesEncrypt : Obligations.DecryptUndoesEncrypt := by
  intro s ps e d n hwf hps hkey hmax hopa hopb hpos hk hbelow
  obtain ⟨he, hd⟩ := hkey.exponents_le
  have hA : s.opa.toNat = e := by rw [hopa, BitVec.toNat_ofNat, Nat.mod_eq_of_lt (by omega)]
  have hB : s.opb.toNat = n := by rw [hopb, BitVec.toNat_ofNat, Nat.mod_eq_of_lt (by omega)]
  have hD : (BitVec.ofNat 32 d).toNat = d := by rw [BitVec.toNat_ofNat, Nat.mod_eq_of_lt (by omega)]
  rw [← hA, ← hB, ← hD] at hkey
  rw [← hB] at hmax hbelow
  have hn : 1 ≤ s.opb.toNat := Nat.one_le_of_lt (hbelow 0 hpos)
  have hrange := hkey.not_outOfRange hps hmax hbelow
  have hlen := State.cipherBlocks_flatten_length hn hmax
  obtain ⟨-, hdepth⟩ := Config.mbufDepth_bounds hwf
  refine ⟨_, exec_encrypt_of_inRange hk hpos hn fun h => hrange h.2, ⟨rfl, rfl, rfl, rfl⟩, fun b k => ?_⟩
  refine exec_decrypt_restores hkey hps hmax hpos hbelow hk rfl ?clen rfl rfl
  case clen =>
    change (BitVec.ofNat 32 s.cipherBlocks.flatten.length).toNat = 5 * s.mlen.toNat
    rw [hlen, BitVec.toNat_ofNat, Nat.mod_eq_of_lt (by omega)]

end Sys2Proof.Machine
end

section
/-! SUPPORT. PRAM after SIEVE has written a list of numbers to it (42_sieve.md R140): the cells, and the PrimeSet. -/

namespace Sys2Proof.Machine

/-- PRAM[i] once a command has written the cells vs (42_sieve.md R140). -/
theorem State.pramAt_of_fill {s t : State} {vs : List Half} (he : t.epoch = s.epoch) (hm : t.pram = s.pram.fill vs) :
    (∀ i (h : i < vs.length), t.pramAt i = vs[i]) ∧ ∀ i, vs.length ≤ i → t.pramAt i = s.pramAt i := by
  refine ⟨fun i hi => ?_, fun i hi => ?_⟩
  · rw [State.pramAt, hm, Memory.get_fill_lt _ _ hi, Option.getD_some]
  · rw [State.pramAt, hm, he, Memory.get_fill_ge _ _ hi, ← State.pramAt]

theorem State.primeSet_length (s : State) : s.primeSet.length = s.pcount.toNat := by
  rw [State.primeSet, List.length_map, List.length_range]

theorem State.primeSet_getElem (s : State) {i : Nat} (h : i < s.primeSet.length) :
    s.primeSet[i] = (s.pramAt i).toNat := by
  simp only [State.primeSet, List.getElem_map, List.getElem_range]

/-- Cells at or above PCOUNT read 0 (10_state.md R32). -/
theorem State.contents_pram_of_le {s : State} {i : Nat} (h : s.pcount.toNat ≤ i) : s.contents (.pram i) = 0 :=
  if_neg (Nat.not_lt.2 h)

/-- Numbers of 16 bits, not more of them than PCOUNT can count, are the PrimeSet that writing them leaves. -/
theorem State.primeSet_of_fill {s t : State} {l : List Nat} (he : t.epoch = s.epoch)
    (hm : t.pram = s.pram.fill (l.map (BitVec.ofNat 16))) (hc : t.pcount.toNat = l.length) (hl : ∀ x ∈ l, x < 2 ^ 16) :
    t.primeSet = l := by
  obtain ⟨hcells, -⟩ := State.pramAt_of_fill he hm
  refine List.ext_getElem (by rw [t.primeSet_length, hc]) fun i h1 h2 => ?_
  rw [t.primeSet_getElem, hcells i (by rwa [List.length_map]), List.getElem_map, BitVec.toNat_ofNat]
  exact Nat.mod_eq_of_lt (hl _ (List.getElem_mem h2))

/-! ### The list of SIEVE (42_sieve.md R141) -/

theorem sieve_length_le (b : Nat) : (sieve b).length ≤ b := by
  have hle := List.length_filter_le isPrimeTD (List.range' 2 (b - 1))
  rw [List.length_range'] at hle
  exact hle.trans (Nat.sub_le b 1)

theorem lt_of_mem_sieve {b x : Nat} (hb : b ≤ boundMax) (h : x ∈ sieve b) : x < 2 ^ 16 := by
  have hmax : boundMax = 65535 := rfl
  have hle := (mem_sieve_iff.1 h).1
  omega

/-- No bound SIEVE accepts has more primes than PCOUNT can count. -/
theorem sieve_length_toNat {b : Nat} (hb : b ≤ boundMax) :
    (BitVec.ofNat 32 (sieve b).length).toNat = (sieve b).length := by
  have hmax : boundMax = 65535 := rfl
  have hle := sieve_length_le b
  rw [BitVec.toNat_ofNat]
  exact Nat.mod_eq_of_lt (by omega)

/-- The state a SIEVE that is not refused leaves (42_sieve.md R140). -/
def State.sieved (s : State) : State :=
  State.complete { s with
    pram := s.pram.fill ((sieve s.operandA).map (BitVec.ofNat 16))
    pcount := BitVec.ofNat 32 (sieve s.operandA).length
    pbound := s.opa
    status := { s.status with pvalid := true } }

theorem exec_sieve_of_too_large {s : State} (h : boundMax < s.opa.toNat) :
    exec .sieve s = .next (s.raise .boundTooLarge) :=
  if_pos h

theorem exec_sieve_of_le {s : State} (h : s.opa.toNat ≤ boundMax) : exec .sieve s = .next s.sieved :=
  if_neg (Nat.not_lt.2 h)

theorem State.sieved_pcount {s : State} (h : s.opa.toNat ≤ boundMax) :
    s.sieved.pcount.toNat = (sieve s.opa.toNat).length :=
  sieve_length_toNat h

theorem State.sieved_primeSet {s : State} (h : s.opa.toNat ≤ boundMax) : s.sieved.primeSet = sieve s.opa.toNat :=
  State.primeSet_of_fill (s := s) rfl rfl (State.sieved_pcount h) fun _ => lt_of_mem_sieve h

end Sys2Proof.Machine
end

section
/-! SUPPORT. Everything a KEYGEN step can do, said once with the guard of each case (44_keygen.md R172 to R176): proofs
that need what a stage found cite `exec_keygen_step`. -/

namespace Sys2Proof.Machine

/-- A draw changes nothing but the model's own account of the entropy source (44_keygen.md R171, log 6). -/
theorem State.drawn_eq (s : State) : ∃ ds n, s.drawn = { s with entropy := ds, freeCount := n } := by
  unfold State.drawn
  split
  · exact ⟨_, _, rfl⟩
  · exact ⟨_, _, rfl⟩

/-- The prime that the next draw picks (44_keygen.md R172, R173). -/
def State.drawnPrime (s : State) : Nat := (s.pramAt (s.drawIndex s.pcount.toNat)).toNat

/-- A draw of an index below PCOUNT gives a member of the PrimeSet (44_keygen.md R172, R173). -/
theorem State.drawnPrime_mem_primeSet {s : State} (h : 0 < s.pcount.toNat) : s.drawnPrime ∈ s.primeSet :=
  List.mem_map.2 ⟨_, List.mem_range.2 (Nat.mod_lt _ h), rfl⟩

/-- The exponent that the next draw picks (44_keygen.md R175). -/
def State.drawnExponent (s : State) : Nat := s.drawRange 2 (s.kg.m - 1)

/-- The states a KEYGEN step can lead to, each with its guard (44_keygen.md R172 to R176). -/
inductive KeygenStep (s : State) : State → Prop where
  | insufficientPrimes : s.kg.stage = .pickP → s.pcount.toNat < 2 → KeygenStep s (s.raise .insufficientPrimes)
  | pickedP : s.kg.stage = .pickP → 2 ≤ s.pcount.toNat →
      KeygenStep s { s.drawn with kg := { s.kg with p := s.drawnPrime, stage := .pickQ } }
  | exhaustedQ : s.kg.stage = .pickQ → s.drawnPrime = s.kg.p → s.retriesUsed s.kg.rq = true →
      KeygenStep s (s.drawn.raise .retryExhausted)
  | retriedQ : s.kg.stage = .pickQ → s.drawnPrime = s.kg.p → s.retriesUsed s.kg.rq = false →
      KeygenStep s { s.drawn with kg := { s.kg with rq := s.kg.rq + 1 } }
  | emptyRange : s.kg.stage = .pickQ → s.drawnPrime ≠ s.kg.p → (s.kg.p - 1) * (s.drawnPrime - 1) < 3 →
      KeygenStep s (s.drawn.raise .emptyExponentRange)
  | pickedQ : s.kg.stage = .pickQ → s.drawnPrime ≠ s.kg.p → 3 ≤ (s.kg.p - 1) * (s.drawnPrime - 1) →
      KeygenStep s { s.drawn with
        kg := { s.kg with
          q := s.drawnPrime, n := s.kg.p * s.drawnPrime, m := (s.kg.p - 1) * (s.drawnPrime - 1), stage := .pickE } }
  | exhaustedE : s.kg.stage = .pickE → Nat.gcd s.drawnExponent s.kg.m ≠ 1 → s.retriesUsed s.kg.re = true →
      KeygenStep s (s.drawn.raise .retryExhausted)
  | retriedE : s.kg.stage = .pickE → Nat.gcd s.drawnExponent s.kg.m ≠ 1 → s.retriesUsed s.kg.re = false →
      KeygenStep s { s.drawn with kg := { s.kg with re := s.kg.re + 1 } }
  | pickedE : s.kg.stage = .pickE → Nat.gcd s.drawnExponent s.kg.m = 1 →
      KeygenStep s { s.drawn with kg := { s.kg with e := s.drawnExponent, stage := .finish } }
  | noInverse : s.kg.stage = .finish → modInv s.kg.e s.kg.m = none → KeygenStep s (s.raise .noModularInverse)
  | finished (x : Nat) : s.kg.stage = .finish → modInv s.kg.e s.kg.m = some x →
      KeygenStep s (State.complete { s with
        r0 := BitVec.ofNat 32 s.kg.e, r1 := BitVec.ofNat 32 x, r2 := BitVec.ofNat 32 s.kg.n })

/-! ### The step of each stage -/

theorem exec_keygen_of_pickP {s : State} (h : s.kg.stage = .pickP) : exec .keygen s =
    if s.pcount.toNat < 2 then .next (s.raise .insufficientPrimes)
    else .next { s.drawn with kg := { s.kg with p := s.drawnPrime, stage := .pickQ } } := by
  rw [exec, execKeygen, h]; rfl

theorem exec_keygen_of_pickQ {s : State} (h : s.kg.stage = .pickQ) : exec .keygen s =
    if s.drawnPrime = s.kg.p then
      if s.retriesUsed s.kg.rq then .next (s.drawn.raise .retryExhausted)
      else .next { s.drawn with kg := { s.kg with rq := s.kg.rq + 1 } }
    else if (s.kg.p - 1) * (s.drawnPrime - 1) < 3 then .next (s.drawn.raise .emptyExponentRange)
    else .next { s.drawn with
      kg := { s.kg with
        q := s.drawnPrime, n := s.kg.p * s.drawnPrime, m := (s.kg.p - 1) * (s.drawnPrime - 1), stage := .pickE } } := by
  rw [exec, execKeygen, h]; rfl

theorem exec_keygen_of_pickE {s : State} (h : s.kg.stage = .pickE) : exec .keygen s =
    if Nat.gcd s.drawnExponent s.kg.m ≠ 1 then
      if s.retriesUsed s.kg.re then .next (s.drawn.raise .retryExhausted)
      else .next { s.drawn with kg := { s.kg with re := s.kg.re + 1 } }
    else .next { s.drawn with kg := { s.kg with e := s.drawnExponent, stage := .finish } } := by
  rw [exec, execKeygen, h]
  simp only [keygenPickE, gcdNat_eq_gcd]; rfl

theorem exec_keygen_step {s t : State} (h : exec .keygen s = .next t) : KeygenStep s t := by
  cases hs : s.kg.stage with
  | pickP =>
    rw [exec_keygen_of_pickP hs] at h
    split_ifs at h with hc <;> cases h
    · exact .insufficientPrimes hs hc
    · exact .pickedP hs (Nat.not_lt.1 hc)
  | pickQ =>
    rw [exec_keygen_of_pickQ hs] at h
    split_ifs at h with hq hr hm <;> cases h
    · exact .exhaustedQ hs hq hr
    · exact .retriedQ hs hq (Bool.eq_false_of_not_eq_true hr)
    · exact .emptyRange hs hq hm
    · exact .pickedQ hs hq (Nat.not_lt.1 hm)
  | pickE =>
    rw [exec_keygen_of_pickE hs] at h
    split_ifs at h with hg hr <;> cases h
    · exact .exhaustedE hs hg hr
    · exact .retriedE hs hg (Bool.eq_false_of_not_eq_true hr)
    · exact .pickedE hs (not_not.1 hg)
  | finish =>
    rw [exec_keygen_of_finish hs] at h
    cases hx : modInv s.kg.e s.kg.m with
    | none => rw [keygenFinish_of_none hx] at h; cases h; exact .noInverse hs hx
    | some x => rw [keygenFinish_of_some hx] at h; cases h; exact .finished x hs hx

/-! ### The retry counters (44_keygen.md R173, R175) -/

theorem State.retriesUsed_eq_true_iff (s : State) (k : Nat) : s.retriesUsed k = true ↔ s.cfg.retryLimit = some k := by
  unfold State.retriesUsed
  cases s.cfg.retryLimit with
  | none => exact iff_of_false Bool.false_ne_true (Option.some_ne_none k).symm
  | some l => rw [beq_iff_eq, Option.some.injEq, eq_comm]

/-- One more retry stays within the limit where the counter has not reached it. -/
theorem State.withinLimit_succ {s : State} {k : Nat} (hk : s.withinLimit k) (hr : s.retriesUsed k = false) :
    s.withinLimit (k + 1) := by
  intro l hl
  have hne : s.cfg.retryLimit ≠ some k := fun he => by
    rw [(s.retriesUsed_eq_true_iff k).2 he] at hr; cases hr
  have hle := hk l hl
  have hkl : k ≠ l := fun he => hne (he ▸ hl)
  omega

/-- The range [2, m - 1] of the exponent is not empty (44_keygen.md R174, R175). -/
theorem State.drawnExponent_bounds {s : State} (h : 3 ≤ s.kg.m) :
    2 ≤ s.drawnExponent ∧ s.drawnExponent ≤ s.kg.m - 1 := by
  have hlt : s.answer % (s.kg.m - 1 + 1 - 2) < s.kg.m - 1 + 1 - 2 := Nat.mod_lt _ (by omega)
  rw [State.drawnExponent, State.drawRange]
  omega

end Sys2Proof.Machine
end

section
/-! SUPPORT. The cases of `exec_cases` with a name each: proofs over all commands cite `exec_step`. -/

namespace Sys2Proof.Machine

/-- The states the engine's step of a command can lead to (40_command_lifecycle.md R112 to R114). -/
inductive ExecStep (s : State) : Instr → State → Prop where
  | raised (i c) : c ≠ .none → ExecStep s i (s.raise c)
  | raisedDrawn (c) : c ≠ .none → ExecStep s .keygen (s.drawn.raise c)
  | answered (i x) : i ∈ [Instr.isprime, .modpow, .modinv, .gcd] → ExecStep s i (State.complete { s with r0 := x })
  | sieved : s.opa.toNat ≤ boundMax → ExecStep s .sieve s.sieved
  | goesOn (k) : ExecStep s .keygen { s.drawn with kg := k }
  | generated (x y z) : ExecStep s .keygen (State.complete { s with r0 := x, r1 := y, r2 := z })
  | encrypted (out l) : out.length ≤ s.cfg.cbufDepth →
      ExecStep s .encrypt (State.complete { s with cbuf := s.cbuf.fill out, clen := l })
  | encryptedNothing : ExecStep s .encrypt (State.complete { s with clen := 0 })
  | decrypted (out l) : out.length ≤ s.cfg.mbufDepth →
      ExecStep s .decrypt (State.complete { s with mbuf := s.mbuf.fill out, mlen := l })
  | decryptedNothing : ExecStep s .decrypt (State.complete { s with mlen := 0 })

theorem exec_step {i : Instr} {s t : State} (h : exec i s = .next t) : ExecStep s i t := by
  rcases exec_cases h with ⟨c, hc, rfl | ⟨rfl, rfl⟩⟩ | ⟨hi, x, rfl⟩ | ⟨rfl, hb, rfl⟩ | ⟨rfl, k, rfl⟩ |
    ⟨rfl, x, y, z, rfl⟩ | ⟨rfl, out, l, ho, rfl⟩ | ⟨rfl, rfl⟩ | ⟨rfl, out, l, ho, rfl⟩ | ⟨rfl, rfl⟩
  · exact .raised i c hc
  · exact .raisedDrawn c hc
  · exact .answered i x hi
  · exact .sieved hb
  · exact .goesOn k
  · exact .generated x y z
  · exact .encrypted out l ho
  · exact .encryptedNothing
  · exact .decrypted out l ho
  · exact .decryptedNothing

/-- A command that runs is no IDLE. -/
theorem State.not_idle_of_busy {s : State} {i : Instr} (hp : s.phase = .busy i) : s.phase ≠ .idle := by
  rw [hp]; nofun

end Sys2Proof.Machine
end

section
/-! SUPPORT. What keeps the machine invariant: the shared updates of State one by one, a bus access, a reset edge and the
engine's step of a command. A field the invariant does not speak of may change at will, which `{ h with }` says. -/

namespace Sys2Proof.Machine

/-! ### Reset (70_reset_and_hazards.md R251) -/

theorem State.Inv.resetWith {c : Config} (h : c.wf = true) : (State.resetWith c).Inv where
  config := h
  pramWf := .nil
  mbufWf := .nil
  cbufWf := .nil
  mbufDepth := nofun
  cbufDepth := nofun
  busyClean := fun hp => absurd rfl hp
  errHasCode := iff_of_true rfl rfl
  primeSet := rfl
  boundInRange := Nat.zero_le boundMax
  unsieved := fun _ => ⟨rfl, rfl⟩
  keygen := nofun
  resetIdle := fun _ => rfl

theorem State.Inv.resetEdge {s : State} (h : s.Inv) (b : Bool) : (s.resetEdge b).Inv :=
  { State.Inv.resetWith h.config with resetIdle := fun _ => rfl }

section
variable {s : State} (h : s.Inv)
include h

/-! ### The life of a command (40_command_lifecycle.md R111 to R116) -/

theorem State.Inv.complete : s.complete.Inv :=
  { h with
    busyClean := fun hp => absurd rfl hp
    errHasCode := iff_of_true rfl rfl
    keygen := nofun
    resetIdle := fun _ => rfl }

theorem State.Inv.raise {c : ErrCode} (hc : c ≠ .none) : (s.raise c).Inv :=
  { h with
    busyClean := fun hp => absurd rfl hp
    errHasCode := iff_of_false nofun hc
    keygen := nofun
    resetIdle := fun _ => rfl }

theorem State.Inv.reject (hp : s.phase = .idle) : s.reject.Inv :=
  { h with
    busyClean := fun hne => absurd hp hne
    errHasCode := iff_of_false nofun nofun }

theorem State.Inv.drop : s.drop.Inv := { h with }

/-- KEYGEN starts at PICK_P with both counters at 0 (40_command_lifecycle.md R111). -/
theorem State.Inv.accept (hr : s.rst = false) (i : Instr) : (s.accept i).Inv :=
  { h with
    busyClean := fun _ => ⟨rfl, rfl, rfl⟩
    errHasCode := iff_of_true rfl rfl
    keygen := fun hp => by
      cases hp
      exact ⟨rfl, rfl⟩
    resetIdle := fun hrst => absurd hrst (by rw [State.accept_rst, hr]; decide) }

/-- Bit 2 of the word clears ERR and ERRCODE together (10_state.md R24). -/
theorem State.Inv.acknowledge (v : Word) : (s.acknowledge v).Inv :=
  { h with
    busyClean := fun hp => by
      obtain ⟨hdone, herr, hcode⟩ := h.busyClean hp
      simp [Status.w1c, hdone, herr, hcode]
    errHasCode := by
      change (s.status.err && !v.getLsbD 2) = false ↔ (if v.getLsbD 2 then .none else s.status.errcode) = ErrCode.none
      cases v.getLsbD 2 with
      | true => simp
      | false => simpa using h.errHasCode }

theorem State.Inv.drawn : s.drawn.Inv := by
  obtain ⟨ds, n, he⟩ := s.drawn_eq
  rw [he]
  exact { h with }

/-! ### The buffers (20_memory.md R65, R67) -/

theorem State.Inv.setMbuf {i : Nat} (hi : i < s.cfg.mbufDepth) (v : Word) :
    State.Inv { s with mbuf := s.mbuf.set i v } :=
  { h with
    mbufWf := Memory.set_wf h.mbufWf i v
    mbufDepth := fun c hc => by
      rcases Memory.mem_set hc with rfl | hc
      · exact hi
      · exact h.mbufDepth c hc }

theorem State.Inv.setCbuf {i : Nat} (hi : i < s.cfg.cbufDepth) (v : Byte) :
    State.Inv { s with cbuf := s.cbuf.set i v } :=
  { h with
    cbufWf := Memory.set_wf h.cbufWf i v
    cbufDepth := fun c hc => by
      rcases Memory.mem_set hc with rfl | hc
      · exact hi
      · exact h.cbufDepth c hc }

theorem State.Inv.fillMbuf {out : List Word} (ho : out.length ≤ s.cfg.mbufDepth) :
    State.Inv { s with mbuf := s.mbuf.fill out } :=
  { h with
    mbufWf := Memory.fill_wf h.mbufWf out
    mbufDepth := fun c hc => by
      rcases Memory.mem_fill hc with hlt | hc
      · exact hlt.trans_le ho
      · exact h.mbufDepth c hc }

theorem State.Inv.fillCbuf {out : List Byte} (ho : out.length ≤ s.cfg.cbufDepth) :
    State.Inv { s with cbuf := s.cbuf.fill out } :=
  { h with
    cbufWf := Memory.fill_wf h.cbufWf out
    cbufDepth := fun c hc => by
      rcases Memory.mem_fill hc with hlt | hc
      · exact hlt.trans_le ho
      · exact h.cbufDepth c hc }

/-- The new PrimeSet is the sieve of the new bound (42_sieve.md R140). -/
theorem State.Inv.sieved (hb : s.opa.toNat ≤ boundMax) : s.sieved.Inv :=
  { h with
    pramWf := Memory.fill_wf h.pramWf _
    busyClean := fun hp => absurd rfl hp
    errHasCode := iff_of_true rfl rfl
    primeSet := State.sieved_primeSet hb
    boundInRange := hb
    unsieved := nofun
    keygen := nofun
    resetIdle := fun _ => rfl }

/-! ### A bus access (20_memory.md R60 to R69) -/

theorem State.Inv.writeTarget (hr : s.rst = false) {o : Nat} {t : Target} (ht : targetAt s.cfg o = some t) (v : Word) :
    (s.writeTarget t v).Inv := by
  have hbounds := targetAt_bounds ht
  have heffect := s.writeTarget_effect t v
  generalize s.writeTarget t v = u at heffect
  cases heffect with
  | ignored => exact h
  | acknowledged => exact h.acknowledge v
  | dropped => exact h.drop
  | accepted _ i => exact h.accept hr i
  | rejected _ _ hp => exact h.reject hp
  | stored => exact { h with }
  | mbuf i => exact h.setMbuf hbounds v
  | cbuf i => exact h.setCbuf hbounds _

theorem State.Inv.access (a : Access) : (s.access a).Inv := by
  rcases s.access_cases a with ⟨r, e⟩ | ⟨r, t, -, e⟩ | ⟨o, t, v, hr, ht, -, e⟩ <;> rw [e]
  · exact { h with }
  · exact { h with }
  · exact { h.writeTarget hr ht v with }

/-! ### KEYGEN (44_keygen.md R172 to R176) -/

/-- A KEYGEN step that is not the last keeps everything the invariant speaks of but the micro-state. -/
theorem State.Inv.drawn_kg {k : Kg} (hk : State.keygenInv { s with kg := k }) : State.Inv { s.drawn with kg := k } := by
  obtain ⟨ds, n, he⟩ := s.drawn_eq
  rw [he]
  exact { h with keygen := fun _ => hk }

variable (hp : s.phase = .busy .keygen)
include hp

theorem State.Inv.keygenInv_pickQ (hs : s.kg.stage = .pickQ) :
    s.kg.p ∈ s.primeSet ∧ s.withinLimit s.kg.rq ∧ s.kg.re = 0 := by
  have hk := h.keygen hp
  rwa [State.keygenInv, hs] at hk

theorem State.Inv.keygenInv_pickE (hs : s.kg.stage = .pickE) :
    s.pickedPair ∧ s.withinLimit s.kg.rq ∧ s.withinLimit s.kg.re := by
  have hk := h.keygen hp
  rwa [State.keygenInv, hs] at hk

theorem State.Inv.keygenStep {t : State} (hstep : KeygenStep s t) : t.Inv := by
  cases hstep with
  | insufficientPrimes => exact h.raise nofun
  | exhaustedQ => exact h.drawn.raise nofun
  | exhaustedE => exact h.drawn.raise nofun
  | emptyRange => exact h.drawn.raise nofun
  | noInverse => exact h.raise nofun
  | finished => exact State.Inv.complete { h with }
  | pickedP hs hcount =>
    have hk := h.keygen hp
    rw [State.keygenInv, hs] at hk
    obtain ⟨hrq, hre⟩ := hk
    exact h.drawn_kg ⟨State.drawnPrime_mem_primeSet (Nat.zero_lt_of_lt hcount), fun l _ => hrq ▸ Nat.zero_le l, hre⟩
  | retriedQ hs _ hr =>
    obtain ⟨hmem, hrq, hre⟩ := h.keygenInv_pickQ hp hs
    refine h.drawn_kg ?_
    rw [State.keygenInv, hs]
    exact ⟨hmem, State.withinLimit_succ hrq hr, hre⟩
  | pickedQ hs hne hm =>
    obtain ⟨hmem, hrq, hre⟩ := h.keygenInv_pickQ hp hs
    have hpos : 0 < s.pcount.toNat := by
      rw [← s.primeSet_length]
      exact List.length_pos_of_mem hmem
    exact h.drawn_kg ⟨⟨hmem, State.drawnPrime_mem_primeSet hpos, hne.symm, rfl, rfl, hm⟩, hrq,
      fun l _ => hre ▸ Nat.zero_le l⟩
  | retriedE hs _ hr =>
    obtain ⟨hpair, hrq, hre⟩ := h.keygenInv_pickE hp hs
    refine h.drawn_kg ?_
    rw [State.keygenInv, hs]
    exact ⟨hpair, hrq, State.withinLimit_succ hre hr⟩
  | pickedE hs hg =>
    obtain ⟨hpair, hrq, hre⟩ := h.keygenInv_pickE hp hs
    have ⟨_, _, _, _, _, hm3⟩ := hpair
    obtain ⟨hlo, hhi⟩ := State.drawnExponent_bounds hm3
    exact h.drawn_kg ⟨hpair, hrq, hre, hlo, hhi, hg⟩

omit hp

/-! ### The engine's step of any command (40_command_lifecycle.md R112) -/

theorem State.Inv.exec {i : Instr} {t : State} (hp : s.phase = .busy i) (he : exec i s = .next t) : t.Inv := by
  cases exec_step he with
  | raised _ _ hc => exact h.raise hc
  | raisedDrawn _ hc => exact h.drawn.raise hc
  | answered => exact State.Inv.complete { h with }
  | sieved hb => exact h.sieved hb
  | goesOn => exact h.keygenStep hp (exec_keygen_step he)
  | generated => exact State.Inv.complete { h with }
  | encrypted _ _ ho => exact State.Inv.complete { h.fillCbuf ho with }
  | encryptedNothing => exact State.Inv.complete { h with }
  | decrypted _ _ ho => exact State.Inv.complete { h.fillMbuf ho with }
  | decryptedNothing => exact State.Inv.complete { h with }

end

end Sys2Proof.Machine
end

section
/-! The machine invariant: it holds at reset and every step of every agent keeps it. -/

namespace Sys2Proof.Machine

/-- Settles O52: nothing runs, the buffers are empty, and the empty PrimeSet is the sieve of 0. -/
theorem invariantHoldsAtReset : Obligations.InvariantHoldsAtReset :=
  ⟨State.Inv.resetWith (by decide), fun _ => State.Inv.resetWith⟩

/-- Settles O53: by what a step can do, each of which keeps the invariant. -/
theorem everyStepKeepsTheInvariant : Obligations.EveryStepKeepsTheInvariant := by
  intro s t hi hstep
  obtain ⟨q, hcases⟩ := step_cases hstep
  have h0 : State.Inv { s with sched := q } := { hi with }
  rcases hcases with ⟨i, -, hp, he⟩ | ⟨a, p, vs, rfl⟩ | ⟨p, rfl⟩ | ⟨b, ts, -, rfl⟩
  case inl => exact h0.exec hp he
  case inr.inl => exact { h0.access a with }
  case inr.inr.inl => exact { h0 with }
  case inr.inr.inr => exact h0.resetEdge b

end Sys2Proof.Machine
end

section
/-! SUPPORT. What the engine's step of any command answers (40_command_lifecycle.md R112 to R114), and what it leaves alone
(30_encoding.md R92). -/

namespace Sys2Proof.Machine

/-! ### A step always answers a next state -/

theorem exec_keygen_total (s : State) : ∃ t, exec .keygen s = .next t := by
  cases hs : s.kg.stage with
  | pickP => rw [exec_keygen_of_pickP hs]; split_ifs <;> exact ⟨_, rfl⟩
  | pickQ => rw [exec_keygen_of_pickQ hs]; split_ifs <;> exact ⟨_, rfl⟩
  | pickE => rw [exec_keygen_of_pickE hs]; split_ifs <;> exact ⟨_, rfl⟩
  | finish =>
    rw [exec_keygen_of_finish hs]
    cases hx : modInv s.kg.e s.kg.m with
    | none => exact ⟨_, keygenFinish_of_none hx⟩
    | some x => exact ⟨_, keygenFinish_of_some hx⟩

theorem exec_total (i : Instr) (s : State) : ∃ t, exec i s = .next t := by
  cases i with
  | isprime => exact ⟨_, rfl⟩
  | gcd => exact ⟨_, rfl⟩
  | sieve => simp only [exec, execSieve]; split_ifs <;> exact ⟨_, rfl⟩
  | modpow => simp only [exec, execModpow]; split_ifs <;> exact ⟨_, rfl⟩
  | modinv =>
    simp only [exec, execModinv]
    cases modInv s.operandA s.operandB <;> split_ifs <;> exact ⟨_, rfl⟩
  | keygen => exact exec_keygen_total s
  | encrypt => simp only [exec, execEncrypt]; split_ifs <;> exact ⟨_, rfl⟩
  | decrypt => simp only [exec, execDecrypt]; split_ifs <;> exact ⟨_, rfl⟩

theorem engineTurn_total (s : State) : ∃ t, engineTurn s = .next t := by
  unfold engineTurn
  split
  · exact exec_total _ s
  · exact ⟨s, rfl⟩
  · exact ⟨s, rfl⟩

/-! ### Its three outcomes -/

/-- An error, a success, or a KEYGEN that goes on (40_command_lifecycle.md R112 to R114). An error and a KEYGEN that goes on
change nothing else but the account of the entropy source. -/
theorem exec_outcome {i : Instr} {s t : State} (h : exec i s = .next t) :
    (∃ c ds n, c ≠ .none ∧ t = State.raise { s with entropy := ds, freeCount := n } c) ∨ t.succeeded ∨
      (i = .keygen ∧ ∃ k ds n, t = { s with kg := k, entropy := ds, freeCount := n }) := by
  obtain ⟨ds, n, hd⟩ := s.drawn_eq
  cases exec_step h with
  | raised _ c hc => exact .inl ⟨c, s.entropy, s.freeCount, hc, rfl⟩
  | raisedDrawn c hc => exact .inl ⟨c, ds, n, hc, by rw [hd]⟩
  | goesOn k => exact .inr (.inr ⟨rfl, k, ds, n, by rw [hd]⟩)
  | answered | sieved | generated | encrypted | encryptedNothing | decrypted | decryptedNothing =>
    exact .inr (.inl ⟨rfl, rfl, rfl, rfl⟩)

/-- A step either ends the command, with DONE set, or is a KEYGEN's that goes on. -/
theorem exec_ends_or_goes_on {i : Instr} {s t : State} (h : exec i s = .next t) :
    (t.phase = .idle ∧ t.status.done = true) ∨
      (i = .keygen ∧ ∃ k ds n, t = { s with kg := k, entropy := ds, freeCount := n }) := by
  obtain ⟨c, ds, n, -, rfl⟩ | ⟨hp, hd, -⟩ | hgo := exec_outcome h
  · exact .inl ⟨rfl, rfl⟩
  · exact .inl ⟨hp, hd⟩
  · exact .inr hgo

/-- With ERR set at its end, the step has raised the code it shows. -/
theorem exec_raised {i : Instr} {s t : State} (hp : s.phase = .busy i) (h : exec i s = .next t) (hidle : t.phase = .idle)
    (herr : t.status.err = true) :
    t.status.errcode ≠ .none ∧ ∃ ds n, t = State.raise { s with entropy := ds, freeCount := n } t.status.errcode := by
  obtain ⟨c, ds, n, hc, rfl⟩ | ⟨-, -, hno, -⟩ | ⟨-, k, ds, n, rfl⟩ := exec_outcome h
  · exact ⟨hc, ds, n, rfl⟩
  · rw [herr] at hno; cases hno
  · exact absurd hidle (State.not_idle_of_busy hp)

/-! ### Its frame -/

/-- What no command writes (10_state.md R23, R24, R26; 00_scope.md R6). -/
theorem exec_frame {i : Instr} {s t : State} (h : exec i s = .next t) :
    t.cfg = s.cfg ∧ t.opa = s.opa ∧ t.opb = s.opb ∧ t.opc = s.opc ∧ t.ctrl = s.ctrl ∧ t.status.ovr = s.status.ovr ∧
      t.rst = s.rst ∧ t.resp = s.resp ∧ t.epoch = s.epoch := by
  cases exec_step h <;> simp [State.sieved]

/-- MLEN and MBUF are DECRYPT's output (10_state.md R30, 45_block_codec.md R195). -/
theorem exec_keeps_mbuf {i : Instr} {s t : State} (h : exec i s = .next t) (hi : i ≠ .decrypt) :
    t.mlen = s.mlen ∧ t.mbuf = s.mbuf := by
  cases exec_step h with
  | decrypted | decryptedNothing => exact absurd rfl hi
  | _ => simp [State.sieved]

/-- CLEN and CBUF are ENCRYPT's output (10_state.md R31, 45_block_codec.md R193). -/
theorem exec_keeps_cbuf {i : Instr} {s t : State} (h : exec i s = .next t) (hi : i ≠ .encrypt) :
    t.clen = s.clen ∧ t.cbuf = s.cbuf := by
  cases exec_step h with
  | encrypted | encryptedNothing => exact absurd rfl hi
  | _ => simp [State.sieved]

/-- The micro-state and the draws are KEYGEN's (10_state.md R35). -/
theorem exec_keeps_kg {i : Instr} {s t : State} (h : exec i s = .next t) (hi : i ≠ .keygen) :
    t.kg = s.kg ∧ t.entropy = s.entropy ∧ t.freeCount = s.freeCount := by
  cases exec_step h with
  | raisedDrawn | goesOn | generated => exact absurd rfl hi
  | _ => simp [State.sieved]

/-- The PrimeSet is SIEVE's output (42_sieve.md R142). -/
theorem exec_keeps_primeSet {i : Instr} {s t : State} (h : exec i s = .next t) (hi : i ≠ .sieve) :
    t.pram = s.pram ∧ t.pcount = s.pcount ∧ t.pbound = s.pbound ∧ t.status.pvalid = s.status.pvalid := by
  cases exec_step h with
  | sieved => exact absurd rfl hi
  | _ => simp

/-- The result registers change at a success only (10_state.md R27). -/
theorem exec_results {i : Instr} {s t : State} (h : exec i s = .next t) :
    (t.r0 ≠ s.r0 → t.succeeded ∧ i ∈ [.isprime, .modpow, .modinv, .gcd, .keygen]) ∧
      (t.r1 ≠ s.r1 ∨ t.r2 ≠ s.r2 → t.succeeded ∧ i = .keygen) := by
  cases exec_step h with
  | answered _ _ hi =>
    exact ⟨fun _ => ⟨⟨rfl, rfl, rfl, rfl⟩, List.mem_append_left [Instr.keygen] hi⟩, by simp⟩
  | generated =>
    exact ⟨fun _ => ⟨⟨rfl, rfl, rfl, rfl⟩, by decide⟩, fun _ => ⟨⟨rfl, rfl, rfl, rfl⟩, rfl⟩⟩
  | _ => simp [State.sieved]

end Sys2Proof.Machine
end

section
/-! SUPPORT. The codes that each command can report (60_exceptions.md R233). -/

namespace Sys2Proof.Machine

/-- An outcome that ends a command with ERR set shows one of these codes. -/
def Reports (codes : List ErrCode) (o : Outcome) : Prop :=
  ∀ t, o = .next t → t.phase = .idle → t.status.err = true → t.status.errcode ∈ codes

theorem reports_raise {codes : List ErrCode} {c : ErrCode} (hc : c ∈ codes) (s : State) :
    Reports codes (.next (s.raise c)) := by
  rintro _ ⟨⟩ _ _
  exact hc

theorem reports_complete (codes : List ErrCode) (s : State) : Reports codes (.next s.complete) := by
  rintro _ ⟨⟩ _ herr
  cases herr

theorem modpow_reports (s : State) : Reports (possibleErrors .modpow) (exec .modpow s) := by
  rcases Nat.eq_zero_or_pos s.opc.toNat with hzero | hpos
  · rw [exec_modpow_of_zero hzero]; exact reports_raise (by decide) _
  · rw [exec_modpow_of_pos hpos]; exact reports_complete _ _

theorem modinv_reports (s : State) : Reports (possibleErrors .modinv) (exec .modinv s) := by
  rcases Nat.eq_zero_or_pos s.opb.toNat with hzero | hb
  · rw [exec_modinv_of_zero hzero]; exact reports_raise (by decide) _
  cases hx : modInv s.opa.toNat s.opb.toNat with
  | none => rw [exec_modinv_of_none hb hx]; exact reports_raise (by decide) _
  | some x => rw [exec_modinv_of_some hb hx]; exact reports_complete _ _

theorem sieve_reports (s : State) : Reports (possibleErrors .sieve) (exec .sieve s) := by
  rcases lt_or_ge boundMax s.opa.toNat with hlarge | hb
  · rw [exec_sieve_of_too_large hlarge]; exact reports_raise (by decide) _
  · rw [exec_sieve_of_le hb]; exact reports_complete _ _

theorem keygen_reports {s : State} (hp : s.phase = .busy .keygen) :
    Reports (possibleErrors .keygen) (exec .keygen s) := by
  intro t h hidle herr
  cases exec_keygen_step h with
  | insufficientPrimes => exact reports_raise (by decide) s _ rfl hidle herr
  | exhaustedQ => exact reports_raise (by decide) s.drawn _ rfl hidle herr
  | emptyRange => exact reports_raise (by decide) s.drawn _ rfl hidle herr
  | exhaustedE => exact reports_raise (by decide) s.drawn _ rfl hidle herr
  | noInverse => exact reports_raise (by decide) s _ rfl hidle herr
  | finished => cases herr
  | pickedP | retriedQ | pickedQ | retriedE | pickedE => rw [State.drawn_phase, hp] at hidle; cases hidle

/-- A block has at most ten characters, so BUFFER_OVERFLOW is not among the codes of ENCRYPT (60_exceptions.md R230). -/
theorem encrypt_reports (s : State) : Reports (possibleErrors .encrypt) (exec .encrypt s) := by
  rcases lt_or_ge s.cfg.mbufDepth s.mlen.toNat with hlong | hk
  · rw [exec_encrypt_of_too_long hlong]; exact reports_raise (by decide) _
  rcases Nat.eq_zero_or_pos s.mlen.toNat with hempty | hpos
  · rw [exec_encrypt_of_empty hempty]; exact reports_complete _ _
  rcases Nat.eq_zero_or_pos s.opb.toNat with hzero | hn
  · rw [exec_encrypt_of_modulus_zero hk hpos hzero]; exact reports_raise (by decide) _
  by_cases hr : s.ctrl.rchk = true ∧ s.OutOfRange
  · rw [exec_encrypt_of_outOfRange hk hpos hn hr.1 hr.2]; exact reports_raise (by decide) _
  · rw [exec_encrypt_of_inRange hk hpos hn hr]; exact reports_complete _ _

theorem decrypt_reports (s : State) : Reports (possibleErrors .decrypt) (exec .decrypt s) := by
  rcases lt_or_ge s.cfg.cbufDepth s.clen.toNat with hlong | hl
  · rw [exec_decrypt_of_too_long hlong]; exact reports_raise (by decide) _
  rcases Nat.eq_zero_or_pos s.clen.toNat with hempty | hpos
  · rw [exec_decrypt_of_empty hempty]; exact reports_complete _ _
  by_cases hw : s.WellFormedCipher
  · rw [exec_decrypt_of_wellFormed hl hpos hw]
    split_ifs
    · exact reports_raise (by decide) _
    · exact reports_raise (by decide) _
    · exact reports_complete _ _
  · rw [exec_decrypt_of_malformed hl hpos hw]; exact reports_raise (by decide) _

theorem exec_reports {i : Instr} {s : State} (hp : s.phase = .busy i) : Reports (possibleErrors i) (exec i s) := by
  cases i with
  | isprime => exact reports_complete _ _
  | gcd => exact reports_complete _ _
  | sieve => exact sieve_reports s
  | modpow => exact modpow_reports s
  | modinv => exact modinv_reports s
  | keygen => exact keygen_reports hp
  | encrypt => exact encrypt_reports s
  | decrypt => exact decrypt_reports s

end Sys2Proof.Machine
end

section
/-! The engine's step of any command, one statement each (40_command_lifecycle.md R112 to R114, 60_exceptions.md). -/

namespace Sys2Proof.Machine

/-- Settles O29: a step answers a state, and an error, a success and a KEYGEN that goes on are all it can be. -/
theorem everyEngineStepAnswersAState : Obligations.EveryEngineStepAnswersAState := by
  intro s i hp
  obtain ⟨t, h⟩ := exec_total i s
  refine ⟨t, h, ?_⟩
  obtain ⟨c, ds, n, hc, rfl⟩ | hs | ⟨rfl, k, ds, n, rfl⟩ := exec_outcome h
  · exact .inr (.inl ⟨c, hc, rfl, rfl, rfl, rfl⟩)
  · exact .inl hs
  · exact .inr (.inr ⟨rfl, hp, rfl⟩)

/-- Settles O30: `raise` writes phase and STATUS only, and a step that ends with ERR set has raised. -/
theorem errorsArePrecise : Obligations.ErrorsArePrecise := by
  intro s t i hp h hidle herr
  obtain ⟨hc, ds, n, ht⟩ := exec_raised hp h hidle herr
  refine ⟨hc, ?_⟩
  rw [ht]
  rfl

/-- Settles O31: the numbers as listed, and each command's checks. -/
theorem eachCommandReportsItsOwnErrors : Obligations.EachCommandReportsItsOwnErrors :=
  ⟨by decide, fun _ t _ hp => exec_reports hp t⟩

/-- Settles O56: the frame of a step, and the output buffers and micro-state by the command that owns them. -/
theorem commandsKeepOperandsAndForeignBuffers : Obligations.CommandsKeepOperandsAndForeignBuffers := by
  intro s t i h
  obtain ⟨hcfg, hopa, hopb, hopc, hctrl, hovr, hrst, hresp, hepoch⟩ := exec_frame h
  exact ⟨hcfg, hopa, hopb, hopc, hctrl, hovr, hrst, hresp, hepoch, exec_keeps_mbuf h, exec_keeps_cbuf h, exec_keeps_kg h⟩

end Sys2Proof.Machine
end

section
/-! SUPPORT. The bits of CTRL and STATUS as the host reads them (10_state.md R23, R24). -/

namespace Sys2Proof.Machine

theorem bit_le_one (b : Bool) : bit b ≤ 1 := by cases b <;> decide

/-- Bit k of a word given as a sum is the flag whose value stands at 2^k in it. -/
theorem getLsbD_ofNat_of_div_mod {n k : Nat} {b : Bool} (hk : k < 32) (h : n / 2 ^ k % 2 = bit b) :
    (BitVec.ofNat 32 n).getLsbD k = b := by
  rw [BitVec.getLsbD_ofNat, Nat.testBit_eq_decide_div_mod_eq, h, decide_eq_true hk, Bool.true_and]
  cases b <;> decide

theorem getLsbD_ofNat_of_lt {n j k : Nat} (h : n < 2 ^ j) (hk : j ≤ k) : (BitVec.ofNat 32 n).getLsbD k = false := by
  rw [BitVec.getLsbD_ofNat, Nat.testBit_lt_two_pow (h.trans_le (Nat.pow_le_pow_right (by decide) hk)), Bool.and_false]

/-- IE in bit 0, RCHK in bit 1, the rest 0 (10_state.md R23). -/
theorem Ctrl.word_bits (c : Ctrl) :
    c.word.getLsbD 0 = c.ie ∧ c.word.getLsbD 1 = c.rchk ∧ ∀ k, 2 ≤ k → c.word.getLsbD k = false := by
  have hie := bit_le_one c.ie
  have hrchk := bit_le_one c.rchk
  exact ⟨getLsbD_ofNat_of_div_mod (by decide) (by omega), getLsbD_ofNat_of_div_mod (by decide) (by omega),
    fun k hk => getLsbD_ofNat_of_lt (j := 2) (by omega) hk⟩

theorem State.busy_eq_decide (s : State) : s.busy = decide (s.phase ≠ .idle) := by
  rw [Bool.eq_iff_iff, State.busy_iff, decide_eq_true_iff]

/-- BUSY 0, DONE 1, ERR 2, OVR 3, PVALID 4, ERRCODE 11:8, the rest 0 (10_state.md R24). -/
theorem State.statusWord_bits (s : State) :
    s.statusWord.getLsbD 0 = decide (s.phase ≠ .idle) ∧ s.statusWord.getLsbD 1 = s.status.done ∧
      s.statusWord.getLsbD 2 = s.status.err ∧ s.statusWord.getLsbD 3 = s.status.ovr ∧
      s.statusWord.getLsbD 4 = s.status.pvalid ∧ s.statusWord.extractLsb' 8 4 = s.status.errcode.code ∧
      (∀ k, 5 ≤ k → k < 8 → s.statusWord.getLsbD k = false) ∧ ∀ k, 12 ≤ k → s.statusWord.getLsbD k = false := by
  rw [← s.busy_eq_decide]
  have hbusy := bit_le_one s.busy
  have hdone := bit_le_one s.status.done
  have herr := bit_le_one s.status.err
  have hovr := bit_le_one s.status.ovr
  have hpvalid := bit_le_one s.status.pvalid
  have hcode := s.status.errcode.code.isLt
  refine ⟨getLsbD_ofNat_of_div_mod (by decide) (by omega), getLsbD_ofNat_of_div_mod (by decide) (by omega),
    getLsbD_ofNat_of_div_mod (by decide) (by omega), getLsbD_ofNat_of_div_mod (by decide) (by omega),
    getLsbD_ofNat_of_div_mod (by decide) (by omega), ?code, fun k hlo hhi => ?gap,
    fun k hk => getLsbD_ofNat_of_lt (j := 12) (by omega) hk⟩
  case code =>
    apply BitVec.eq_of_toNat_eq
    rw [BitVec.extractLsb'_toNat, Nat.shiftRight_eq_div_pow, State.statusWord, BitVec.toNat_ofNat]
    omega
  case gap =>
    have hzero : bit false = 0 := rfl
    refine getLsbD_ofNat_of_div_mod (by omega) ?_
    interval_cases k <;> omega

end Sys2Proof.Machine
end

section
/-! The registers of 10_state.md, one statement each (R23, R24, R26 to R31). -/

namespace Sys2Proof.Machine

/-- Settles O17: a CTRL write by phase, and the bits of CTRL. -/
theorem controlKeepsTwoBits : Obligations.ControlKeepsTwoBits := by
  intro s v hr
  have hreg : regAt 0x08 = some .ctrl := rfl
  have hw : s.writeReg .ctrl v = s.unlessBusy { s with ctrl := Ctrl.ofWord v } := rfl
  refine ⟨fun hp => ?idle, fun hp => ?busy, s.ctrl.word, State.access_read_reg hr hreg, s.ctrl.word_bits⟩
  case idle => rw [State.access_write_reg hr hreg, hw, State.unlessBusy_idle hp, Ctrl.ofWord]
  case busy => rw [State.access_write_reg hr hreg, hw, State.unlessBusy_busy hp, State.drop]

/-- Settles O18: the bits of STATUS, and the W1C write, which no phase drops. -/
theorem statusReadsItsFieldsAndClears : Obligations.StatusReadsItsFieldsAndClears := by
  intro s v hr
  have hreg : regAt 0x0C = some .status := rfl
  exact ⟨⟨s.statusWord, State.access_read_reg hr hreg, s.statusWord_bits⟩, State.access_write_reg hr hreg v⟩

/-- Settles O19: a register's read by its offset, and in IDLE its write. -/
theorem registersReadTheirCurrentValue : Obligations.RegistersReadTheirCurrentValue := by
  intro s v hr
  have read {o : Nat} {r : Reg} (h : regAt o = some r) := State.access_read_reg (s := s) hr h
  refine ⟨fun hp => ?write, read (r := .opa) rfl, read (r := .opb) rfl, read (r := .opc) rfl, read (r := .mlen) rfl,
    read (r := .clen) rfl, read (r := .r0) rfl, read (r := .r1) rfl, read (r := .r2) rfl, read (r := .pbound) rfl,
    read (r := .pcount) rfl⟩
  case write =>
    have stored {o : Nat} {r : Reg} {store : State} (h : regAt o = some r)
        (hw : s.writeReg r v = s.unlessBusy store) :
        s.access (s.wordAt o (.write v)) = { store with resp := some ⟨.okay, none⟩ } := by
      rw [State.access_write_reg hr h, hw, State.unlessBusy_idle hp]
    exact ⟨stored (r := .opa) rfl rfl, stored (r := .opb) rfl rfl, stored (r := .opc) rfl rfl,
      stored (r := .mlen) rfl rfl, stored (r := .clen) rfl rfl⟩

end Sys2Proof.Machine
end

section
/-! SUPPORT. What a bus access can do to the block, in every phase and while a command runs (20_memory.md R60 to R69,
40_command_lifecycle.md R116 to R118). -/

namespace Sys2Proof.Machine

/-- An access has the effect of some write, which may be none at all, but for the bus answer and the count of free values.
That count rises at a read of the running command's output buffer only. -/
theorem State.access_effect (s : State) (a : Access) :
    ∃ v t u r n, WriteEffect s v t u ∧ s.access a = { u with resp := r, freeCount := n } ∧
      (n = s.freeCount ∨ ∃ t', readUnspecified s.phase t' = true) := by
  rcases s.access_cases a with ⟨r, e⟩ | ⟨r, t, hu, e⟩ | ⟨o, t, v, -, -, -, e⟩
  · exact ⟨0, .reg .id, s, r, s.freeCount, .ignored _, e, .inl rfl⟩
  · exact ⟨0, .reg .id, s, r, s.freeCount + 1, .ignored _, e, .inr ⟨t, hu⟩⟩
  · have heffect := s.writeTarget_effect t v
    refine ⟨v, t, s.writeTarget t v, _, (s.writeTarget t v).freeCount, heffect, e, .inl ?_⟩
    generalize s.writeTarget t v = u at heffect
    cases heffect <;> rfl

/-- No access writes the PrimeSet or a result register (20_memory.md R63, R64). -/
theorem State.access_frame (s : State) (a : Access) :
    (s.access a).pram = s.pram ∧ (s.access a).pcount = s.pcount ∧ (s.access a).pbound = s.pbound ∧
      (s.access a).status.pvalid = s.status.pvalid ∧ (s.access a).r0 = s.r0 ∧ (s.access a).r1 = s.r1 ∧
      (s.access a).r2 = s.r2 := by
  obtain ⟨v, t, u, r, n, heffect, e, -⟩ := s.access_effect a
  rw [e]
  cases heffect <;> exact ⟨rfl, rfl, rfl, rfl, rfl, rfl, rfl⟩

/-- While a command runs an access changes STATUS only, by a W1C write or by OVR (40_command_lifecycle.md R116). -/
theorem State.access_of_busy {s : State} (hp : s.phase ≠ .idle) (a : Access) :
    ∃ st r n, s.access a = { s with status := st, resp := r, freeCount := n } ∧
      ((∃ v, st = s.status.w1c v) ∨ ∃ o, st = { s.status with ovr := o }) ∧
      (n = s.freeCount ∨ ∃ t, readUnspecified s.phase t = true) := by
  obtain ⟨v, t, u, r, n, heffect, e, hn⟩ := s.access_effect a
  cases heffect with
  | ignored => exact ⟨s.status, r, n, e, .inr ⟨s.status.ovr, rfl⟩, hn⟩
  | acknowledged => exact ⟨_, r, n, e, .inl ⟨v, rfl⟩, hn⟩
  | dropped => exact ⟨_, r, n, e, .inr ⟨true, rfl⟩, hn⟩
  | accepted _ _ hidle | rejected _ _ hidle | stored _ _ _ _ _ _ _ hidle | mbuf _ hidle | cbuf _ hidle =>
    exact absurd hidle hp

/-- DONE rises by an access only where it rejects an illegal word in IDLE (40_command_lifecycle.md R115). -/
theorem State.access_done_rises {s : State} {a : Access} (h0 : s.status.done = false)
    (h1 : (s.access a).status.done = true) :
    s.phase = .idle ∧ ∃ r n, s.access a = { s.reject with resp := r, freeCount := n } := by
  obtain ⟨v, t, u, r, n, heffect, e, -⟩ := s.access_effect a
  rw [e] at h1 ⊢
  cases heffect with
  | rejected _ _ hidle => exact ⟨hidle, r, n, rfl⟩
  | accepted => cases h1
  | acknowledged => simp [Status.w1c, h0] at h1
  | ignored | dropped | stored | mbuf | cbuf => exact absurd (h0.symm.trans h1) Bool.false_ne_true

/-- With DONE as it was, irq rises by an access only where a CTRL write in IDLE sets IE (10_state.md R23, R36). -/
theorem State.access_irq_rises {s : State} {a : Access} (h0 : s.irq = false) (h1 : (s.access a).irq = true) :
    (s.status.done = false ∧ (s.access a).status.done = true) ∨
      (s.ctrl.ie = false ∧ (s.access a).ctrl.ie = true ∧ s.phase = .idle ∧ (s.access a).phase = .idle ∧
        (s.access a).status = s.status) := by
  obtain ⟨hie, hdone⟩ := (Bool.and_eq_true _ _).mp h1
  cases hd : s.status.done with
  | false => exact .inl ⟨rfl, hdone⟩
  | true =>
    have hlow : s.ctrl.ie = false := by rwa [State.irq, hd, Bool.and_true] at h0
    refine .inr ⟨hlow, hie, ?_⟩
    obtain ⟨v, t, u, r, n, heffect, e, -⟩ := s.access_effect a
    rw [e] at hie ⊢
    cases heffect with
    | stored _ _ _ _ _ _ _ hidle => exact ⟨hidle, hidle, rfl⟩
    | ignored | acknowledged | dropped | accepted | rejected | mbuf | cbuf =>
      exact absurd (hlow.symm.trans hie) Bool.false_ne_true

end Sys2Proof.Machine
end

section
/-! SUPPORT. A step by whose turn it is (log 1). -/

namespace Sys2Proof.Machine

theorem step_of_sched_cons {s : State} {u : Turn} {ts : List Turn} (h : s.sched = u :: ts) :
    step s = takeTurn u { s with sched := ts } := by
  rw [step, h]

theorem step_of_sched_nil {s : State} (h : s.sched = []) : step s = takeTurn (defaultTurn s) s := by
  rw [step, h]

theorem engineTurn_of_busy {s : State} {i : Instr} (hr : s.rst = false) (hp : s.phase = .busy i) :
    engineTurn s = exec i s := by
  rw [engineTurn, hr, hp]

/-- The engine has the turn by default while a command runs. -/
theorem step_of_busy {s : State} {i : Instr} (hs : s.sched = []) (hr : s.rst = false) (hp : s.phase = .busy i) :
    step s = exec i s := by
  have hturn : defaultTurn s = .engine := by rw [defaultTurn, hr, hp]
  rw [step_of_sched_nil hs, hturn, takeTurn, engineTurn_of_busy hr hp]

theorem hostTurn_of_no_line {s : State} (h : s.prog[s.progPos]? = none) : hostTurn s = .next s := by
  rw [hostTurn, h]

/-- Without a host program no turn stops the machine (60_exceptions.md R220). -/
theorem takeTurn_total {s : State} (h : s.prog = []) (u : Turn) : ∃ t, takeTurn u s = .next t := by
  cases u with
  | host => exact ⟨s, hostTurn_of_no_line (by rw [h]; rfl)⟩
  | access a => exact ⟨_, rfl⟩
  | engine => exact engineTurn_total s
  | rst b => exact ⟨_, rfl⟩

end Sys2Proof.Machine
end

section
/-! What a step of any agent can and cannot do, one statement each. -/

namespace Sys2Proof.Machine

/-- Settles O23: a read is no write, so only the bus answer and the count of free values are left to change. -/
theorem readsHaveNoSideEffect : Obligations.ReadsHaveNoSideEffect := by
  intro s addr bytes
  rcases s.access_cases ⟨addr, bytes, .read⟩ with ⟨r, e⟩ | ⟨r, -, -, e⟩ | ⟨-, -, v, -, -, hd, -⟩
  · exact ⟨r, s.freeCount, e⟩
  · exact ⟨r, _, e⟩
  · cases hd

/-- Settles O28: a command ends or, as KEYGEN, goes on; accesses while it runs leave phase alone; a reset ends it. -/
theorem engineStepsOnlyWhileBusy : Obligations.EngineStepsOnlyWhileBusy := by
  refine ⟨fun s ts hp hs => ?idle, fun s t i hp h => ?busy⟩
  case idle =>
    rw [step_of_sched_cons hs]
    exact engineTurn_of_idle (s := { s with sched := ts }) hp
  case busy =>
    obtain ⟨q, ⟨j, -, hj, he⟩ | ⟨a, p, vs, rfl⟩ | ⟨p, rfl⟩ | ⟨b, ts, -, rfl⟩⟩ := step_cases h
    · obtain ⟨hidle, -⟩ | ⟨-, k, ds, n, rfl⟩ := exec_ends_or_goes_on he
      · exact .inl hidle
      · exact .inr hp
    · obtain ⟨st, r, n, e, -⟩ := State.access_of_busy (s := { s with sched := q }) (State.not_idle_of_busy hp) a
      rw [e]
      exact .inr hp
    · exact .inr hp
    · exact .inl rfl

/-- Settles O54: SIEVE alone writes the PrimeSet, and no access does. -/
theorem onlySieveWritesThePrimeSet : Obligations.OnlySieveWritesThePrimeSet := by
  intro s t h hp hrst
  obtain ⟨q, ⟨i, -, hi, he⟩ | ⟨a, p, vs, rfl⟩ | ⟨p, rfl⟩ | ⟨b, ts, hs, -⟩⟩ := step_cases h
  · exact exec_keeps_primeSet (s := { s with sched := q }) he fun hsieve => hp (hsieve ▸ hi)
  · obtain ⟨hpram, hpcount, hpbound, hpvalid, -⟩ := State.access_frame { s with sched := q } a
    exact ⟨hpram, hpcount, hpbound, hpvalid⟩
  · exact ⟨rfl, rfl, rfl, rfl⟩
  · exact absurd hs (hrst b ts)

/-- Settles O55: the engine alone writes the results, at a success. -/
theorem resultsChangeOnlyAtSuccess : Obligations.ResultsChangeOnlyAtSuccess := by
  intro s t h hrst
  obtain ⟨q, ⟨i, -, hp, he⟩ | ⟨a, p, vs, rfl⟩ | ⟨p, rfl⟩ | ⟨b, ts, hs, -⟩⟩ := step_cases h
  case inl =>
    obtain ⟨h0, h12⟩ := exec_results he
    refine ⟨fun hne => ?_, fun hne => ?_⟩
    · obtain ⟨hsucc, hi⟩ := h0 hne
      exact ⟨hsucc, i, hp, hi⟩
    · obtain ⟨hsucc, rfl⟩ := h12 hne
      exact ⟨hsucc, hp⟩
  case inr.inl =>
    obtain ⟨-, -, -, -, h0, h1, h2⟩ := State.access_frame { s with sched := q } a
    exact ⟨fun hne => absurd h0 hne, fun hne => (hne.elim (absurd h1) (absurd h2))⟩
  case inr.inr.inl => exact ⟨fun hne => absurd rfl hne, fun hne => hne.elim (absurd rfl) (absurd rfl)⟩
  case inr.inr.inr => exact absurd hs (hrst b ts)

/-- Settles O57: only a KEYGEN that goes on leaves a command running, and it writes its micro-state alone; an access while a
command runs reaches STATUS alone. -/
theorem inputsStayAsAtAcceptance : Obligations.InputsStayAsAtAcceptance := by
  intro s t i hp h hbusy
  obtain ⟨q, ⟨j, -, -, he⟩ | ⟨a, p, vs, rfl⟩ | ⟨p, rfl⟩ | ⟨b, ts, -, rfl⟩⟩ := step_cases h
  case inl =>
    obtain ⟨hidle, -⟩ | ⟨-, k, ds, n, rfl⟩ := exec_ends_or_goes_on he
    · exact absurd hidle hbusy
    · exact ⟨hp, rfl, rfl, rfl, rfl, rfl, rfl, rfl, fun _ => rfl, fun _ => rfl, fun _ => rfl⟩
  case inr.inl =>
    obtain ⟨st, r, n, e, -⟩ := State.access_of_busy (s := { s with sched := q }) (State.not_idle_of_busy hp) a
    rw [e]
    exact ⟨hp, rfl, rfl, rfl, rfl, rfl, rfl, rfl, fun _ => rfl, fun _ => rfl, fun _ => rfl⟩
  case inr.inr.inl => exact ⟨hp, rfl, rfl, rfl, rfl, rfl, rfl, rfl, fun _ => rfl, fun _ => rfl, fun _ => rfl⟩
  case inr.inr.inr => exact absurd rfl hbusy

/-- Settles O60: exec, an access and a reset edge answer a next state, and so does a host without a program. -/
theorem theBlockNeverStops : Obligations.TheBlockNeverStops := by
  refine ⟨fun s ts hs => ?engine, fun s a ts hs => ⟨_, step_of_sched_cons hs⟩, fun s b ts hs => ⟨_, step_of_sched_cons hs⟩,
    fun s i hs hr hp => ?command, fun s hprog => ?noProgram⟩
  case engine =>
    rw [step_of_sched_cons hs]
    exact engineTurn_total _
  case command =>
    rw [step_of_busy hs hr hp]
    exact exec_total i s
  case noProgram =>
    cases hs : s.sched with
    | nil => rw [step_of_sched_nil hs]; exact takeTurn_total hprog _
    | cons u ts => rw [step_of_sched_cons hs]; exact takeTurn_total (s := { s with sched := ts }) hprog u

/-- A command that ends leaves DONE set and CTRL alone, so irq is CTRL.IE (10_state.md R36). -/
theorem exec_irq {i : Instr} {s t : State} (hp : s.phase = .busy i) (h : exec i s = .next t) (hidle : t.phase = .idle) :
    t.irq = s.ctrl.ie := by
  obtain ⟨-, -, -, -, hctrl, -⟩ := exec_frame h
  obtain ⟨-, hdone⟩ | ⟨-, k, ds, n, rfl⟩ := exec_ends_or_goes_on h
  · rw [State.irq, hctrl, hdone, Bool.and_true]
  · exact absurd hidle (State.not_idle_of_busy hp)

/-- DONE rises by the engine's step where the command ends. -/
theorem exec_done_rises {i : Instr} {s t : State} (h : exec i s = .next t) (h0 : s.status.done = false)
    (h1 : t.status.done = true) : t.phase = .idle := by
  obtain ⟨hidle, -⟩ | ⟨-, k, ds, n, rfl⟩ := exec_ends_or_goes_on h
  · exact hidle
  · exact absurd (h0.symm.trans h1) Bool.false_ne_true

theorem State.reject_irq (s : State) : s.reject.irq = s.ctrl.ie := by
  rw [State.irq, State.reject_ctrl, State.reject_status, Bool.and_true]

/-- DONE rises at the end of a command or at a rejection (60_exceptions.md R237). -/
theorem step_done_rises {s t : State} (h : step s = .next t) (h0 : s.status.done = false) (h1 : t.status.done = true) :
    t.irq = s.ctrl.ie ∧
      ((∃ i, s.phase = .busy i ∧ t.phase = .idle) ∨
        (s.phase = .idle ∧ t.phase = .idle ∧ t.status.err = true ∧ t.status.errcode = .illegalCommand)) := by
  obtain ⟨q, ⟨i, -, hp, he⟩ | ⟨a, p, vs, rfl⟩ | ⟨p, rfl⟩ | ⟨b, ts, -, rfl⟩⟩ := step_cases h
  case inl =>
    have hidle := exec_done_rises he h0 h1
    exact ⟨exec_irq (s := { s with sched := q }) hp he hidle, .inl ⟨i, hp, hidle⟩⟩
  case inr.inl =>
    obtain ⟨hidle, r, n, e⟩ := State.access_done_rises (s := { s with sched := q }) h0 h1
    rw [e]
    exact ⟨State.reject_irq s, .inr ⟨hidle, hidle, rfl, rfl⟩⟩
  case inr.inr.inl => exact absurd (h0.symm.trans h1) Bool.false_ne_true
  case inr.inr.inr => cases h1

/-- irq rises with DONE, or where IE is set with DONE set already (10_state.md R36). -/
theorem step_irq_rises {s t : State} (h : step s = .next t) (h0 : s.irq = false) (h1 : t.irq = true) :
    (s.status.done = false ∧ t.status.done = true) ∨
      (s.ctrl.ie = false ∧ t.ctrl.ie = true ∧ s.phase = .idle ∧ t.phase = .idle ∧ t.status = s.status) := by
  obtain ⟨q, ⟨i, -, -, he⟩ | ⟨a, p, vs, rfl⟩ | ⟨p, rfl⟩ | ⟨b, ts, -, rfl⟩⟩ := step_cases h
  case inl =>
    obtain ⟨-, -, -, -, hctrl, -⟩ := exec_frame he
    obtain ⟨hie, hdone⟩ := (Bool.and_eq_true _ _).mp h1
    rw [hctrl] at hie
    refine .inl ⟨?_, hdone⟩
    rwa [State.irq, hie, Bool.true_and] at h0
  case inr.inl => exact State.access_irq_rises (s := { s with sched := q }) h0 h1
  case inr.inr.inl => exact absurd (h0.symm.trans h1) Bool.false_ne_true
  case inr.inr.inr => cases h1

/-- Settles O59: what an engine step, an access and a reset edge do to DONE and to IE, and their bits as the host reads
them. -/
theorem doneRisesOnlyAtACompletion : Obligations.DoneRisesOnlyAtACompletion := by
  refine ⟨fun _ _ => step_done_rises, fun _ _ _ => exec_irq, fun s w why hr hp hd => ?rejection, fun _ _ => step_irq_rises,
    fun s hr => ?bits⟩
  case rejection =>
    rw [State.access_write_cmd hr, State.request_of_illegal hp hd]
    exact s.reject_irq
  case bits =>
    obtain ⟨hie, -⟩ := s.ctrl.word_bits
    obtain ⟨-, hdone, -⟩ := s.statusWord_bits
    refine ⟨s.ctrl.word, s.statusWord, State.access_read_reg hr (r := .ctrl) rfl,
      State.access_read_reg hr (r := .status) rfl, ?_⟩
    rw [hie, hdone, State.irq]

end Sys2Proof.Machine
end

section
/-! SUPPORT. The engine's step does not look at OVR, at the bus answer, or, but for KEYGEN's draws, at the count of free
values (40_command_lifecycle.md R118, 20_memory.md R73). -/

namespace Sys2Proof.Machine

/-- s but for OVR, the bus answer and the count of free values. -/
def State.withBus (s : State) (o : Bool) (r : Option BusResp) (n : Nat) : State :=
  { s with status := { s.status with ovr := o }, resp := r, freeCount := n }

/-- The outcome with f applied to the next state. -/
def mapNext (f : State → State) : Outcome → Outcome
  | .next t => .next (f t)
  | .fault r => .fault r
  | .refused r => .refused r

/-- The commands that make no draw compute the same whatever the count of free values is. -/
theorem exec_withBus {i : Instr} (hi : i ≠ .keygen) (s : State) (o : Bool) (r : Option BusResp) (n : Nat) :
    exec i (s.withBus o r n) = mapNext (fun t => t.withBus o r n) (exec i s) := by
  cases i with
  | isprime => rfl
  | gcd => rfl
  | sieve => simp only [exec, execSieve, apply_ite (mapNext _)]; rfl
  | modpow => simp only [exec, execModpow, apply_ite (mapNext _)]; rfl
  | modinv =>
    rcases Nat.eq_zero_or_pos s.opb.toNat with hzero | hb
    · rw [exec_modinv_of_zero hzero, exec_modinv_of_zero (s := s.withBus o r n) hzero]; rfl
    cases hx : modInv s.opa.toNat s.opb.toNat with
    | none => rw [exec_modinv_of_none hb hx, exec_modinv_of_none (s := s.withBus o r n) hb hx]; rfl
    | some x => rw [exec_modinv_of_some hb hx, exec_modinv_of_some (s := s.withBus o r n) hb hx]; rfl
  | keygen => exact absurd rfl hi
  | encrypt => simp only [exec, execEncrypt, apply_ite (mapNext _)]; rfl
  | decrypt => simp only [exec, execDecrypt, apply_ite (mapNext _)]; rfl

theorem State.withBus_drawn (s : State) (o : Bool) (r : Option BusResp) :
    (s.withBus o r s.freeCount).drawn = s.drawn.withBus o r s.drawn.freeCount := by
  cases he : s.entropy <;> simp only [State.drawn, State.withBus, he]

/-- A KEYGEN step draws the same where the count of free values is the same. -/
theorem exec_keygen_withBus (s : State) (o : Bool) (r : Option BusResp) :
    exec .keygen (s.withBus o r s.freeCount) = mapNext (fun t => t.withBus o r t.freeCount) (exec .keygen s) := by
  cases hs : s.kg.stage with
  | pickP =>
    rw [exec_keygen_of_pickP hs, exec_keygen_of_pickP (s := s.withBus o r s.freeCount) hs, s.withBus_drawn]
    simp only [apply_ite (mapNext _)]; rfl
  | pickQ =>
    rw [exec_keygen_of_pickQ hs, exec_keygen_of_pickQ (s := s.withBus o r s.freeCount) hs, s.withBus_drawn]
    simp only [apply_ite (mapNext _)]; rfl
  | pickE =>
    rw [exec_keygen_of_pickE hs, exec_keygen_of_pickE (s := s.withBus o r s.freeCount) hs, s.withBus_drawn]
    simp only [apply_ite (mapNext _)]; rfl
  | finish =>
    rw [exec_keygen_of_finish hs, exec_keygen_of_finish (s := s.withBus o r s.freeCount) hs]
    cases hx : modInv s.kg.e s.kg.m with
    | none => rw [keygenFinish_of_none hx, keygenFinish_of_none (s := s.withBus o r s.freeCount) hx]; rfl
    | some x => rw [keygenFinish_of_some hx, keygenFinish_of_some (s := s.withBus o r s.freeCount) hx]; rfl

/-- No buffer is KEYGEN's output buffer (40_command_lifecycle.md R117). -/
theorem readUnspecified_keygen (t : Target) : readUnspecified (.busy .keygen) t = false := by
  cases t <;> rfl

/-- With DONE, ERR and ERRCODE clear a STATUS write reaches OVR only (10_state.md R24). -/
theorem Status.w1c_of_clean {st : Status} (h : st.done = false ∧ st.err = false ∧ st.errcode = .none) (v : Word) :
    ∃ o, st.w1c v = { st with ovr := o } := by
  obtain ⟨hdone, herr, hcode⟩ := h
  exact ⟨_, by rw [Status.w1c, hdone, herr, hcode, ite_self, Bool.false_and, Bool.false_and]⟩

section
variable {i : Instr}

/-- One access while a command runs with a clean STATUS (10_state.md R24). -/
theorem State.access_eq_withBus {s : State} (hp : s.phase = .busy i)
    (hclean : s.status.done = false ∧ s.status.err = false ∧ s.status.errcode = .none) (a : Access) :
    ∃ o r n, s.access a = s.withBus o r n ∧ (i = .keygen → n = s.freeCount) := by
  obtain ⟨st, r, n, e, hst, hn⟩ := State.access_of_busy (State.not_idle_of_busy hp) a
  have hovr : ∃ o, st = { s.status with ovr := o } := by
    obtain ⟨v, rfl⟩ | ho := hst
    · exact Status.w1c_of_clean hclean v
    · exact ho
  obtain ⟨o, rfl⟩ := hovr
  refine ⟨o, r, n, e, fun hi => hn.resolve_right ?_⟩
  rintro ⟨t, hu⟩
  rw [hp, hi, readUnspecified_keygen] at hu
  cases hu

theorem State.accesses_eq_withBus {s : State} (hp : s.phase = .busy i)
    (hclean : s.status.done = false ∧ s.status.err = false ∧ s.status.errcode = .none) (l : List Access) :
    ∃ o r n, s.accesses l = s.withBus o r n ∧ (i = .keygen → n = s.freeCount) := by
  induction l generalizing s with
  | nil => exact ⟨s.status.ovr, s.resp, s.freeCount, rfl, fun _ => rfl⟩
  | cons a l ih =>
    obtain ⟨o, r, n, e, hn⟩ := State.access_eq_withBus hp hclean a
    obtain ⟨o', r', n', e', hn'⟩ := ih (s := s.withBus o r n) hp hclean
    refine ⟨o', r', n', ?_, fun hi => (hn' hi).trans (hn hi)⟩
    calc s.accesses (a :: l)
        = (s.access a).accesses l := rfl
      _ = s.withBus o' r' n' := by rw [e, e']; rfl

end

/-- Settles O58: the accesses change only what the engine's step does not look at; during a KEYGEN, whose draws do look at
the count of free values, no read is unspecified. -/
theorem hostAccessesDoNotChangeTheResult : Obligations.HostAccessesDoNotChangeTheResult := by
  intro s t i l hi hp h
  obtain ⟨o, r, n, e, hn⟩ := State.accesses_eq_withBus hp (hi.busyClean (State.not_idle_of_busy hp)) l
  rw [e]
  by_cases hk : i = .keygen
  · subst hk
    rw [hn rfl, exec_keygen_withBus, h]
    exact ⟨o, r, t.freeCount, rfl⟩
  · rw [exec_withBus hk, h]
    exact ⟨o, r, n, rfl⟩

end Sys2Proof.Machine
end

section
/-! SUPPORT. A KEYGEN step for a known draw, and runs of a KEYGEN with the engine taking every turn (44_keygen.md R171 to R179;
logs 1, 6). -/

namespace Sys2Proof.Machine

/-! ### Draws (44_keygen.md R171) -/

theorem State.Draws.answer_eq {s s' : State} {d : Nat} (h : s.Draws d s') : s.answer = d := by
  obtain ⟨rest, he, -⟩ | ⟨he, hd, -⟩ := h
  · rw [State.answer, he]
  · rw [State.answer, he, hd]

theorem State.Draws.drawn_eq {s s' : State} {d : Nat} (h : s.Draws d s') : s.drawn = s' := by
  obtain ⟨rest, he, hs⟩ | ⟨he, -, hs⟩ := h
  · simp only [State.drawn, he, hs]
  · simp only [State.drawn, he, hs]

theorem State.Draws.drawnPrime_eq {s s' : State} {d : Nat} (h : s.Draws d s') :
    s.drawnPrime = (s.pramAt (d % s.pcount.toNat)).toNat := by
  rw [State.drawnPrime, State.drawIndex, h.answer_eq]

theorem State.Draws.drawnExponent_eq {s s' : State} {d : Nat} (h : s.Draws d s') :
    s.drawnExponent = 2 + d % (s.kg.m - 2) := by
  rw [State.drawnExponent, State.drawRange, h.answer_eq, show s.kg.m - 1 + 1 - 2 = s.kg.m - 2 by omega]

/-- The head of the list is the answer (log 6). -/
theorem State.draws_of_entropy {s : State} {d : Nat} {rest : List Nat} (h : s.entropy = d :: rest) :
    s.Draws d { s with entropy := rest } :=
  .inl ⟨rest, h, rfl⟩

end Sys2Proof.Machine
end

section
/-! The stages of KEYGEN that draw, one statement each (44_keygen.md R172 to R175). -/

namespace Sys2Proof.Machine

/-- Settles O39: the stage's step, by PCOUNT. -/
theorem keygenPicksP : Obligations.KeygenPicksP := by
  intro s hs
  rw [exec_keygen_of_pickP hs]
  refine ⟨fun hfew => if_pos hfew, fun hcount d s' hd => ?_⟩
  rw [if_neg (Nat.not_lt.2 hcount), hd.drawn_eq, hd.drawnPrime_eq]

/-- Settles O40: the stage's step, by q = p and then by the counter or by m. -/
theorem keygenPicksQ : Obligations.KeygenPicksQ := by
  intro s d s' hs hd
  have hstatus : s'.status = s.status := by rw [← hd.drawn_eq, State.drawn_status]
  simp only [exec_keygen_of_pickQ hs, hd.drawn_eq, hd.drawnPrime_eq, s.retriesUsed_eq_true_iff]
  refine ⟨fun hq hl => ?exhausted, fun hq hl => ?again, fun hq hm => ?empty, fun hq hm => ?picked⟩
  case exhausted => rw [if_pos hq, if_pos hl, State.raise, hstatus]
  case again => rw [if_pos hq, if_neg hl]
  case empty => rw [if_neg hq, if_pos hm, State.raise, hstatus]
  case picked => rw [if_neg hq, if_neg (Nat.not_lt.2 hm)]

/-- Settles O41: the stage's step, by gcd(c, m) and then by the counter. -/
theorem keygenPicksE : Obligations.KeygenPicksE := by
  intro s d s' hs hm hd
  have hstatus : s'.status = s.status := by rw [← hd.drawn_eq, State.drawn_status]
  obtain ⟨hlo, hhi⟩ := State.drawnExponent_bounds hm
  refine ⟨s.drawnExponent, hd.drawnExponent_eq, hlo, hhi, ?_⟩
  simp only [exec_keygen_of_pickE hs, hd.drawn_eq, s.retriesUsed_eq_true_iff]
  refine ⟨fun hg hl => ?exhausted, fun hg hl => ?again, fun hg => ?picked⟩
  case exhausted => rw [if_pos hg, if_pos hl, State.raise, hstatus]
  case again => rw [if_pos hg, if_neg hl]
  case picked => rw [if_neg (not_not_intro hg)]

end Sys2Proof.Machine
end

section
/-! SUPPORT. Runs of a KEYGEN with the engine taking every turn (44_keygen.md R179, log 1). -/

namespace Sys2Proof.Machine

theorem run_succ {s t : State} (k : Nat) (h : step s = .next t) :
    Host.Core.run core (k + 1) s = Host.Core.run core k t := by
  have hstep : core.step s = .next t := h
  simp only [Host.Core.run, hstep]

/-- A step of a KEYGEN that has every turn (log 1). -/
theorem run_keygen_succ {s t : State} (k : Nat) (h : exec .keygen s = .next t) (hs : s.sched = []) (hr : s.rst = false)
    (hp : s.phase = .busy .keygen) : Host.Core.run core (k + 1) s = Host.Core.run core k t :=
  run_succ k ((step_of_busy hs hr hp).trans h)

/-! ### Draws that are accepted: they lie in range, so no remainder changes them (log 6) -/

section
variable {s : State} {d : Nat} {rest : List Nat}

theorem exec_keygen_accepts_p (hs : s.kg.stage = .pickP) (hcount : 2 ≤ s.pcount.toNat) (hd : d < s.pcount.toNat)
    (he : s.entropy = d :: rest) :
    exec .keygen s = .next { s with
      entropy := rest, kg := { s.kg with p := (s.pramAt d).toNat, stage := .pickQ } } := by
  obtain ⟨-, hpick⟩ := keygenPicksP s hs
  have hexec := hpick hcount d _ (State.draws_of_entropy he)
  rwa [Nat.mod_eq_of_lt hd] at hexec

theorem exec_keygen_accepts_q (hs : s.kg.stage = .pickQ) (hd : d < s.pcount.toNat) (he : s.entropy = d :: rest)
    (hq : (s.pramAt d).toNat ≠ s.kg.p) (hm : 3 ≤ (s.kg.p - 1) * ((s.pramAt d).toNat - 1)) :
    exec .keygen s = .next { s with
      entropy := rest
      kg := { s.kg with
        q := (s.pramAt d).toNat, n := s.kg.p * (s.pramAt d).toNat, m := (s.kg.p - 1) * ((s.pramAt d).toNat - 1)
        stage := .pickE } } := by
  obtain ⟨-, -, -, hpick⟩ := keygenPicksQ s d _ hs (State.draws_of_entropy he)
  rw [Nat.mod_eq_of_lt hd] at hpick
  exact hpick hq hm

theorem exec_keygen_accepts_e (hs : s.kg.stage = .pickE) (hd : d + 2 ≤ s.kg.m - 1) (he : s.entropy = d :: rest)
    (hg : Nat.gcd (d + 2) s.kg.m = 1) :
    exec .keygen s = .next { s with entropy := rest, kg := { s.kg with e := d + 2, stage := .finish } } := by
  obtain ⟨c, hc, -, -, -, -, hpick⟩ := keygenPicksE s d _ hs (by omega) (State.draws_of_entropy he)
  rw [Nat.mod_eq_of_lt (by omega), Nat.add_comm] at hc
  subst hc
  exact hpick hg

end

/-! ### Draws that reject (44_keygen.md R173, R175) -/

/-- The draw d does not get a KEYGEN past the stage it is at. -/
def State.Rejects (s : State) (d : Nat) : Prop :=
  (s.kg.stage = .pickQ ∧ (s.pramAt (d % s.pcount.toNat)).toNat = s.kg.p) ∨
    (s.kg.stage = .pickE ∧ 3 ≤ s.kg.m ∧ Nat.gcd (2 + d % (s.kg.m - 2)) s.kg.m ≠ 1)

/-- With RETRY_LIMIT = INF a draw that rejects only counts, and what it leaves rejects the same draws. -/
theorem exec_keygen_of_rejects {s : State} {d : Nat} {rest : List Nat} (hinf : s.cfg.retryLimit = none)
    (hr : s.Rejects d) (he : s.entropy = d :: rest) :
    ∃ k, exec .keygen s = .next { s with entropy := rest, kg := k } ∧ k.stage = s.kg.stage ∧
      ∀ x, s.Rejects x → State.Rejects { s with entropy := rest, kg := k } x := by
  have hd := State.draws_of_entropy he
  have hlimit (c : Nat) : s.cfg.retryLimit ≠ some c := by rw [hinf]; nofun
  obtain ⟨hs, hq⟩ | ⟨hs, hm, hg⟩ := hr
  · obtain ⟨-, hagain, -⟩ := keygenPicksQ s d _ hs hd
    exact ⟨_, hagain hq (hlimit _), rfl, fun _ hx => hx⟩
  · obtain ⟨c, rfl, -, -, -, hagain, -⟩ := keygenPicksE s d _ hs hm hd
    exact ⟨_, hagain hg (hlimit _), rfl, fun _ hx => hx⟩

theorem run_of_rejects {s : State} {k : Nat} (hinf : s.cfg.retryLimit = none) (hr : s.rst = false) (hs : s.sched = [])
    (hp : s.phase = .busy .keygen) (hk : k ≤ s.entropy.length) (hrej : ∀ d ∈ s.entropy.take k, s.Rejects d) :
    ∃ t, Host.Core.run core k s = .next t ∧ t.phase = .busy .keygen ∧ t.kg.stage = s.kg.stage ∧
      t.status = s.status ∧ t.entropy = s.entropy.drop k := by
  induction k generalizing s with
  | zero => exact ⟨s, rfl, hp, rfl, rfl, rfl⟩
  | succ k ih =>
    cases he : s.entropy with
    | nil => rw [he] at hk; cases hk
    | cons d rest =>
      rw [he] at hk hrej
      obtain ⟨hd, hrest⟩ := List.forall_mem_cons.1 hrej
      obtain ⟨g, hexec, hstage, hkeep⟩ := exec_keygen_of_rejects hinf hd he
      obtain ⟨t, hrun, htp, hts, htst, hte⟩ := ih (s := { s with entropy := rest, kg := g }) hinf hr hs hp
        (Nat.le_of_succ_le_succ hk) fun x hx => hkeep x (hrest x hx)
      refine ⟨t, ?_, htp, hts.trans hstage, htst, hte⟩
      rw [run_keygen_succ k hexec hs hr hp, hrun]

/-! ### A finite RETRY_LIMIT (44_keygen.md R179) -/

/-- How many steps a KEYGEN can still take with RETRY_LIMIT = l: one for each stage ahead, and one for each retry left. -/
def keygenStepsLeft (l : Nat) (k : Kg) : Nat :=
  match k.stage with
  | .pickP => (l - k.rq) + (l - k.re) + 4
  | .pickQ => (l - k.rq) + (l - k.re) + 3
  | .pickE => (l - k.re) + 2
  | .finish => 1

theorem keygenStepsLeft_pos (l : Nat) (k : Kg) : 0 < keygenStepsLeft l k := by
  unfold keygenStepsLeft
  split <;> omega

/-- A step ends the KEYGEN or leaves fewer steps. -/
theorem KeygenStep.ends_or_decreases {s t : State} {l : Nat} (h : KeygenStep s t) (hl : s.cfg.retryLimit = some l)
    (hrq : s.withinLimit s.kg.rq) (hre : s.withinLimit s.kg.re) :
    (t.phase = .idle ∧ t.status.done = true) ∨
      ∃ k ds n, t = { s with kg := k, entropy := ds, freeCount := n } ∧ s.withinLimit k.rq ∧ s.withinLimit k.re ∧
        keygenStepsLeft l k < keygenStepsLeft l s.kg := by
  obtain ⟨ds, n, hd⟩ := s.drawn_eq
  have goes_on (k : Kg) : { s.drawn with kg := k } = { s with kg := k, entropy := ds, freeCount := n } := by rw [hd]
  cases h with
  | insufficientPrimes | exhaustedQ | emptyRange | exhaustedE | noInverse | finished => exact .inl ⟨rfl, rfl⟩
  | pickedP hs =>
    refine .inr ⟨_, ds, n, goes_on _, hrq, hre, ?_⟩
    simp only [keygenStepsLeft, hs]; omega
  | retriedQ hs _ hr =>
    have hrq' := State.withinLimit_succ hrq hr
    have hle := hrq' l hl
    refine .inr ⟨_, ds, n, goes_on _, hrq', hre, ?_⟩
    simp only [keygenStepsLeft, hs]; omega
  | pickedQ hs =>
    refine .inr ⟨_, ds, n, goes_on _, hrq, hre, ?_⟩
    simp only [keygenStepsLeft, hs]; omega
  | retriedE hs _ hr =>
    have hre' := State.withinLimit_succ hre hr
    have hle := hre' l hl
    refine .inr ⟨_, ds, n, goes_on _, hrq, hre', ?_⟩
    simp only [keygenStepsLeft, hs]; omega
  | pickedE hs =>
    refine .inr ⟨_, ds, n, goes_on _, hrq, hre, ?_⟩
    simp only [keygenStepsLeft, hs]; omega

theorem run_keygen_ends {s : State} {l b : Nat} (hl : s.cfg.retryLimit = some l) (hr : s.rst = false)
    (hs : s.sched = []) (hp : s.phase = .busy .keygen) (hrq : s.withinLimit s.kg.rq) (hre : s.withinLimit s.kg.re)
    (hb : keygenStepsLeft l s.kg ≤ b) :
    ∃ k t, k ≤ b ∧ Host.Core.run core k s = .next t ∧ t.phase = .idle ∧ t.status.done = true := by
  induction b generalizing s with
  | zero => exact absurd (keygenStepsLeft_pos l s.kg) (Nat.not_lt.2 hb)
  | succ b ih =>
    obtain ⟨t, hexec⟩ := exec_total .keygen s
    have hrun1 (k : Nat) := run_keygen_succ k hexec hs hr hp
    obtain ⟨hidle, hdone⟩ | ⟨g, ds, n, rfl, hrq', hre', hlt⟩ :=
      (exec_keygen_step hexec).ends_or_decreases hl hrq hre
    · exact ⟨1, t, by omega, hrun1 0, hidle, hdone⟩
    · obtain ⟨k, u, hk, hrun, hu⟩ := ih (s := { s with kg := g, entropy := ds, freeCount := n }) hl hr hs hp hrq' hre'
        (Nat.le_of_lt_succ (hlt.trans_le hb))
      exact ⟨k + 1, u, by omega, (hrun1 k).trans hrun, hu⟩

end Sys2Proof.Machine
end

section
/-! How long a KEYGEN runs, one statement each (44_keygen.md R172 to R179). -/

namespace Sys2Proof.Machine

/-- Settles O50: the steps left are at most 2 · RETRY_LIMIT + 4 at acceptance, and every step leaves fewer. -/
theorem keygenEndsWithinTheRetryBound : Obligations.KeygenEndsWithinTheRetryBound := by
  intro s l hl hr hs hp hstage hrq hre
  refine run_keygen_ends hl hr hs hp (fun _ _ => hrq ▸ Nat.zero_le _) (fun _ _ => hre ▸ Nat.zero_le _) ?_
  simp only [keygenStepsLeft, hstage]
  omega

/-- Settles O51: without a limit a draw that rejects leaves the KEYGEN at its stage, where the next one rejects too. -/
theorem keygenMayHangUnderInf : Obligations.KeygenMayHangUnderInf := by
  intro s k hinf hr hs hp hk hrej
  refine run_of_rejects hinf hr hs hp hk fun d hd => ?_
  obtain ⟨hstage, hq⟩ | ⟨hstage, hm, hg⟩ := hrej
  · exact .inl ⟨hstage, hq d hd⟩
  · exact .inr ⟨hstage, hm, hg d hd⟩

/-- Settles O43: each stage accepts its draw, and FINISH inverts e, which is coprime to m. -/
theorem keygenCompletesInFourSteps : Obligations.KeygenCompletesInFourSteps := by
  intro s i j c rest hi hp hs hsched hic hjc hne p q m hm hcm hg hent
  have hr : s.rst = false := by
    by_contra hhigh
    exact State.not_idle_of_busy hp (hi.resetIdle (Bool.eq_true_of_not_eq_false hhigh))
  have hqp : q ≠ p := fun he => hne (BitVec.eq_of_toNat_eq he.symm)
  have hcount : 2 ≤ s.pcount.toNat := by
    have hij : i ≠ j := fun he => hne (he ▸ rfl)
    omega
  obtain ⟨x, hsome, hx1, hxm, hone⟩ := exists_modInv_eq_some (show 2 ≤ m by omega) hg
  refine ⟨x, { s.kg with stage := .finish, p := p, q := q, n := p * q, m := m, e := c + 2 }, hx1, by omega, hone, ?_⟩
  have hP := exec_keygen_accepts_p hs hcount hic hent
  have hQ := exec_keygen_accepts_q (s := { s with
    entropy := j :: c :: rest, kg := { s.kg with p := p, stage := .pickQ } }) rfl hjc rfl hqp hm
  have hE := exec_keygen_accepts_e (s := { s with
    entropy := c :: rest, kg := { s.kg with p := p, q := q, n := p * q, m := m, stage := .pickE } }) rfl hcm rfl hg
  have hF := keygenFinish_of_some (s := { s with
    entropy := rest, kg := { s.kg with p := p, q := q, n := p * q, m := m, e := c + 2, stage := .finish } }) hsome
  calc Host.Core.run core 4 s
      = Host.Core.run core 3 _ := run_keygen_succ 3 hP hsched hr hp
    _ = Host.Core.run core 2 _ := run_keygen_succ 2 hQ hsched hr hp
    _ = Host.Core.run core 1 _ := run_keygen_succ 1 hE hsched hr hp
    _ = Host.Core.run core 0 _ := run_keygen_succ 0 ((exec_keygen_of_finish rfl).trans hF) hsched hr hp

end Sys2Proof.Machine
end

section
/-! SUPPORT. Blocks of five characters and Parse5 (45_block_codec.md R191, R192). -/

namespace Sys2Proof.Machine

theorem digitValue_digitChar {d : Nat} (h : d < 10) : digitValue (digitChar d) = d := by
  rw [digitValue, digitChar_toNat h, Nat.add_sub_cancel_left]

theorem five_lt_digits_length {v : Nat} (h : 100000 ≤ v) : 5 < (Nat.digits 10 v).length :=
  Nat.not_le.1 fun hle => absurd ((Nat.digits_length_le_iff (by decide) v).1 hle) (Nat.not_lt.2 h)

/-- The five digits of a number below 100000, leading zeros included. -/
theorem asciiBlock_eq_five {v : Nat} (hv : v < 100000) :
    asciiBlock v = [digitChar (v / 10 ^ 4 % 10), digitChar (v / 10 ^ 3 % 10), digitChar (v / 10 ^ 2 % 10),
      digitChar (v / 10 ^ 1 % 10), digitChar (v / 10 ^ 0 % 10)] := by
  apply List.ext_getElem?
  intro j
  rcases lt_or_ge j 5 with hj | hj
  · rw [asciiBlock_getElem? hv hj]
    interval_cases j <;> rfl
  · rw [List.getElem?_eq_none ((asciiBlock_length_of_lt hv).trans_le hj), List.getElem?_eq_none hj]

end Sys2Proof.Machine
end

section
/-! The block format and what ENCRYPT does with it, one statement each (45_block_codec.md R191 to R198). -/

namespace Sys2Proof.Machine

/-- Settles O9: the length is that of the digits, padded to five. -/
theorem fmtIsThePaddedDecimal : Obligations.FmtIsThePaddedDecimal := by
  intro v
  rw [fmt_eq_asciiBlock]
  refine ⟨rfl, asciiBlock_length_of_lt, fun hv => ?wide, asciiBlock_length_le_ten⟩
  case wide =>
    have hlen := five_lt_digits_length hv
    rw [asciiBlock_length]
    omega

/-- Settles O10: the value of each digit is at most 9, and the digits of a block are those of its number. -/
theorem parse5ReadsTheWindow : Obligations.Parse5ReadsTheWindow := by
  refine ⟨fun c0 c1 c2 c3 c4 h0 h1 h2 h3 h4 => ?window, fun v hv => ?block⟩
  case window =>
    simp only [IsDigitCode] at h0 h1 h2 h3 h4
    simp only [parse5, digitValue]
    omega
  case block =>
    have hdigit (x : Nat) : x % 10 < 10 := Nat.mod_lt x (by decide)
    refine ⟨_, _, _, _, _, (fmt_eq_asciiBlock v).trans (asciiBlock_eq_five hv), isDigitCode_digitChar (hdigit _),
      isDigitCode_digitChar (hdigit _), isDigitCode_digitChar (hdigit _), isDigitCode_digitChar (hdigit _),
      isDigitCode_digitChar (hdigit _), ?_⟩
    simp only [parse5, digitValue_digitChar (hdigit _)]
    omega

/-- Settles O46: a success passed RangeCheck, so the modulus is below 100000 and every block has five digits. -/
theorem rangeCheckedBlocksAreFiveWide : Obligations.RangeCheckedBlocksAreFiveWide := by
  intro s t hi hp hc h hsucc
  obtain ⟨-, -, hno, -⟩ := hsucc
  obtain ⟨-, hdepth⟩ := Config.mbufDepth_bounds hi.config
  rcases lt_or_ge s.cfg.mbufDepth s.mlen.toNat with hlong | hk
  · rw [exec_encrypt_of_too_long hlong] at h; cases h; cases hno
  rcases Nat.eq_zero_or_pos s.mlen.toNat with hempty | hpos
  · rw [exec_encrypt_of_empty hempty] at h
    cases h
    rw [hempty]
    exact ⟨rfl, nofun⟩
  rcases Nat.eq_zero_or_pos s.opb.toNat with hzero | hn
  · rw [exec_encrypt_of_modulus_zero hk hpos hzero] at h; cases h; cases hno
  by_cases hr : s.OutOfRange
  · rw [exec_encrypt_of_outOfRange hk hpos hn hc hr] at h; cases h; cases hno
  rw [exec_encrypt_of_inRange hk hpos hn fun hcr => hr hcr.2] at h
  cases h
  have hmax : s.opb.toNat ≤ 100000 := (Nat.not_le.1 fun hge => hr (.inl hge)).le
  have hlen := State.cipherBlocks_flatten_length hn hmax
  have hclen : (BitVec.ofNat 32 s.cipherBlocks.flatten.length).toNat = s.cipherBlocks.flatten.length := by
    rw [BitVec.toNat_ofNat, Nat.mod_eq_of_lt (by omega)]
  refine ⟨hclen.trans hlen, fun j hj => ?_⟩
  obtain ⟨hcbuf, -⟩ := State.cbufAt_of_fill (s := s) (t := State.complete { s with
    cbuf := s.cbuf.fill s.cipherBlocks.flatten, clen := BitVec.ofNat 32 s.cipherBlocks.flatten.length }) rfl rfl
  rw [hcbuf j (hj.trans_eq hclen)]
  exact State.isDigitCode_of_mem_cipherBlocks_flatten hn (List.getElem_mem _)

/-- Settles O47: a power modulo n depends on the remainder of the base only, so the blocks are the same. -/
theorem codePointsBeyondTheModulusAreReduced : Obligations.CodePointsBeyondTheModulusAreReduced := by
  intro s m hc hk hb hm
  have hn : 1 ≤ s.opb.toNat := BitVec.toNat_pos_of_ne_zero hb
  have hunchecked (b : Prop) : ¬ (s.ctrl.rchk = true ∧ b) := fun h => by rw [hc] at h; cases h.1
  have hblocks : State.cipherBlocks { s with mbuf := m } = s.cipherBlocks :=
    List.map_congr_left fun i hi => by
      rw [hm i (List.mem_range.1 hi), ← Nat.pow_mod]
  rcases Nat.eq_zero_or_pos s.mlen.toNat with hempty | hpos
  · exact ⟨_, exec_encrypt_of_empty hempty, ⟨rfl, rfl, rfl, rfl⟩, exec_encrypt_of_empty (s := { s with mbuf := m }) hempty⟩
  · refine ⟨_, exec_encrypt_of_inRange hk hpos hn (hunchecked _), ⟨rfl, rfl, rfl, rfl⟩, ?_⟩
    rw [exec_encrypt_of_inRange (s := { s with mbuf := m }) hk hpos hn (hunchecked _), hblocks]
    rfl

end Sys2Proof.Machine
end

section
/-! Decoding of encoded and of written-out words, one statement each (30_encoding.md R90, R91). -/

namespace Sys2Proof

/-- Settles O3: each command's encoding, checked per command. -/
theorem encodedCommandDecodesToItself : Obligations.EncodedCommandDecodesToItself := by
  intro i
  obtain ⟨hwf, -, hdec, htab⟩ := encoding_holds i
  exact ⟨hwf, hdec, htab⟩

/-- Settles O4: three are the words of commands, one has an unassigned opcode, one a reserved bit. -/
theorem writtenOutWordsDecode : Obligations.WrittenOutWordsDecode :=
  ⟨decode_encode .isprime, decode_encode .keygen, decode_encode .decrypt,
    (decode_eq_unassignedOpcode_iff _).2 (by decide), (decode_eq_reservedBits_iff _).2 (by decide)⟩

end Sys2Proof

namespace Sys2Proof.Machine

/-- Settles O24: the reset state field by field; CAP holds the depth of an admitted block whole. -/
theorem resetStateHasTheSpecsValues : Obligations.ResetStateHasTheSpecsValues := by
  intro c hc s
  have hcap : (s.readReg .cap).toNat = c.mbufDepth := State.capWord_toNat (s := s) hc
  exact ⟨rfl, hcap, rfl, rfl, rfl, rfl, rfl, rfl, rfl, rfl, rfl, rfl, rfl, rfl, rfl, rfl, rfl, rfl,
    fun i => State.contents_pram_of_le (Nat.zero_le i), fun _ => ⟨rfl, rfl⟩⟩

/-- Settles O25: the turn resets the block, whatever it was doing. -/
theorem resetAbandonsTheCommand : Obligations.ResetAbandonsTheCommand := by
  intro s op b ts hp hs
  exact ⟨State.resetEdge { s with sched := ts } b, step_of_sched_cons hs, rfl, rfl, rfl, rfl, rfl, rfl, rfl, rfl, rfl, rfl,
    rfl, rfl, rfl, rfl, rfl, rfl⟩

/-- While rst is high an access is refused before the offset is looked up (70_reset_and_hazards.md R250). -/
theorem State.accessAt_rst {s : State} (hr : s.rst = true) (o bytes : Nat) (d : Dir) :
    s.accessAt o bytes d = { s with resp := some (slverr d) } := by
  rw [State.accessAt, hr, Bool.true_or, Bool.true_or, if_pos rfl]

theorem engineTurn_of_rst {s : State} (hr : s.rst = true) : engineTurn s = .next s := by
  rw [engineTurn, hr]

/-- Settles O26: an access is refused, the engine has no step, and the edge resets. -/
theorem nothingMovesWhileResetIsAsserted : Obligations.NothingMovesWhileResetIsAsserted := by
  refine ⟨fun s o bytes d hr ho => ?access, fun s ts hr hs => ?engine, fun s ts hs => step_of_sched_cons hs⟩
  case access =>
    apply refused_of_eq_slverr
    calc s.access ⟨s.cfg.base + o, bytes, d⟩
        = s.accessAt o bytes d := by simp only [State.access, offsetOf_base_add s.cfg ho]
      _ = { s with resp := some (slverr d) } := State.accessAt_rst hr o bytes d
  case engine =>
    rw [step_of_sched_cons hs]
    exact engineTurn_of_rst (s := { s with sched := ts }) hr

end Sys2Proof.Machine
end

section
/-! SUPPORT. The host's turn, line by line (30_encoding.md R95; logs 11, 15, 24, 25). -/

namespace Sys2Proof.Machine

/-! ### Whose turn it is (log 1) -/

/-- The host has the turn by default where the engine has no step. -/
theorem defaultTurn_of_idle_or_rst {s : State} (h : s.phase = .idle ∨ s.rst = true) : defaultTurn s = .host := by
  rw [defaultTurn]
  obtain hp | hr := h
  · rw [hp]; cases s.rst <;> rfl
  · rw [hr]

/-- In the host's turn it follows the line it stands at; only the schedule has changed before it does. -/
theorem State.HostMoves.step_eq {s u : State} (h : s.HostMoves u) : step s = hostTurn u ∧ ∃ q, u = { s with sched := q } := by
  obtain ⟨ts, hs, rfl⟩ | ⟨hs, hidle, rfl⟩ := h
  · exact ⟨step_of_sched_cons hs, ts, rfl⟩
  · exact ⟨by rw [step_of_sched_nil hs, defaultTurn_of_idle_or_rst hidle, takeTurn], u.sched, rfl⟩

theorem hostTurn_of_line {s : State} {line : HostLine} (h : s.prog[s.progPos]? = some line) :
    hostTurn s = hostLine line s := by
  rw [hostTurn, h]

/-! ### Values and variables (log 15) -/

theorem State.HostValueIs.hostValue_eq {s : State} {v : HostValue} {w : Word} (h : s.HostValueIs v w) :
    s.hostValue v = .ok w := by
  obtain rfl | ⟨c, rfl, -, hc⟩ | ⟨x, rfl, hx⟩ := h
  · rw [State.hostValue, BitVec.ofNat_toNat, BitVec.setWidth_eq]
  · rw [State.hostValue, ← hc, BitVec.ofNat_toNat, BitVec.setWidth_eq]
  · rw [State.hostValue, hx]

/-- A variable holds what was last put into it. -/
theorem hostVar_setHostVar (vs : List (Nat × Word)) (x : Nat) (v : Word) : hostVar (setHostVar vs x v) x = some v := by
  induction vs with
  | nil => simp [setHostVar, hostVar]
  | cons c vs ih =>
    obtain ⟨y, u⟩ := c
    simp only [setHostVar]
    split_ifs with hlt heq
    · simp [hostVar]
    · simp [hostVar]
    · rw [hostVar, if_neg (Ne.symm heq), ih]

/-! ### Labels (log 24) -/

theorem labelPos_of_first {l k : Nat} {prog : List HostLine} (i : Nat) (hk : prog[k]? = some (.label l))
    (hfirst : ∀ j, j < k → prog[j]? ≠ some (.label l)) : labelPos l i prog = some (i + k + 1) := by
  induction prog generalizing i k with
  | nil => cases hk
  | cons line rest ih =>
    cases k with
    | zero => rw [labelPos, if_pos (Option.some.inj hk)]
    | succ k =>
      have hne : line ≠ .label l := fun he => hfirst 0 (Nat.succ_pos k) (congrArg some he)
      rw [labelPos, if_neg hne, ih (i + 1) hk fun j hj => hfirst (j + 1) (Nat.succ_lt_succ hj)]
      congr 1
      omega

theorem labelPos_of_not_mem {l : Nat} {prog : List HostLine} (i : Nat) (h : .label l ∉ prog) : labelPos l i prog = none := by
  induction prog generalizing i with
  | nil => rfl
  | cons line rest ih =>
    obtain ⟨hne, hrest⟩ := not_or.1 (mt List.mem_cons.2 h)
    rw [labelPos, if_neg (Ne.symm hne), ih (i + 1) hrest]

/-! ### The lines that make an access -/

theorem State.access_progPos (s : State) (a : Access) : (s.access a).progPos = s.progPos := by
  obtain ⟨v, t, u, r, n, heffect, e, -⟩ := s.access_effect a
  rw [e]
  cases heffect <;> rfl

/-- The access of a line, and on to the next line. -/
theorem State.access_nextLine (s : State) (a : Access) :
    (s.access a).nextLine = { s.access a with progPos := s.progPos + 1 } := by
  rw [State.nextLine, s.access_progPos]

theorem hostWrite_of_value {s : State} {v : HostValue} {w : Word} (o : Nat) (h : s.hostValue v = .ok w) :
    hostWrite s o v = .next { s.access (s.wordAt o (.write w)) with progPos := s.progPos + 1 } := by
  rw [hostWrite, h, ← s.access_nextLine]
  rfl

theorem hostWrite_of_undefined {s : State} {x : Nat} (o : Nat) (h : hostVar s.vars x = none) :
    hostWrite s o (.var x) = .fault (.hostNameUndefined x) := by
  have hv : s.hostValue (.var x) = .error x := by rw [State.hostValue, h]
  rw [hostWrite, hv]

/-- RD puts the data word into its variable. -/
theorem hostLine_rd_of_data {s : State} {g : HostTarget} {x : Nat} {c : RespCode} {w : Word}
    (h : (s.access (s.wordAt g.toOffset .read)).resp = some ⟨c, some w⟩) :
    hostLine (.rd g x) s = .next { s.access (s.wordAt g.toOffset .read) with
      vars := setHostVar (s.access (s.wordAt g.toOffset .read)).vars x w, progPos := s.progPos + 1 } := by
  have hstore : (s.access (s.wordAt g.toOffset .read)).storeRead x = { s.access (s.wordAt g.toOffset .read) with
      vars := setHostVar (s.access (s.wordAt g.toOffset .read)).vars x w } := by
    simp only [State.storeRead, h]
  calc hostLine (.rd g x) s
      = .next ((s.access (s.wordAt g.toOffset .read)).storeRead x).nextLine := rfl
    _ = _ := by rw [hstore, State.nextLine, s.access_progPos]

/-- RD keeps its variable where nothing answers (log 11). -/
theorem hostLine_rd_of_none {s : State} {g : HostTarget} {x : Nat}
    (h : (s.access (s.wordAt g.toOffset .read)).resp = none) :
    hostLine (.rd g x) s = .next { s.access (s.wordAt g.toOffset .read) with progPos := s.progPos + 1 } := by
  have hstore : (s.access (s.wordAt g.toOffset .read)).storeRead x = s.access (s.wordAt g.toOffset .read) := by
    rw [State.storeRead, h]
  calc hostLine (.rd g x) s
      = .next ((s.access (s.wordAt g.toOffset .read)).storeRead x).nextLine := rfl
    _ = _ := by rw [hstore, s.access_nextLine]

/-! ### The lines that make none -/

section
variable {s : State} {x l : Nat} {mask v : Word} (hv : hostVar s.vars x = some v)
include hv

theorem hostLine_bnz_not_taken (hz : v &&& mask = 0) :
    hostLine (.bnz x mask l) s = .next { s with progPos := s.progPos + 1 } := by
  simp only [hostLine, hv]
  exact if_neg (not_not_intro hz)

theorem hostLine_bnz_taken {k : Nat} (hz : v &&& mask ≠ 0) (hk : labelPos l 0 s.prog = some k) :
    hostLine (.bnz x mask l) s = .next { s with progPos := k } := by
  simp only [hostLine, hv, if_pos hz, hk]

theorem hostLine_bnz_undefined (hz : v &&& mask ≠ 0) (hk : labelPos l 0 s.prog = none) :
    hostLine (.bnz x mask l) s = .fault (.hostLabelUndefined l) := by
  simp only [hostLine, hv, if_pos hz, hk]

end

theorem hostLine_bnz_of_undefined {s : State} {x l : Nat} {mask : Word} (hv : hostVar s.vars x = none) :
    hostLine (.bnz x mask l) s = .fault (.hostNameUndefined x) := by
  simp only [hostLine, hv]

theorem hostLine_run_of_idle {s : State} (hp : s.phase = .idle) :
    hostLine .run s = .next { s with progPos := s.progPos + 1 } :=
  calc hostLine .run s = .next s.nextLine := by simp only [hostLine, hp]
    _ = _ := rfl

theorem hostLine_run_of_busy {s : State} {i : Instr} (hp : s.phase = .busy i) : hostLine .run s = engineTurn s := by
  simp only [hostLine, hp]

end Sys2Proof.Machine
end

section
/-! A step by the turn it takes (40_command_lifecycle.md R111, R112; 30_encoding.md R95). -/

namespace Sys2Proof.Machine

theorem step_of_engine {s : State} {i : Instr} {ts : List Turn} (hr : s.rst = false) (hp : s.phase = .busy i)
    (hs : s.sched = .engine :: ts) : step s = exec i { s with sched := ts } := by
  rw [step_of_sched_cons hs]
  exact engineTurn_of_busy (s := { s with sched := ts }) hr hp

/-- A CMD write of a command's word, and then the engine's turn (40_command_lifecycle.md R111, R112). -/
theorem step_of_cmd_write {s : State} {i : Instr} {w : Word} {ts : List Turn} (hr : s.rst = false) (hp : s.phase = .idle)
    (hd : decode w = .legal i) (hs : s.sched = .access (s.wordAt 0x10 (.write w)) :: .engine :: ts) :
    ∃ t, step s = .next t ∧ t.phase = .busy i ∧ t.sched = .engine :: ts ∧ step t = exec i { t with sched := ts } := by
  let u : State := { s with sched := .engine :: ts }
  let t : State := { u.accept i with resp := some ⟨.okay, none⟩ }
  have haccess : u.access (u.wordAt 0x10 (.write w)) = t := by
    rw [State.access_write_cmd (s := u) hr, State.request_of_legal (s := u) hp hd]
  refine ⟨t, ?_, rfl, rfl, step_of_engine (s := t) hr rfl rfl⟩
  rw [step_of_sched_cons hs]
  exact congrArg Host.Outcome.next haccess

/-- withFetchWord of a command's word puts the engine's turn right after its acceptance (log 2). -/
theorem step_withFetchWord {s : State} (hr : s.rst = false) (i : Instr) :
    step (s.withFetchWord 32 (encode i).toNat) = exec i (s.accept i) := by
  obtain ⟨-, -, -, htab⟩ := encoding_holds i
  have hfetch : s.withFetchWord 32 (encode i).toNat = { s.accept i with rst := s.rst, sched := .engine :: s.sched } := by
    rw [State.withFetchWord, htab, hr]
  rw [hfetch]
  exact step_of_engine (s := { s.accept i with rst := s.rst, sched := .engine :: s.sched }) hr rfl rfl

/-- Settles O27: the turn's own equation, and for the host that of the line it stands at. -/
theorem stepRunsTheDecodedCommand : Obligations.StepRunsTheDecodedCommand := by
  refine ⟨fun s i hr => ⟨fun ts => step_of_engine hr, fun hp hs => step_of_busy hs hr hp, fun w ts => step_of_cmd_write hr,
    step_withFetchWord hr i⟩, fun s a ts hs => step_of_sched_cons hs, rfl, fun i => ⟨rfl, rfl, rfl, rfl⟩, fun s u hu => ?host⟩
  case host =>
    obtain ⟨hstep, q, rfl⟩ := hu.step_eq
    have line {l : HostLine} (hl : s.prog[s.progPos]? = some l) : step s = hostLine l { s with sched := q } :=
      hstep.trans (hostTurn_of_line (s := { s with sched := q }) hl)
    refine ⟨fun g v w hl hv => ?wr, fun i hl => ?cmd, fun v w hl hv => ?cmdWord,
      fun g x hl => ⟨fun c w hw => ?rdData, fun hnone => ?rdNone⟩,
      fun x mask l v hl hv => ⟨fun hz => ?notTaken, fun hz k hk hfirst => ?taken, fun hz hnot => ?noLabel⟩,
      fun l hl hquiet => ?quiet, fun hl => ?halt,
      fun hl => ⟨fun hp => ?runIdle, fun i hp => ⟨fun hr => ?runBusy, fun hr => ?runReset⟩⟩, fun hl => ?noLine,
      fun l x hl hx hcases => ?noName⟩
    case wr => exact (line hl).trans (hostWrite_of_value g.toOffset hv.hostValue_eq)
    case cmd => exact (line hl).trans (congrArg Host.Outcome.next (State.access_nextLine _ _))
    case cmdWord => exact (line hl).trans (hostWrite_of_value Reg.cmd.offset hv.hostValue_eq)
    case rdData => exact ⟨_, (line hl).trans (hostLine_rd_of_data hw), hostVar_setHostVar _ x w, rfl⟩
    case rdNone => exact (line hl).trans (hostLine_rd_of_none hnone)
    case notTaken => exact (line hl).trans (hostLine_bnz_not_taken hv hz)
    case taken =>
      have hpos := labelPos_of_first 0 hk hfirst
      rw [Nat.zero_add] at hpos
      exact (line hl).trans (hostLine_bnz_taken (s := { s with sched := q }) hv hz hpos)
    case noLabel => exact (line hl).trans (hostLine_bnz_undefined hv hz (labelPos_of_not_mem 0 hnot))
    case quiet => obtain ⟨n, rfl⟩ | rfl := hquiet <;> exact line hl
    case halt => exact ⟨s.prog.length, List.getElem?_eq_none le_rfl, line hl⟩
    case runIdle => exact (line hl).trans (hostLine_run_of_idle hp)
    case runBusy => exact (line hl).trans ((hostLine_run_of_busy (s := { s with sched := q }) hp).trans (engineTurn_of_busy hr hp))
    case runReset => exact (line hl).trans ((hostLine_run_of_busy (s := { s with sched := q }) hp).trans (engineTurn_of_rst hr))
    case noLine => exact hstep.trans (hostTurn_of_no_line hl)
    case noName =>
      obtain ⟨g, rfl⟩ | rfl | ⟨mask, n, rfl⟩ := hcases
      · exact (line hl).trans (hostWrite_of_undefined g.toOffset hx)
      · exact (line hl).trans (hostWrite_of_undefined Reg.cmd.offset hx)
      · exact (line hl).trans (hostLine_bnz_of_undefined hx)

end Sys2Proof.Machine
end

section
/-! SUPPORT. Sieve(b) against Mathlib's primes: its length is the prime-counting function and its entries are the primes in
order (42_sieve.md R141, R143). -/

namespace Sys2Proof.Machine

/-- Position i of the numbers below n that meet p is the i-th number that meets it. -/
theorem getElem_filter_range {p : Nat → Prop} [DecidablePred p] {n i : Nat}
    (h : i < ((List.range n).filter fun x => decide (p x)).length) :
    ((List.range n).filter fun x => decide (p x))[i] = Nat.nth p i := by
  induction n with
  | zero => cases h
  | succ n ih =>
    have hcount : ((List.range n).filter fun x => decide (p x)).length = Nat.count p n :=
      List.countP_eq_length_filter.symm
    simp only [List.range_succ, List.filter_append] at h ⊢
    rcases lt_or_ge i ((List.range n).filter fun x => decide (p x)).length with hlt | hge
    · rw [List.getElem_append_left hlt, ih hlt]
    · rw [List.getElem_append_right hge]
      by_cases hn : p n
      · simp only [List.filter_singleton, hn, decide_true, List.length_append, cond_true, List.length_singleton] at h ⊢
        have hi : i = Nat.count p n := by omega
        rw [List.getElem_singleton, hi, Nat.nth_count hn]
      · simp only [List.filter_singleton, hn, decide_false, cond_false, List.append_nil] at h
        omega

/-- The list starts at 2 and leaves out no prime, since 0 and 1 are none. -/
theorem sieve_eq_filter (b : Nat) : sieve b = (List.range (b + 1)).filter fun x => decide (Nat.Prime x) := by
  have hprime : ∀ x, isPrimeTD x = decide (Nat.Prime x) := fun x => by
    rw [Bool.eq_iff_iff, isPrimeTD_iff_prime, decide_eq_true_iff]
  have h0 : decide (Nat.Prime 0) = false := decide_eq_false Nat.not_prime_zero
  have h1 : decide (Nat.Prime 1) = false := decide_eq_false Nat.not_prime_one
  rw [sieve, funext hprime, List.range_eq_range', List.range'_succ, List.filter_cons_of_neg (by simp [h0])]
  cases b with
  | zero => rfl
  | succ b => rw [List.range'_succ, List.filter_cons_of_neg (by simp [h1])]; rfl

theorem sieve_length (b : Nat) : (sieve b).length = Nat.count Nat.Prime (b + 1) := by
  rw [sieve_eq_filter, ← List.countP_eq_length_filter]
  rfl

theorem sieve_getElem {b i : Nat} (h : i < (sieve b).length) : (sieve b)[i] = Nat.nth Nat.Prime i := by
  simp only [sieve_eq_filter] at h ⊢
  exact getElem_filter_range h

theorem sieve_pairwise (b : Nat) : (sieve b).Pairwise fun x y => x < y :=
  (List.pairwise_lt_range' 1).filter isPrimeTD

theorem State.sieved_pramAt {s : State} (hb : s.opa.toNat ≤ boundMax) {i : Nat} (hi : i < (sieve s.opa.toNat).length) :
    (s.sieved.pramAt i).toNat = Nat.nth Nat.Prime i := by
  have hset := State.sieved_primeSet hb
  rw [← State.primeSet_getElem s.sieved (by rwa [hset])]
  simp only [hset, sieve_getElem hi]

end Sys2Proof.Machine
end

section
/-! SUPPORT. How many primes there are up to 65535 (42_sieve.md R143 item 4). Below m * m a number that has no divisor from
2 to m - 1 is a prime or 1, and it has none when it is coprime to the factorial of m - 1. So the primes below 65536 are counted
by one gcd for each odd number, with m = 256, and those below 256 and 16 in the same way. -/

namespace Sys2Proof.Machine

/-- How many of the 2 ^ k odd numbers lo, lo + 2, lo + 4, … are coprime to f, by halves: 1 / gcd is 1 where the gcd is 1, and
else 0. -/
def oddCoprimes (f : Nat) : Nat → Nat → Nat
  | 0, lo => 1 / Nat.gcd lo f
  | k + 1, lo => oddCoprimes f k lo + oddCoprimes f k (lo + 2 ^ (k + 1))

theorem oddCoprimes_eq_count {f : Nat} (hf : 0 < f) (k lo : Nat) :
    oddCoprimes f k lo = Nat.count (fun i => Nat.Coprime (lo + 2 * i) f) (2 ^ k) := by
  induction k generalizing lo with
  | zero =>
    have hpos : 0 < Nat.gcd lo f := Nat.gcd_pos_of_pos_right lo hf
    rw [oddCoprimes, pow_zero, Nat.count_one, Nat.mul_zero, Nat.add_zero]
    split_ifs with hc
    · rw [hc]
    · exact Nat.div_eq_of_lt (by unfold Nat.Coprime at hc; omega)
  | succ k ih =>
    rw [oddCoprimes, ih, ih, pow_succ, Nat.mul_two, Nat.count_add]
    congr 2
    funext i
    congr 1
    ring

/-- A count over the even and the odd numbers apart. -/
theorem count_two_mul (p : Nat → Prop) [DecidablePred p] (n : Nat) :
    Nat.count p (2 * n) = Nat.count (fun i => p (2 * i)) n + Nat.count (fun i => p (1 + 2 * i)) n := by
  induction n with
  | zero => rfl
  | succ n ih =>
    rw [Nat.mul_succ, Nat.count_succ, Nat.count_succ, ih, Nat.count_succ, Nat.count_succ, Nat.add_comm 1]
    omega

/-- For m ≥ 3 the numbers that are coprime to the factorial of m - 1 are odd. -/
theorem count_coprime_factorial {m k : Nat} (hm : 3 ≤ m) (hk : m * m = 2 * 2 ^ k) :
    Nat.count (fun n => Nat.Coprime n (m - 1).factorial) (m * m) = oddCoprimes (m - 1).factorial k 1 := by
  have heven : Nat.count (fun i => Nat.Coprime (2 * i) (m - 1).factorial) (2 ^ k) = 0 :=
    Nat.count_iff_forall_not.2 fun i _ hc =>
      Nat.not_coprime_of_dvd_of_dvd (by decide) (Nat.dvd_mul_right 2 i) (Nat.dvd_factorial (by decide) (by omega)) hc
  rw [hk, count_two_mul, heven, Nat.zero_add, oddCoprimes_eq_count (Nat.factorial_pos _)]

theorem coprime_factorial_pred_iff {m n : Nat} (hm : 3 ≤ m) (hn : n < m * m) :
    Nat.Coprime n (m - 1).factorial ↔ n = 1 ∨ (m ≤ n ∧ n.Prime) := by
  by_cases h1 : n = 1
  · simp [h1]
  rw [Nat.coprime_factorial_iff h1]
  refine ⟨fun hmin => .inr ?_, fun h => ?_⟩
  · have hpos : 0 < n := Nat.pos_of_ne_zero fun h0 => by rw [h0, Nat.minFac_zero] at hmin; omega
    refine ⟨by have := Nat.minFac_le hpos; omega, by_contra fun hp => ?_⟩
    have hsq := Nat.minFac_sq_le_self hpos hp
    have hle : m * m ≤ n.minFac ^ 2 := by rw [pow_two]; exact Nat.mul_le_mul (by omega) (by omega)
    omega
  · obtain ⟨hle, hp⟩ := h.resolve_left h1
    rw [hp.minFac_eq]
    omega

/-- The primes below m * m are those below m and the other numbers than 1 that are coprime to the factorial. -/
theorem count_prime_mul_self {m k : Nat} (hm : 3 ≤ m) (hk : m * m = 2 * 2 ^ k) :
    Nat.count Nat.Prime (m * m) + 1 = Nat.count Nat.Prime m + oddCoprimes (m - 1).factorial k 1 := by
  obtain ⟨d, hd⟩ : ∃ d, m * m = m + d := Nat.exists_eq_add_of_le (Nat.le_mul_self m)
  have hlow : Nat.count (fun n => Nat.Coprime n (m - 1).factorial) m = 1 := by
    have hone : ∀ n < m, Nat.Coprime n (m - 1).factorial ↔ n = 1 := fun n hn => by
      rw [coprime_factorial_pred_iff hm (by omega)]
      omega
    rw [Nat.count_eq_card_filter_range, Finset.filter_congr fun n hn => hone n (Finset.mem_range.1 hn),
      Finset.filter_eq', if_pos (Finset.mem_range.2 (by omega)), Finset.card_singleton]
  have hhigh : Nat.count (fun n => Nat.Coprime (m + n) (m - 1).factorial) d = Nat.count (fun n => (m + n).Prime) d := by
    have hiff : ∀ n < d, Nat.Coprime (m + n) (m - 1).factorial ↔ (m + n).Prime := fun n hn => by
      rw [coprime_factorial_pred_iff hm (by omega)]
      exact ⟨fun h => (h.resolve_left (by omega)).2, fun h => .inr ⟨by omega, h⟩⟩
    rw [Nat.count_eq_card_filter_range, Nat.count_eq_card_filter_range,
      Finset.filter_congr fun n hn => hiff n (Finset.mem_range.1 hn)]
  rw [← count_coprime_factorial hm hk, hd, Nat.count_add, Nat.count_add, hlow, hhigh]
  omega

/-- The count up to n = m * m from its two parts. -/
theorem count_prime_of_parts {m n k a c r : Nat} (hm : 3 ≤ m) (hn : m * m = n) (hk : n = 2 * 2 ^ k)
    (hlow : Nat.count Nat.Prime m = a) (hodd : oddCoprimes (m - 1).factorial k 1 = c) (hr : a + c = r + 1) :
    Nat.count Nat.Prime n = r := by
  have h := count_prime_mul_self hm (hn.trans hk)
  rw [hn, hlow, hodd] at h
  omega

theorem count_prime_16 : Nat.count Nat.Prime 16 = 6 :=
  count_prime_of_parts (m := 4) (k := 3) (a := 2) (c := 5) (by decide) rfl rfl (by decide) (by decide) rfl

theorem count_prime_256 : Nat.count Nat.Prime 256 = 54 :=
  count_prime_of_parts (m := 16) (k := 7) (c := 49) (by decide) rfl rfl count_prime_16 (by decide +kernel) rfl

/-- The one long evaluation: 2 ^ 15 gcds, done by the kernel's arithmetic on numerals. -/
theorem oddCoprimes_factorial_255 : oddCoprimes (256 - 1).factorial 15 1 = 6489 := by decide +kernel

theorem count_prime_65536 : Nat.count Nat.Prime 65536 = 6542 :=
  count_prime_of_parts (by decide) rfl rfl count_prime_256 oddCoprimes_factorial_255 rfl

theorem prime_65521 : Nat.Prime 65521 := by norm_num

/-- The count up to a prime k, from a count past it with no other prime in between. -/
theorem count_prime_of_gap {k d n a : Nat} (hn : k + 1 + d = n) (hp : k.Prime) (hgap : ∀ i < d, ¬ (k + 1 + i).Prime)
    (hall : Nat.count Nat.Prime n = a + 1) : Nat.count Nat.Prime k = a := by
  rw [← hn, Nat.count_add, Nat.count_iff_forall_not.2 hgap, Nat.count_succ, if_pos hp] at hall
  exact Nat.succ.inj hall

theorem not_prime_of_gap : ∀ i < 14, ¬ Nat.Prime (65521 + 1 + i) := by
  intro i hi
  interval_cases i <;> norm_num

theorem count_prime_65521 : Nat.count Nat.Prime 65521 = 6541 :=
  count_prime_of_gap (d := 14) rfl prime_65521 not_prime_of_gap count_prime_65536

theorem nth_prime_6541 : Nat.nth Nat.Prime 6541 = 65521 := by
  rw [← count_prime_65521, Nat.nth_count prime_65521]

end Sys2Proof.Machine
end

section
/-! SIEVE and the PrimeSet it leaves, one statement each (42_sieve.md R140 to R143). -/

namespace Sys2Proof.Machine

/-- Settles O33: the list of SIEVE is the primes up to the bound, which PCOUNT and the cells hold whole. -/
theorem sieveBuildsThePrimeSet : Obligations.SieveBuildsThePrimeSet := by
  refine ⟨rfl, fun s => ⟨exec_sieve_of_too_large, fun hb => ?_⟩⟩
  rw [← sieve_eq_filter]
  have hcount := State.sieved_pcount hb
  refine ⟨s.sieved.pram, exec_sieve_of_le hb, hcount, State.sieved_primeSet hb, fun i hi => ⟨?cell, ?read⟩⟩
  case cell =>
    obtain ⟨-, hkept⟩ := State.pramAt_of_fill (s := s) (t := s.sieved) rfl rfl
    exact hkept i (by rwa [List.length_map])
  case read => exact State.contents_pram_of_le (s := s.sieved) (hcount.trans_le hi)

/-- Settles O34: Sieve(b) in Mathlib's terms; it is computed from the bound alone. -/
theorem primeSetIsTheFirstPrimes : Obligations.PrimeSetIsTheFirstPrimes := by
  intro s t hb h
  rw [exec_sieve_of_le hb] at h
  cases h
  have hcount := State.sieved_pcount hb
  rw [State.sieved_primeSet hb, hcount]
  refine ⟨sieve_length _, fun i hi => State.sieved_pramAt hb hi, sieve_pairwise _, fun x => ?member, fun s' t' hopa h' => ?same⟩
  case member =>
    rw [mem_sieve_iff, and_comm]
    exact and_congr_right fun hp => (and_iff_right ((isPrimeTD_iff_prime x).1 hp).two_le).symm
  case same =>
    rw [exec_sieve_of_le (by rwa [hopa])] at h'
    cases h'
    refine ⟨by rw [State.sieved_primeSet (by rwa [hopa]), hopa], ?_, hopa⟩
    apply BitVec.eq_of_toNat_eq
    rw [hcount, State.sieved_pcount (by rwa [hopa]), hopa]

/-- Settles O35: there are 6542 primes below 65536, and 65521 is the last. -/
theorem primeSetFitsThePram : Obligations.PrimeSetFitsThePram := by
  refine ⟨fun s t hb h => ?fits, fun s hopa => ?full⟩
  case fits =>
    rw [exec_sieve_of_le hb] at h
    cases h
    rw [State.sieved_pcount hb, sieve_length, ← count_prime_65536]
    exact Nat.count_monotone Nat.Prime (by omega)
  case full =>
    have hmax : s.opa.toNat = 65535 := by rw [hopa]; rfl
    have hb : s.opa.toNat ≤ boundMax := hmax.le
    have hlen : (sieve s.opa.toNat).length = 6542 := by rw [sieve_length, hmax, count_prime_65536]
    refine ⟨s.sieved, exec_sieve_of_le hb, ?_, ?_⟩
    · apply BitVec.eq_of_toNat_eq
      rw [State.sieved_pcount hb, hlen]
      rfl
    · apply BitVec.eq_of_toNat_eq
      rw [State.sieved_pramAt hb (by omega), nth_prime_6541]
      rfl

end Sys2Proof.Machine
end
